-- ==== Sys2Proof/Word.lean ====
section
/-! DEFINITION. The words of the block: bytes, symbols, handles, the command and data words (00 R8, R6). -/

namespace Sys2Proof

/-- A byte, 8 bits (00 R6). -/
abbrev Byte := BitVec 8

/-- A symbol: a byte value 0..255 of the uncompressed data (00 R8). -/
abbrev Sym := BitVec 8

/-- A handle: a 9-bit number naming a node (10 R25). -/
abbrev Handle := BitVec 9

/-- The command word, `CMD_W` = 32 bits (00 R6). -/
abbrev CmdWord := BitVec 32

/-- The data words `wdata` and `rdata`, `DATA_W` = 256 bits (00 R6). -/
abbrev Data := BitVec 256

/-- A bit sequence, first element first (00 R8). -/
abbrev Bits := List Bool

/-- `NIL`, the handle that names no node (00 R6, 10 R25). -/
abbrev nilHandle : Handle := 511#9

end Sys2Proof
end

