-- ==== Sys2Proof/Config.lean ====
section
/-! DEFINITION. What is fixed when a block is built: the one parameter `CNT_W` (00 R6).
There is no free value: the spec leaves no value open (00 R10 point 6). -/

namespace Sys2Proof

/-- The parameters of one block. `cntW` is `CNT_W`, the width in bits of one frequency counter (00 R6).
DESIGN CHOICE (log entry 1): it is carried beside the state, so that every claim holds for every width. -/
structure Config where
  cntW : Nat
deriving DecidableEq, Repr

/-- `CNT_W` is an integer in 1..128 (00 R6). -/
abbrev Config.wf (c : Config) : Prop := 1 ≤ c.cntW ∧ c.cntW ≤ 128

/-- The default width, 64 (00 R6). -/
def Config.default : Config := { cntW := 64 }

end Sys2Proof
end

