-- ==== Sys2Proof/Syntax.lean ====
section
/-! DEFINITION. The sixteen commands (30 R95) and the command as it stands on the `cmd` port (30 R90). -/

namespace Sys2Proof

/-- One command transfer: the command word and the data word, taken together (30 R90). -/
structure Command where
  cmd : CmdWord
  wdata : Data
deriving DecidableEq, Repr

/-- The commands with their operands, one constructor per row of the opcode table (30 R95, R97). -/
inductive Instr where
  | nop
  | clr
  | csrr (n : Byte)
  | acc (sym : Sym)
  | fadd (sym : Sym) (c : Data)
  | frd (sym : Sym)
  | build
  | ndrd (h : Handle)
  | gen
  | ctrd (sym : Sym)
  | ctld (sym : Sym) (len : Byte) (wdata : Data)
  | pack (sym : Sym)
  | flush
  | ubeg
  | unpk (b : Byte)
  | ufin (u : Byte)
deriving DecidableEq, Repr

end Sys2Proof
end

