-- ==== Sys2Proof/WellFormed.lean ====
section
/-! DEFINITION. Which terms of `Instr` are commands: the two extra constraints of 30 R95.
Every other operand may take every value of its field (30 R97). -/

namespace Sys2Proof

/-- `CSRR n` wants `n ≤ 0x09`, `NDRD h` wants `h ≤ 510` (30 R95, R99). -/
def Instr.wellFormed : Instr → Bool
  | .nop => true
  | .clr => true
  | .csrr n => n.toNat ≤ 9
  | .acc _ => true
  | .fadd _ _ => true
  | .frd _ => true
  | .build => true
  | .ndrd h => h.toNat ≤ 510
  | .gen => true
  | .ctrd _ => true
  | .ctld _ _ _ => true
  | .pack _ => true
  | .flush => true
  | .ubeg => true
  | .unpk _ => true
  | .ufin _ => true

end Sys2Proof
end

