-- ==== Sys2Proof/Decode.lean ====
section
/-! DEFINITION. The decoder, total on every pair (cmd, wdata) (30 R105), and after it the encoder
(30 R91, R95, R103). -/

namespace Sys2Proof

/-- The sixteen defined opcodes (30 R95). -/
inductive Op where
  | nop | clr | csrr | acc | fadd | frd | build | ndrd | gen | ctrd | ctld | pack | flush | ubeg | unpk | ufin
deriving DecidableEq, Repr

/-- Why a command word is illegal (30 R98, R99). -/
inductive Illegal where
  /-- `op` is no row of the opcode map (30 R98). -/
  | reservedOpcode
  /-- `rsv`, or a field the command does not use, is not 0 (30 R99). -/
  | fieldNotZero
  /-- `NDRD` with `h = 511` (30 R99). -/
  | noSuchNode
  /-- `CSRR` with `n > 0x09` (30 R99). -/
  | noSuchCsr
deriving DecidableEq, Repr

/-- `op = cmd[31:24]` (30 R91). -/
def Command.op (c : Command) : BitVec 8 := c.cmd.extractLsb' 24 8

/-- `rsv = cmd[23:17]` (30 R91). -/
def Command.rsv (c : Command) : BitVec 7 := c.cmd.extractLsb' 17 7

/-- `idx = cmd[16:8]` (30 R91). -/
def Command.idx (c : Command) : BitVec 9 := c.cmd.extractLsb' 8 9

/-- `arg = cmd[7:0]` (30 R91). -/
def Command.arg (c : Command) : BitVec 8 := c.cmd.extractLsb' 0 8

/-- The symbol operand `s = idx[7:0] = cmd[15:8]` (30 R97). -/
def Command.sym (c : Command) : Sym := c.cmd.extractLsb' 8 8

/-- The opcode column of 30 R95. -/
def Op.code : Op → BitVec 8
  | .nop => 0x00 | .clr => 0x01 | .csrr => 0x02
  | .acc => 0x10 | .fadd => 0x11 | .frd => 0x12
  | .build => 0x20 | .ndrd => 0x21
  | .gen => 0x30 | .ctrd => 0x31 | .ctld => 0x32
  | .pack => 0x40 | .flush => 0x41
  | .ubeg => 0x50 | .unpk => 0x51 | .ufin => 0x52

/-- All rows of 30 R95, in the table's order. -/
def Op.all : List Op :=
  [.nop, .clr, .csrr, .acc, .fadd, .frd, .build, .ndrd, .gen, .ctrd, .ctld, .pack, .flush, .ubeg, .unpk, .ufin]

/-- The `match` column of 30 R95. -/
def Op.pattern : Op → CmdWord
  | .nop => 0x00000000 | .clr => 0x01000000 | .csrr => 0x02000000
  | .acc => 0x10000000 | .fadd => 0x11000000 | .frd => 0x12000000
  | .build => 0x20000000 | .ndrd => 0x21000000
  | .gen => 0x30000000 | .ctrd => 0x31000000 | .ctld => 0x32000000
  | .pack => 0x40000000 | .flush => 0x41000000
  | .ubeg => 0x50000000 | .unpk => 0x51000000 | .ufin => 0x52000000

/-- The `mask` column of 30 R95. -/
def Op.mask : Op → CmdWord
  | .nop => 0xFFFFFFFF | .clr => 0xFFFFFFFF | .csrr => 0xFFFFFF00
  | .acc => 0xFFFF00FF | .fadd => 0xFFFF00FF | .frd => 0xFFFF00FF
  | .build => 0xFFFFFFFF | .ndrd => 0xFFFE00FF
  | .gen => 0xFFFFFFFF | .ctrd => 0xFFFF00FF | .ctld => 0xFFFF0000
  | .pack => 0xFFFF00FF | .flush => 0xFFFFFFFF
  | .ubeg => 0xFFFFFFFF | .unpk => 0xFFFFFF00 | .ufin => 0xFFFFFF00

/-- The row of 30 R95 with a given opcode; none where the opcode is reserved (30 R98). -/
def Op.ofCode (b : BitVec 8) : Option Op := Op.all.find? (fun o => o.code == b)

/-- The operands of one row, taken from the fields as they stand (30 R97). -/
def Op.operands (o : Op) (c : Command) : Instr :=
  match o with
  | .nop => .nop
  | .clr => .clr
  | .csrr => .csrr c.arg
  | .acc => .acc c.sym
  | .fadd => .fadd c.sym c.wdata
  | .frd => .frd c.sym
  | .build => .build
  | .ndrd => .ndrd c.idx
  | .gen => .gen
  | .ctrd => .ctrd c.sym
  | .ctld => .ctld c.sym c.arg c.wdata
  | .pack => .pack c.sym
  | .flush => .flush
  | .ubeg => .ubeg
  | .unpk => .unpk c.arg
  | .ufin => .ufin c.arg

/-- Decoding, in the order of 30 R105: the row, its mask, its extra constraint. -/
def decode (c : Command) : Except Illegal Instr :=
  match Op.ofCode c.op with
  | none => .error .reservedOpcode
  | some o =>
    if c.cmd &&& o.mask ≠ o.pattern then .error .fieldNotZero
    else if o = .ndrd ∧ c.idx = 511#9 then .error .noSuchNode
    else if o = .csrr ∧ 9 < c.arg.toNat then .error .noSuchCsr
    else .ok (o.operands c)

/-- The row of 30 R95 a command belongs to. -/
def Instr.row : Instr → Op
  | .nop => .nop
  | .clr => .clr
  | .csrr _ => .csrr
  | .acc _ => .acc
  | .fadd _ _ => .fadd
  | .frd _ => .frd
  | .build => .build
  | .ndrd _ => .ndrd
  | .gen => .gen
  | .ctrd _ => .ctrd
  | .ctld _ _ _ => .ctld
  | .pack _ => .pack
  | .flush => .flush
  | .ubeg => .ubeg
  | .unpk _ => .unpk
  | .ufin _ => .ufin

/-- What stands in the `idx` field: a symbol (then `idx[8] = 0`), a handle, or 0 (30 R91, R97). -/
def Instr.idxField : Instr → BitVec 9
  | .nop => 0
  | .clr => 0
  | .csrr _ => 0
  | .acc sym => sym.setWidth 9
  | .fadd sym _ => sym.setWidth 9
  | .frd sym => sym.setWidth 9
  | .build => 0
  | .ndrd h => h
  | .gen => 0
  | .ctrd sym => sym.setWidth 9
  | .ctld sym _ _ => sym.setWidth 9
  | .pack sym => sym.setWidth 9
  | .flush => 0
  | .ubeg => 0
  | .unpk _ => 0
  | .ufin _ => 0

/-- What stands in the `arg` field: a CSR number, a code length, a payload byte, a used-bit count, or 0 (30 R91, R97). -/
def Instr.argField : Instr → BitVec 8
  | .nop => 0
  | .clr => 0
  | .csrr n => n
  | .acc _ => 0
  | .fadd _ _ => 0
  | .frd _ => 0
  | .build => 0
  | .ndrd _ => 0
  | .gen => 0
  | .ctrd _ => 0
  | .ctld _ len _ => len
  | .pack _ => 0
  | .flush => 0
  | .ubeg => 0
  | .unpk b => b
  | .ufin u => u

/-- What stands on `wdata`: used by `FADD` and `CTLD` only (30 R100), 0 elsewhere. -/
def Instr.wdataField : Instr → Data
  | .nop => 0
  | .clr => 0
  | .csrr _ => 0
  | .acc _ => 0
  | .fadd _ c => c
  | .frd _ => 0
  | .build => 0
  | .ndrd _ => 0
  | .gen => 0
  | .ctrd _ => 0
  | .ctld _ _ wdata => wdata
  | .pack _ => 0
  | .flush => 0
  | .ubeg => 0
  | .unpk _ => 0
  | .ufin _ => 0

/-- The opcode of a command, bits 31:24 of its word; what a fault keeps in `ERR.OP` (30 R91, 60 R253). -/
def Instr.op (i : Instr) : BitVec 8 := i.row.code

/-- `cmd = (op << 24) | (idx << 8) | arg`, `rsv = 0` (30 R91). -/
def commandWord (op : BitVec 8) (idx : BitVec 9) (arg : BitVec 8) : CmdWord :=
  (op.setWidth 32 <<< 24) ||| (idx.setWidth 32 <<< 8) ||| arg.setWidth 32

/-- The command that stands for an instruction (30 R91, R95). -/
def encode (i : Instr) : Command :=
  { cmd := commandWord i.op i.idxField i.argField, wdata := i.wdataField }

/-- An instruction's bits as one number, laid out as they stand on the `cmd` port: `cmd` in bits 31..0,
`wdata` in bits 287..32 (30 R90; DESIGN CHOICE, log entry 4). Bits at or above `nbits` are 0. -/
def tableCommand (nbits w : Nat) : Command :=
  { cmd := BitVec.ofNat 32 (w % 2 ^ nbits), wdata := BitVec.ofNat 256 (w % 2 ^ nbits / 2 ^ 32) }

/-- The instruction the decoder reads from a word numbered as the opcode table numbers it. -/
def decodeTableWord (nbits w : Nat) : Option Instr :=
  match decode (tableCommand nbits w) with
  | .ok i => some i
  | .error _ => none

end Sys2Proof
end

