-- ==== Sys2Proof/Machine/State.lean ====
section
/-! DEFINITION. The state of the machine: the block's registers exactly as 10 R20 lists them (`Block`), and
beside them the parameter, the commands offered and the responses given (`State`); with the reset values of 10 R54. -/

namespace Sys2Proof.Machine

/-- The nine phases (10 R21). A model's phase type has exactly nine values (93 I16). -/
inductive Phase where
  /-- after reset or `CLR` -/
  | idle
  /-- frequencies are being accumulated -/
  | count
  /-- `BUILD` is done -/
  | tree
  /-- `GEN` is done -/
  | code
  /-- at least one `PACK` has been executed -/
  | pack
  /-- a code table is being loaded -/
  | load
  /-- bytes are being unpacked -/
  | unpack
  /-- the session has ended normally -/
  | done
  /-- a fault has ended the session -/
  | fault
deriving DecidableEq, Repr

/-- One node of the arena (10 R24). -/
structure Node where
  valid : Bool
  freq : Nat
  left : Handle
  right : Handle
deriving DecidableEq, Repr

/-- What an entry of the arena with `valid = 0` holds (10 R24). -/
def Node.none : Node := { valid := false, freq := 0, left := nilHandle, right := nilHandle }

/-- `ROOT` (10 R26). -/
structure Root where
  valid : Bool
  h : Handle
deriving DecidableEq, Repr

/-- One entry of the code table (10 R28). -/
structure CodeEntry where
  valid : Bool
  len : BitVec 8
  bits : Bits
deriving DecidableEq, Repr

/-- What an entry of the code table with `valid = 0` holds (10 R28). -/
def CodeEntry.none : CodeEntry := { valid := false, len := 0, bits := [] }

/-- The error register `ERR` (10 R36). -/
structure ErrReg where
  kind : BitVec 8
  op : BitVec 8
  ctx : BitVec 9
  phase : BitVec 4
deriving DecidableEq, Repr

/-- The architectural state of one block: exactly the list of 10 R20. -/
structure Block where
  /-- `PHASE` (10 R21) -/
  phase : Phase
  /-- `FREQ[0..255]` (10 R22), counters kept below `2^CNT_W` by the invariant (log entry 6) -/
  freq : Vector Nat 256
  /-- `NODE[0..510]` (10 R24) -/
  node : Vector Node 511
  /-- `ROOT` (10 R26) -/
  root : Root
  /-- `NSYM` (10 R27) -/
  nsym : BitVec 9
  /-- `CT[0..255]` (10 R28) -/
  ct : Vector CodeEntry 256
  /-- `PEND`, oldest bit first (10 R31) -/
  pend : Bits
  /-- `BP_ANY` (10 R32) -/
  bpAny : Bool
  /-- `FINAL_USED` (10 R33) -/
  finalUsed : BitVec 4
  /-- `FU_VALID` (10 R33) -/
  fuValid : Bool
  /-- `PATH` (10 R34) -/
  path : Bits
  /-- `HOLD` (10 R35) -/
  hold : Byte
  /-- `HOLD_VALID` (10 R35) -/
  holdValid : Bool
  /-- `ERR` (10 R36) -/
  err : ErrReg
deriving DecidableEq, Repr

/-- The block after reset, and after `CLR` (10 R54). -/
def Block.reset : Block where
  phase := .idle
  freq := Vector.replicate 256 0
  node := Vector.replicate 511 Node.none
  root := { valid := false, h := nilHandle }
  nsym := 0
  ct := Vector.replicate 256 CodeEntry.none
  pend := []
  bpAny := false
  finalUsed := 0
  fuValid := false
  path := []
  hold := 0
  holdValid := false
  err := { kind := 0, op := 0, ctx := 0, phase := 0 }

/-- The eight fault kinds of the block (60 R241). They are not stops of the model: a command that raises one has a
next state (60 R253). -/
inductive FaultKind where
  | illegalCommand
  | sequenceError
  | countOverflow
  | missingCodeEntry
  | malformedTable
  | truncatedPayload
  | invalidCode
  | badFraming
deriving DecidableEq, Repr

/-- The eleven statuses of a response (30 R94, 93 I15). -/
inductive Status where
  | ok
  | emptyInput
  | aborted
  | fault (k : FaultKind)
deriving DecidableEq, Repr

/-- One response: the fields of the response word (30 R93; `nout` is always `|out|`, 00 R9), `rdata`, and the bytes
emitted by the command, delivered before it (20 R73). -/
structure Response where
  status : Status
  flag : Bool
  val : BitVec 9
  rdata : Data
  out : List Byte
deriving DecidableEq, Repr

/-- Why the MODEL stops with a fault. -/
inductive Fault where
  /-- Raised by `GEN` only: its walk met a handle that names no node, or went deeper than 255 edges, so that the walk of
  42 R170 does not return a code table. No run from reset reaches such an arena (10 R25). Safe: the model stops where the
  spec gives no effect (log entry 7). -/
  | arenaNotATree
deriving DecidableEq, Repr

/-- Why the MODEL refuses. -/
inductive Refusal where
  /-- Raised by an arm of `exec` whose instruction has no meaning yet; no arm is left so. Safe: the model stops. -/
  | notModelled (mnemonic : String)
deriving DecidableEq, Repr

/-- The machine: the block, its parameter (log entry 1), and what stands on its ports (log entry 2). -/
structure State where
  /-- `CNT_W`, fixed for a block (00 R6) -/
  cfg : Config
  /-- the architectural state (10 R20) -/
  blk : Block
  /-- the commands the host has given and the block has not executed, oldest first (20 R72) -/
  cmdq : List Command
  /-- the responses given, oldest first, each with the bytes emitted by its command (30 R92) -/
  rsps : List Response
deriving DecidableEq, Repr

/-- `reset_state(CNT_W)` (70 R280). -/
def State.resetWith (cfg : Config) : State := { cfg := cfg, blk := Block.reset, cmdq := [], rsps := [] }

/-- The machine right after reset, with the default `CNT_W` = 64 (00 R6, 10 R54). -/
def State.reset : State := State.resetWith Config.default

end Sys2Proof.Machine
end

