-- ==== Sys2Proof/Machine/Operands.lean ====
section
/-! DEFINITION. Operand forms: bit sequences, bytes and the 256-bit buses (00 R8, 20 R63 to R67, 30 R97), the numbers
that stand for phases, statuses and fault kinds (10 R21, 30 R94, 60 R241), and the response word (30 R93). -/

namespace Sys2Proof.Machine

/-- A bit sequence read as a numeral, first bit most significant (20 R63). -/
def bitsVal : Bits → Nat
  | [] => 0
  | b :: p => b.toNat * 2 ^ p.length + bitsVal p

/-- `byte(p)` of a bit sequence of length 8: element 0 is bit 7 (00 R8, 20 R63). -/
def byteOf (p : Bits) : Byte := BitVec.ofNat 8 (bitsVal p)

/-- The first `n` bits of a word, most significant first. -/
def msbFirst {w : Nat} (n : Nat) (v : BitVec w) : Bits := (List.range n).map (fun i => v.getMsbD i)

/-- `bits8(B)`: bit 7 first, bit 0 last (00 R8, 20 R64). -/
def bits8 (b : Byte) : Bits := msbFirst 8 b

/-- `p ++ 0^(8 - |p|)`: a short sequence padded on the right with zeros to 8 bits (20 R65). -/
def padTo8 (p : Bits) : Bits := p ++ List.replicate (8 - p.length) false

/-- `left256(p)`: element `p[i]` in bit `255 - i`, every other bit 0 (00 R8, 20 R66). -/
def left256 (p : Bits) : Data := BitVec.ofNat 256 (bitsVal p * 2 ^ (256 - p.length))

/-- The code operand of `CTLD`: `p[i] = wdata[255 - i]` for `i < len` (30 R97). -/
def codeOperand (len : Byte) (wdata : Data) : Bits := msbFirst len.toNat wdata

/-- The stray bits of `CTLD`, `wdata[255 - len : 0] ≠ 0` (42 R177, R178). -/
def strayBits (len : Byte) (wdata : Data) : Bool := wdata.extractLsb' 0 (256 - len.toNat) != 0

/-- The count operand of `FADD`, an unsigned 256-bit integer (30 R97). -/
def countOperand (wdata : Data) : Nat := wdata.toNat

/-- An unsigned number right-aligned on `rdata`, zeros above (20 R67). -/
def right256 (n : Nat) : Data := BitVec.ofNat 256 n

/-- A field placed with its lowest bit at bit `lo` of `rdata` (10 R37 to R46, 41 R163). -/
def fieldAt {w : Nat} (v : BitVec w) (lo : Nat) : Data := v.setWidth 256 <<< lo

/-- The handle of a leaf is its symbol (10 R25); also a symbol as a 9-bit context value (60 R241). -/
def leafHandle (s : Sym) : Handle := s.setWidth 9

/-- A byte as a 9-bit context value (60 R241: `HOLD`, `u`). -/
def byteCtx (b : Byte) : BitVec 9 := b.setWidth 9

/-- A small number as the 9-bit `val` or context (30 R93). -/
def val9 (n : Nat) : BitVec 9 := BitVec.ofNat 9 n

/-- All symbols in ascending order (the order of the loops of 41 R150, 42 R170, 44 R210). -/
def allSyms : List Sym := (List.range 256).map (BitVec.ofNat 8)

/-- The value column of 10 R21. -/
def Phase.num : Phase → BitVec 4
  | .idle => 0 | .count => 1 | .tree => 2 | .code => 3 | .pack => 4 | .load => 5 | .unpack => 6 | .done => 7 | .fault => 8

/-- The code column of 60 R241. -/
def FaultKind.num : FaultKind → BitVec 8
  | .illegalCommand => 0x10
  | .sequenceError => 0x11
  | .countOverflow => 0x12
  | .missingCodeEntry => 0x13
  | .malformedTable => 0x14
  | .truncatedPayload => 0x15
  | .invalidCode => 0x16
  | .badFraming => 0x17

/-- The status codes of 30 R94. -/
def Status.num : Status → BitVec 8
  | .ok => 0x00
  | .emptyInput => 0x01
  | .aborted => 0x0F
  | .fault k => k.num

/-- `nout`, the number of bytes in `out` (30 R93). -/
def Response.nout (r : Response) : BitVec 8 := BitVec.ofNat 8 r.out.length

/-- `rsp = (status << 24) | (nout << 16) | (flag << 15) | val` (30 R93). -/
def Response.word (r : Response) : BitVec 32 :=
  (r.status.num.setWidth 32 <<< 24) ||| (r.nout.setWidth 32 <<< 16) |||
    ((BitVec.ofBool r.flag).setWidth 32 <<< 15) ||| r.val.setWidth 32

/-- The response `respond(OK)`: every field not named is 0 (00 R9, 30 R96). -/
def Response.ok : Response := { status := .ok, flag := false, val := 0, rdata := 0, out := [] }

/-- The response `ABORTED`: `nout`, `flag`, `val` and `rdata` are 0 (60 R250). -/
def Response.aborted : Response := { status := .aborted, flag := false, val := 0, rdata := 0, out := [] }

/-- The response of a fault: its code, its context in `val`, everything else 0 (30 R93, 60 R253). -/
def Response.ofFault (k : FaultKind) (ctx : BitVec 9) : Response :=
  { status := .fault k, flag := false, val := ctx, rdata := 0, out := [] }

end Sys2Proof.Machine
end

