-- ==== Sys2Proof/Machine/Flags.lean ====
section
/-! DEFINITION. The block has no condition codes (10 R48). What this file holds is the flag column of the responses
(30 R96), the one-bit views of the state, and the ten read-only CSRs, each a view of the state (10 R37 to R46). -/

namespace Sys2Proof.Machine

/-- `flag` of `FRD`: the symbol has an entry exactly when its count is not 0 (10 R23, 40 R132). -/
def countFlag (n : Nat) : Bool := n != 0

/-- `STATUS.FAULT`, 1 exactly when `PHASE = FAULT` (10 R39). -/
def Block.faultFlag (b : Block) : Bool := b.phase == .fault

/-- The pin `fault_o`: a level equal to `(PHASE = FAULT)` (60 R251). -/
def State.faultO (s : State) : Bool := s.blk.faultFlag

/-- The bytes delivered on the `out` port so far, in order (20 R62). -/
def State.outStream (s : State) : List Byte := s.rsps.flatMap (fun r => r.out)

/-- The number of symbols with a valid code (10 R43). -/
def codeCount (ct : Vector CodeEntry 256) : Nat := ct.toList.countP (fun e => e.valid)

/-- CSR 0x00 `CONFIG`: `[7:0]` `CNT_W`, `[15:8]` the interface version 1 (10 R38). -/
def csrConfig (c : Config) : Data := fieldAt (BitVec.ofNat 8 c.cntW) 0 ||| fieldAt 1#8 8

/-- CSR 0x01 `STATUS` (10 R39). -/
def csrStatus (b : Block) : Data :=
  fieldAt b.phase.num 0 ||| fieldAt (BitVec.ofBool b.root.valid) 4 ||| fieldAt (BitVec.ofBool b.bpAny) 5 |||
    fieldAt (BitVec.ofBool b.holdValid) 6 ||| fieldAt (BitVec.ofBool b.faultFlag) 7 |||
    fieldAt (BitVec.ofNat 3 b.pend.length) 8 ||| fieldAt (BitVec.ofNat 8 b.path.length) 11 |||
    fieldAt (BitVec.ofBool b.fuValid) 19

/-- CSR 0x02 `ERR` (10 R40). -/
def csrErr (b : Block) : Data :=
  fieldAt b.err.kind 0 ||| fieldAt b.err.op 8 ||| fieldAt b.err.ctx 16 ||| fieldAt b.err.phase 25

/-- CSR 0x03 `NSYM` (10 R41). -/
def csrNsym (b : Block) : Data := fieldAt b.nsym 0

/-- CSR 0x04 `ROOT` (10 R42). -/
def csrRoot (b : Block) : Data := fieldAt b.root.h 0 ||| fieldAt (BitVec.ofBool b.root.valid) 9

/-- CSR 0x05 `NCODE`, computed from `CT` (10 R43). -/
def csrNcode (b : Block) : Data := fieldAt (val9 (codeCount b.ct)) 0

/-- CSR 0x06 `FINAL` (10 R44). -/
def csrFinal (b : Block) : Data := fieldAt b.finalUsed 0 ||| fieldAt (BitVec.ofBool b.fuValid) 4

/-- CSR 0x07 `PEND`: the pending bits left-aligned in a byte, and their number (10 R45). -/
def csrPend (b : Block) : Data := fieldAt (byteOf (padTo8 b.pend)) 0 ||| fieldAt (BitVec.ofNat 3 b.pend.length) 8

/-- CSR 0x08 `HOLD` (10 R46). -/
def csrHold (b : Block) : Data := fieldAt b.hold 0 ||| fieldAt (BitVec.ofBool b.holdValid) 8

/-- CSR 0x09 `PATH`, left-aligned (10 R46). -/
def csrPath (b : Block) : Data := left256 b.path

/-- `CSR[n]` for `n` in 0x00..0x09 (10 R37); other numbers are not CSRs and are never read (30 R99). -/
def csrValue (s : State) (n : Byte) : Data :=
  match n.toNat with
  | 0 => csrConfig s.cfg
  | 1 => csrStatus s.blk
  | 2 => csrErr s.blk
  | 3 => csrNsym s.blk
  | 4 => csrRoot s.blk
  | 5 => csrNcode s.blk
  | 6 => csrFinal s.blk
  | 7 => csrPend s.blk
  | 8 => csrHold s.blk
  | 9 => csrPath s.blk
  | _ => 0

end Sys2Proof.Machine
end

