-- ==== Sys2Proof/Machine/Ops.lean ====
section
/-! DEFINITION. The named operations: register files by index (20 R60, R80), completing a command (00 R9), the fault
entry (60 R253) and, beside it, the one way out of `FAULT` (60 R255), the order in which one command is processed
(30 R106), and taking a command from the `cmd` port (20 R72). -/

namespace Sys2Proof.Machine

/-- Read of the entry of symbol `s` in a file indexed by symbol: `FREQ[s]`, `CT[s]` (20 R60). -/
def symGet {α : Type} (v : Vector α 256) (s : Sym) : α := v[s.toNat]'(by have := s.isLt; omega)

/-- Write of the entry of symbol `s` (20 R80). -/
def symSet {α : Type} (v : Vector α 256) (s : Sym) (x : α) : Vector α 256 := v.set s.toNat x (by have := s.isLt; omega)

/-- Read of `NODE[h]`; 511 names no node and no command reads it (20 R60), so it answers an invalid entry. -/
def nodeGet (a : Vector Node 511) (h : Handle) : Node := if p : h.toNat < 511 then a[h.toNat] else Node.none

/-- Write of `NODE[h]`; 511 names no node (10 R25). -/
def nodeSet (a : Vector Node 511) (h : Handle) (n : Node) : Vector Node 511 :=
  if p : h.toNat < 511 then a.set h.toNat n else a

/-- `FREQ[s]` (10 R22). -/
def Block.freqAt (b : Block) (s : Sym) : Nat := symGet b.freq s

/-- `CT[s]` (10 R28). -/
def Block.ctAt (b : Block) (s : Sym) : CodeEntry := symGet b.ct s

/-- `NODE[h]` (10 R24). -/
def Block.nodeAt (b : Block) (h : Handle) : Node := nodeGet b.node h

/-- A command completes: the block is `b`, the response is `r`, all at once (00 R9, 20 R70, 30 R92). -/
def complete (s : State) (b : Block) (r : Response) : Host.Outcome State Fault Refusal :=
  .next { s with blk := b, rsps := s.rsps ++ [r] }

/-- Fault entry, the one operation every fault goes through (60 R253): `ERR` takes kind, opcode, context and the phase
before, `PHASE` becomes `FAULT`, every other piece of state keeps its value, the response carries code and context. -/
def takeFault (op : BitVec 8) (k : FaultKind) (ctx : BitVec 9) (s : State) : Host.Outcome State Fault Refusal :=
  complete s { s.blk with err := { kind := k.num, op := op, ctx := ctx, phase := s.blk.phase.num }, phase := .fault }
    (Response.ofFault k ctx)

/-- `raise K(ctx)` while command `i` is processed; `ERR.OP` is its bits 31:24 (00 R9, 60 R253). -/
def raise (i : Instr) (k : FaultKind) (ctx : BitVec 9) (s : State) : Host.Outcome State Fault Refusal :=
  takeFault i.op k ctx s

/-- The answer `ABORTED`: the state is unchanged (60 R250). -/
def abort (s : State) : Host.Outcome State Fault Refusal := complete s s.blk Response.aborted

/-- The way out of `FAULT` besides `rst`: every piece of state takes its reset value (45 R232, 60 R255, 70 R281).
There is no return from a fault. -/
def clearSession (s : State) : Host.Outcome State Fault Refusal := complete s Block.reset Response.ok

/-- The commands carried out in `FAULT`: `NOP`, `CLR` and the read commands (30 R106 step 1, 60 R250). -/
def runsInFault : Instr → Bool
  | .nop => true
  | .clr => true
  | .csrr _ => true
  | .acc _ => false
  | .fadd _ _ => false
  | .frd _ => true
  | .build => false
  | .ndrd _ => true
  | .gen => false
  | .ctrd _ => true
  | .ctld _ _ _ => false
  | .pack _ => false
  | .flush => false
  | .ubeg => false
  | .unpk _ => false
  | .ufin _ => false

/-- The "legal in" column of the transition table of 10 R47. -/
def legalIn : Instr → Phase → Bool
  | .nop, _ => true
  | .clr, _ => true
  | .csrr _, _ => true
  | .acc _, p => p == .idle || p == .count
  | .fadd _ _, p => p == .idle || p == .count
  | .frd _, _ => true
  | .build, p => p == .idle || p == .count
  | .ndrd _, _ => true
  | .gen, p => p == .tree
  | .ctrd _, _ => true
  | .ctld _ _ _, p => p == .idle || p == .load
  | .pack _, p => p == .code || p == .pack
  | .flush, p => p == .code || p == .pack
  | .ubeg, p => p == .idle || p == .load
  | .unpk _, p => p == .unpack
  | .ufin _, p => p == .unpack

/-- A word that is no command: `ABORTED` in `FAULT`, else `ILLEGAL_COMMAND` with the `idx` field as context
(30 R106 steps 1 and 2, R99, 60 R242). -/
def takeIllegal (op : BitVec 8) (idx : BitVec 9) (s : State) : Host.Outcome State Fault Refusal :=
  if s.blk.phase = .fault then abort s else takeFault op .illegalCommand idx s

/-- The order in which one command is processed (30 R106), `body` being step 4. An `Instr` that is no well-formed command
is answered as its word is (DEDUCED, log entry 8). -/
def process (i : Instr) (s : State) (body : Host.Outcome State Fault Refusal) : Host.Outcome State Fault Refusal :=
  if i.wellFormed = false then takeIllegal i.op i.idxField s
  else if s.blk.phase = .fault ∧ runsInFault i = false then abort s
  else if legalIn i s.blk.phase = false then raise i .sequenceError 0 s
  else body

/-- The command the block executes next, with the machine after it has been taken from the `cmd` port (20 R72);
none where the host has given none. -/
def nextCommand (s : State) : Option (Command × State) :=
  match s.cmdq with
  | [] => none
  | c :: rest => some (c, { s with cmdq := rest })

/-- A block that receives no command does nothing and keeps its state (60 R263; DEDUCED, log entry 5). -/
def idleStep (s : State) : Host.Outcome State Fault Refusal := .next s

/-- A command put where the block takes its next one (DESIGN CHOICE, log entry 3). -/
def offerFirst (s : State) (c : Command) : State := { s with cmdq := c :: s.cmdq }

end Sys2Proof.Machine
end

