-- ==== Sys2Proof/Machine/CodeTable.lean ====
section
/-! DEFINITION. The code table generator: `GEN`, `CTRD`, `CTLD` (spec/42_codetable.md). -/

namespace Sys2Proof.Machine

/-- A valid entry with code `p` (42 R170, R177). -/
def codeEntry (p : Bits) : CodeEntry := { valid := true, len := BitVec.ofNat 8 p.length, bits := p }

/-- The code table with every entry invalid (42 R170 first line, R173). -/
def emptyTable : Vector CodeEntry 256 := Vector.replicate 256 CodeEntry.none

/-- The depth-first walk of 42 R170, R171: `"0"` appended going left, `"1"` going right, the path recorded at a leaf.
`n` bounds the depth below `h`; nothing is returned where the walk meets `NIL` or runs out of it (log entry 7). -/
def walk (a : Vector Node 511) : Nat → Handle → Bits → Vector CodeEntry 256 → Option (Vector CodeEntry 256)
  | n, h, p, ct =>
    if h.toNat < 256 then some (symSet ct (h.setWidth 8) (codeEntry p))
    else if h = nilHandle then none
    else match n with
      | 0 => none
      | m + 1 => (walk a m (nodeGet a h).left (p ++ [false]) ct).bind (walk a m (nodeGet a h).right (p ++ [true]))

/-- The table `GEN` writes: empty for the empty tree (42 R173), `"0"` for a single leaf (42 R172), else by the walk from
the root; codes have at most `CODE_MAX` = 255 bits (42 R175). -/
def genTable (b : Block) : Option (Vector CodeEntry 256) :=
  if b.root.valid = false then some emptyTable
  else if b.root.h.toNat < 256 then some (symSet emptyTable (b.root.h.setWidth 8) (codeEntry [false]))
  else walk b.node 255 b.root.h [] emptyTable

/-- `GEN` derives the code table from the tree (42 R170). -/
def execGen (s : State) : Host.Outcome State Fault Refusal :=
  process .gen s (match genTable s.blk with
    | none => .fault .arenaNotATree
    | some ct => complete s { s.blk with ct := ct, phase := .code } { Response.ok with val := val9 (codeCount ct) })

/-- `CTRD s` returns `CT[s]` (42 R176). -/
def execCtrd (sym : Sym) (s : State) : Host.Outcome State Fault Refusal :=
  process (.ctrd sym) s (complete s s.blk
    { Response.ok with flag := (s.blk.ctAt sym).valid, val := (s.blk.ctAt sym).len.setWidth 9, rdata := left256 (s.blk.ctAt sym).bits })

/-- `CTLD s, "p"` writes the code `p` into `CT[s]` (42 R177); what it rejects is 42 R178, in the order of 60 R252. -/
def execCtld (sym : Sym) (len : Byte) (wdata : Data) (s : State) : Host.Outcome State Fault Refusal :=
  process (.ctld sym len wdata) s (
    if len = 0 then raise (.ctld sym len wdata) .malformedTable (leafHandle sym) s
    else if (s.blk.ctAt sym).valid = true then raise (.ctld sym len wdata) .malformedTable (leafHandle sym) s
    else if strayBits len wdata = true then raise (.ctld sym len wdata) .malformedTable (leafHandle sym) s
    else complete s
      { s.blk with ct := symSet s.blk.ct sym { valid := true, len := len, bits := codeOperand len wdata }, phase := .load }
      Response.ok)

end Sys2Proof.Machine
end

