-- ==== Sys2Proof/Machine/Frequency.lean ====
section
/-! DEFINITION. The streaming frequency accumulator: `ACC`, `FADD`, `FRD` (spec/40_frequency.md). -/

namespace Sys2Proof.Machine

/-- An addition to a counter: the exact sum, or nothing where it is `2^CNT_W` or more (40 R135). A counter never wraps
and never saturates. -/
def addCount (c : Config) (old add : Nat) : Option Nat := if old + add < 2 ^ c.cntW then some (old + add) else none

/-- `FREQ[s] <- FREQ[s] + n; PHASE <- COUNT; respond(OK)`, or `COUNT_OVERFLOW(s)` (40 R130, R131, 60 R244). -/
def countUp (i : Instr) (sym : Sym) (n : Nat) (s : State) : Host.Outcome State Fault Refusal :=
  match addCount s.cfg (s.blk.freqAt sym) n with
  | none => raise i .countOverflow (leafHandle sym) s
  | some v => complete s { s.blk with freq := symSet s.blk.freq sym v, phase := .count } Response.ok

/-- `ACC s` counts one occurrence of `s` (40 R130). -/
def execAcc (sym : Sym) (s : State) : Host.Outcome State Fault Refusal :=
  process (.acc sym) s (countUp (.acc sym) sym 1 s)

/-- `FADD s, c` adds the count `c` (40 R131). -/
def execFadd (sym : Sym) (c : Data) (s : State) : Host.Outcome State Fault Refusal :=
  process (.fadd sym c) s (countUp (.fadd sym c) sym (countOperand c) s)

/-- `FRD s` returns `FREQ[s]` (40 R132). -/
def execFrd (sym : Sym) (s : State) : Host.Outcome State Fault Refusal :=
  process (.frd sym) s (complete s s.blk
    { Response.ok with flag := countFlag (s.blk.freqAt sym), rdata := right256 (s.blk.freqAt sym) })

end Sys2Proof.Machine
end

