-- ==== Sys2Proof/Machine/Packer.lean ====
section
/-! DEFINITION. The variable-length bit packer: `PACK`, `FLUSH` (spec/43_packer.md). -/

namespace Sys2Proof.Machine

/-- The loop `while |w| ≥ 8` of 43 R190: remove exactly the first 8 bits, emit them as one byte (43 R191); each turn
shortens `w`, so `|w|` turns are enough (DEDUCED, log entry 10). -/
def drainLoop : Nat → Bits → List Byte × Bits
  | n + 1, w =>
    if 8 ≤ w.length then ((byteOf (w.take 8) :: (drainLoop n (w.drop 8)).1), (drainLoop n (w.drop 8)).2) else ([], w)
  | 0, w => ([], w)

/-- The bytes completed by the sequence `w`, and what stays pending (43 R190, R197). -/
def drain (w : Bits) : List Byte × Bits := drainLoop w.length w

/-- `PACK s` appends the code of `s` and emits every full byte (43 R190); `MISSING_CODE_ENTRY` where it has none (43 R192). -/
def execPack (sym : Sym) (s : State) : Host.Outcome State Fault Refusal :=
  process (.pack sym) s (
    if (s.blk.ctAt sym).valid = false then raise (.pack sym) .missingCodeEntry (leafHandle sym) s
    else
      let r := drain (s.blk.pend ++ (s.blk.ctAt sym).bits)
      complete s { s.blk with pend := r.2, bpAny := s.blk.bpAny || !r.1.isEmpty, phase := .pack }
        { Response.ok with val := val9 r.2.length, out := r.1 })

/-- `FINAL_USED`: the used bits of the last payload byte, 0 where there is none (43 R193, R194). -/
def finalUsedOf (b : Block) : BitVec 4 :=
  if 0 < b.pend.length then BitVec.ofNat 4 b.pend.length else if b.bpAny then 8 else 0

/-- The byte `FLUSH` emits: the pending bits padded with zeros, nothing where there are none (43 R193, R194). -/
def flushBytes (b : Block) : List Byte := if 0 < b.pend.length then [byteOf (padTo8 b.pend)] else []

/-- `FLUSH` ends the payload (43 R193). -/
def execFlush (s : State) : Host.Outcome State Fault Refusal :=
  process .flush s (complete s
    { s.blk with pend := [], bpAny := s.blk.bpAny || decide (0 < s.blk.pend.length), finalUsed := finalUsedOf s.blk,
                 fuValid := true, phase := .done }
    { Response.ok with val := (finalUsedOf s.blk).setWidth 9, out := flushBytes s.blk })

end Sys2Proof.Machine
end

