-- ==== Sys2Proof/Machine/System.lean ====
section
/-! DEFINITION. The system commands `NOP`, `CLR`, `CSRR` (spec/45_system.md). -/

namespace Sys2Proof.Machine

/-- `NOP` does nothing (45 R231). -/
def execNop (s : State) : Host.Outcome State Fault Refusal := process .nop s (complete s s.blk Response.ok)

/-- `CLR` puts every piece of state at its reset value (45 R232). -/
def execClr (s : State) : Host.Outcome State Fault Refusal := process .clr s (clearSession s)

/-- `CSRR n` reads control and status register `n` (45 R233). -/
def execCsrr (n : Byte) (s : State) : Host.Outcome State Fault Refusal :=
  process (.csrr n) s (complete s s.blk { Response.ok with rdata := csrValue s n })

end Sys2Proof.Machine
end

