-- ==== Sys2Proof/Machine/Tree.lean ====
section
/-! DEFINITION. The tree builder: `BUILD`, `NDRD` (spec/41_tree.md). -/

namespace Sys2Proof.Machine

/-- `L`: the symbols with an entry, in ascending order (41 R150, R151, 10 R23). -/
def leafList (freq : Vector Nat 256) : List Sym := allSyms.filter (fun s => symGet freq s != 0)

/-- The leaf of a symbol: its count, no children (41 R151). -/
def leafNode (f : Nat) : Node := { valid := true, freq := f, left := nilHandle, right := nilHandle }

/-- The arena with every entry invalid but the leaves of `l` (41 R150 first and third line). -/
def plantLeaves (freq : Vector Nat 256) (l : List Sym) : Vector Node 511 :=
  l.foldl (fun a s => nodeSet a (leafHandle s) (leafNode (symGet freq s))) (Vector.replicate 511 Node.none)

/-- Insertion into the sorted sequence behind every element whose frequency is less than or equal (41 R154). -/
def insertNode (a : Vector Node 511) (q : List Handle) (h : Handle) : List Handle :=
  let k := q.countP (fun x => decide ((nodeGet a x).freq ≤ (nodeGet a h).freq))
  q.take k ++ h :: q.drop k

/-- `Q` at the start: the leaves ascending by frequency, equal ones ascending by symbol (41 R152): each leaf, taken in
ascending symbol order, goes behind its equals. -/
def initialQueue (a : Vector Node 511) (l : List Sym) : List Handle :=
  (l.map leafHandle).foldl (insertNode a) []

/-- The new internal node of one combination step: first removed left, second removed right, frequency the exact sum
(41 R153, R159). -/
def joinNode (a : Vector Node 511) (x y : Handle) : Node :=
  { valid := true, freq := (nodeGet a x).freq + (nodeGet a y).freq, left := x, right := y }

/-- The loop `while |Q| ≥ 2` of 41 R150 (R153 to R155, R158); each turn shortens `Q` by one, so `|Q|` turns are enough
(DEDUCED, log entry 10). -/
def combine : Nat → Vector Node 511 → Handle → List Handle → Vector Node 511 × List Handle
  | n + 1, a, next, x :: y :: q =>
    let a' := nodeSet a next (joinNode a x y)
    combine n a' (next + 1) (insertNode a' q next)
  | _, a, _, q => (a, q)

/-- `ROOT` from what is left of `Q` (41 R155, R157). -/
def rootOf : List Handle → Root
  | [] => { valid := false, h := nilHandle }
  | h :: _ => { valid := true, h := h }

/-- What `BUILD` makes of the block: `NODE`, `ROOT`, `NSYM` and `PHASE`, from `FREQ` alone (41 R150, R164). -/
def buildBlock (b : Block) : Block :=
  let l := leafList b.freq
  let a := plantLeaves b.freq l
  let r := combine l.length a 256#9 (initialQueue a l)
  { b with node := r.1, root := rootOf r.2, nsym := val9 l.length, phase := .tree }

/-- The response of `BUILD`: `EMPTY_INPUT` where the table has no entry, which is not a fault (41 R157, 60 R250). -/
def buildResponse (b : Block) : Response :=
  if b.root.valid then { Response.ok with flag := true, val := b.nsym } else { Response.ok with status := .emptyInput }

/-- `BUILD` constructs the tree (41 R150). -/
def execBuild (s : State) : Host.Outcome State Fault Refusal :=
  process .build s (complete s (buildBlock s.blk) (buildResponse (buildBlock s.blk)))

/-- The `rdata` of `NDRD`: `[135:0] freq`, `[152:144] right`, `[168:160] left`, `[176] valid` (41 R163, 30 R96). -/
def nodeData (n : Node) : Data :=
  fieldAt (BitVec.ofBool n.valid) 176 ||| fieldAt n.left 160 ||| fieldAt n.right 144 ||| fieldAt (BitVec.ofNat 136 n.freq) 0

/-- `NDRD h` returns `NODE[h]` (41 R163). -/
def execNdrd (h : Handle) (s : State) : Host.Outcome State Fault Refusal :=
  process (.ndrd h) s (complete s s.blk
    { Response.ok with flag := (s.blk.nodeAt h).valid, rdata := nodeData (s.blk.nodeAt h) })

end Sys2Proof.Machine
end

