-- ==== Sys2Proof/Machine/Unpacker.lean ====
section
/-! DEFINITION. The variable-length bit unpacker with padding framing: `UBEG`, `UNPK`, `UFIN` (spec/44_unpacker.md). -/

namespace Sys2Proof.Machine

/-- `s` is valid and its code is a prefix of, or equal to, the code of another valid symbol (44 R211, 00 R8). -/
def offends (ct : Vector CodeEntry 256) (s : Sym) : Bool :=
  (symGet ct s).valid && allSyms.any (fun t =>
    t != s && (symGet ct t).valid && (symGet ct s).bits.isPrefixOf (symGet ct t).bits)

/-- The smallest symbol whose code is a prefix of another's (44 R211); none where the table is prefix-free. -/
def offender (ct : Vector CodeEntry 256) : Option Sym := allSyms.find? (offends ct)

/-- `UBEG` checks the table and puts the unpacker at the root (44 R210). -/
def execUbeg (s : State) : Host.Outcome State Fault Refusal :=
  process .ubeg s (match offender s.blk.ct with
    | some t => raise .ubeg .malformedTable (leafHandle t) s
    | none => complete s { s.blk with path := [], hold := 0, holdValid := false, phase := .unpack }
        { Response.ok with val := val9 (codeCount s.blk.ct) })

/-- The valid symbol whose code is `p`: a leaf of the decode tree (44 R213). In a table that is not prefix-free, which no
unpacking session has, the smallest one (DEDUCED, log entry 11). -/
def leafAt (ct : Vector CodeEntry 256) (p : Bits) : Option Sym :=
  allSyms.find? (fun s => (symGet ct s).valid && (symGet ct s).bits == p)

/-- `p` is a prefix of some valid code: a position in the decode tree (44 R213). -/
def onPath (ct : Vector CodeEntry 256) (p : Bits) : Bool :=
  allSyms.any (fun s => (symGet ct s).valid && p.isPrefixOf (symGet ct s).bits)

/-- `decode_bits(p, q, c)` of 44 R213, over the table `ct`: the new position and the symbols completed, or none where a bit
leads to no node (`INVALID_CODE`). -/
def decodeBits (ct : Vector CodeEntry 256) : Bits → Bits → Option (Bits × List Byte)
  | p, [] => some (p, [])
  | p, b :: q =>
    match leafAt ct (p ++ [b]) with
    | some s => (decodeBits ct [] q).map (fun r => (r.1, s :: r.2))
    | none => if onPath ct (p ++ [b]) then decodeBits ct (p ++ [b]) q else none

/-- The end of `UNPK`: hold `B` back and answer (44 R212, R214). -/
def holdByte (b : Byte) (path : Bits) (out : List Byte) (s : State) : Host.Outcome State Fault Refusal :=
  complete s { s.blk with path := path, hold := b, holdValid := true } { Response.ok with val := val9 path.length, out := out }

/-- `UNPK B` decodes the byte held back before, then holds `B` back (44 R212). -/
def execUnpk (b : Byte) (s : State) : Host.Outcome State Fault Refusal :=
  process (.unpk b) s (
    if s.blk.holdValid = true then
      match decodeBits s.blk.ct s.blk.path (bits8 s.blk.hold) with
      | none => raise (.unpk b) .invalidCode (byteCtx s.blk.hold) s
      | some (p, o) => holdByte b p o s
    else holdByte b s.blk.path [] s)

/-- The end of `UFIN`: back to the root, nothing held, the session done (44 R215). -/
def finishUnpack (out : List Byte) (s : State) : Host.Outcome State Fault Refusal :=
  complete s { s.blk with path := [], hold := 0, holdValid := false, phase := .done } { Response.ok with out := out }

/-- `UFIN u` decodes the first `u` bits of the last byte and ends the payload; its checks in the order of 44 R215, R216.
The padding is not read (44 R217). -/
def execUfin (u : Byte) (s : State) : Host.Outcome State Fault Refusal :=
  process (.ufin u) s (
    if s.blk.holdValid = false then
      if u ≠ 0 then raise (.ufin u) .badFraming (byteCtx u) s else finishUnpack [] s
    else if u = 0 ∨ 8 < u.toNat then raise (.ufin u) .badFraming (byteCtx u) s
    else match decodeBits s.blk.ct s.blk.path ((bits8 s.blk.hold).take u.toNat) with
      | none => raise (.ufin u) .invalidCode (byteCtx s.blk.hold) s
      | some (p, o) =>
        if p ≠ [] then raise (.ufin u) .truncatedPayload (val9 p.length) s else finishUnpack o s)

end Sys2Proof.Machine
end

