-- ==== Sys2Proof/Machine/Dispatch.lean ====
section
/-! DEFINITION. One arm per command of the opcode table (30 R95), each one call of its meaning. -/

namespace Sys2Proof.Machine

def exec (i : Instr) (s : State) : Host.Outcome State Fault Refusal :=
  match i with
  | .nop => Sys2Proof.Machine.execNop s
  | .clr => Sys2Proof.Machine.execClr s
  | .csrr n => Sys2Proof.Machine.execCsrr n s
  | .acc sym => Sys2Proof.Machine.execAcc sym s
  | .fadd sym c => Sys2Proof.Machine.execFadd sym c s
  | .frd sym => Sys2Proof.Machine.execFrd sym s
  | .build => Sys2Proof.Machine.execBuild s
  | .ndrd h => Sys2Proof.Machine.execNdrd h s
  | .gen => Sys2Proof.Machine.execGen s
  | .ctrd sym => Sys2Proof.Machine.execCtrd sym s
  | .ctld sym len wdata => Sys2Proof.Machine.execCtld sym len wdata s
  | .pack sym => Sys2Proof.Machine.execPack sym s
  | .flush => Sys2Proof.Machine.execFlush s
  | .ubeg => Sys2Proof.Machine.execUbeg s
  | .unpk b => Sys2Proof.Machine.execUnpk b s
  | .ufin u => Sys2Proof.Machine.execUfin u s

end Sys2Proof.Machine
end

