-- ==== Sys2Proof/Machine/Step.lean ====
section
/-! DEFINITION. One step: take the next command from the `cmd` port, decode it and carry it out (00 R5, 30 R106). -/

namespace Sys2Proof.Machine

/-- One step of the machine (30 R106): with no command given the block keeps its state (60 R263); a word that decodes is
executed; any other word is illegal. -/
def step (s : State) : Host.Outcome State Fault Refusal :=
  match nextCommand s with
  | none => idleStep s
  | some (c, s') =>
    match decode c with
    | .ok i => exec i s'
    | .error _ => takeIllegal c.op c.idx s'

/-- `s` with one command put first on the `cmd` port, so that the very next step executes it (log entry 3). -/
def State.withFetchWord (s : State) (nbits w : Nat) : State := offerFirst s (tableCommand nbits w)

end Sys2Proof.Machine
end

