-- ==== Sys2Proof/Safety.lean ====
section
/-! DEFINITION. The terms in which claims are stated: what an answer is, what a cleared block is, the decode tree and the
walk as relations (independent of how the model computes them), and the invariant of the machine. -/

namespace Sys2Proof.Machine

/-- Command `i` completes: it answers a next state `t` whose ports and parameter are those of `s` but for one response more,
with the given status, `flag`, `val`, `rdata` and emitted bytes (30 R92, R93). What it did to the block is `t.blk`. -/
def Answers (i : Instr) (s t : State) (status : Status) (flag : Bool) (val : BitVec 9) (rdata : Data) (out : List Byte) : Prop :=
  exec i s = .next t ∧ t.cfg = s.cfg ∧ t.cmdq = s.cmdq ∧
    t.rsps = s.rsps ++ [{ status := status, flag := flag, val := val, rdata := rdata, out := out }]

/-- Command `i` is answered with `OK`, every other response field 0, nothing emitted (30 R96 first row). -/
abbrev AnswersOk (i : Instr) (s t : State) : Prop := Answers i s t .ok false 0 0 []

/-- Command `i`, of opcode `op`, raises fault kind `k`, of code `code`, with context `ctx`: everything of 60 R253. -/
def Faults (i : Instr) (op : BitVec 8) (k : FaultKind) (code : BitVec 8) (ctx : BitVec 9) (s : State) : Prop :=
  k.num = code ∧ ∃ t, Answers i s t (.fault k) false ctx 0 [] ∧
    t.blk = { s.blk with err := { kind := code, op := op, ctx := ctx, phase := s.blk.phase.num }, phase := .fault }

/-- Command `i` is answered `ABORTED` and changes nothing in the block (60 R250). -/
def Aborts (i : Instr) (s : State) : Prop := ∃ t, Answers i s t .aborted false 0 0 [] ∧ t.blk = s.blk

/-- Command `i` out of sequence: `SEQUENCE_ERROR` with context 0 (60 R243). -/
abbrev OutOfSequence (i : Instr) (op : BitVec 8) (s : State) : Prop := Faults i op .sequenceError 0x11 0 s

/-- Every field at the reset value of 10 R54. -/
structure Cleared (b : Block) : Prop where
  phase : b.phase = .idle
  freq : ∀ s, b.freqAt s = 0
  node : ∀ h, b.nodeAt h = { valid := false, freq := 0, left := 511#9, right := 511#9 }
  root : b.root = { valid := false, h := 511#9 }
  nsym : b.nsym = 0
  ct : ∀ s, b.ctAt s = { valid := false, len := 0, bits := [] }
  pend : b.pend = []
  bpAny : b.bpAny = false
  finalUsed : b.finalUsed = 0
  fuValid : b.fuValid = false
  path : b.path = []
  hold : b.hold = 0
  holdValid : b.holdValid = false
  err : b.err = { kind := 0, op := 0, ctx := 0, phase := 0 }

/-- No code is a prefix of, or equal to, the code of another symbol (10 R30, 00 R8). -/
def PrefixFree (ct : Vector CodeEntry 256) : Prop :=
  ∀ s t : Sym, s ≠ t → (symGet ct s).valid = true → (symGet ct t).valid = true → ¬ (symGet ct s).bits <+: (symGet ct t).bits

/-- `Leads a h p h'`: from node `h` the branches `p` ("0" left, "1" right) lead to node `h'` (42 R171). Only internal nodes
(handles 256..510) have branches (10 R25). -/
inductive Leads (a : Vector Node 511) : Handle → Bits → Handle → Prop
  | here (h : Handle) : Leads a h [] h
  | left {h h' : Handle} {p : Bits} : 256 ≤ h.toNat → h ≠ 511#9 → Leads a (nodeGet a h).left p h' → Leads a h (false :: p) h'
  | right {h h' : Handle} {p : Bits} : 256 ≤ h.toNat → h ≠ 511#9 → Leads a (nodeGet a h).right p h' → Leads a h (true :: p) h'

/-- `Decodes ct p q p' o`: `decode_bits` of 44 R213 from position `p` over the bits `q` ends at position `p'` with the
symbols `o`; no run of it exists where a bit leads to no node. -/
inductive Decodes (ct : Vector CodeEntry 256) : Bits → Bits → Bits → List Byte → Prop
  | stop (p : Bits) : Decodes ct p [] p []
  | leaf {p q p' : Bits} {b : Bool} {s : Sym} {o : List Byte} :
      (symGet ct s).valid = true → (symGet ct s).bits = p ++ [b] → Decodes ct [] q p' o → Decodes ct p (b :: q) p' (s :: o)
  | inner {p q p' : Bits} {b : Bool} {s : Sym} {o : List Byte} :
      (∀ t, (symGet ct t).valid = true → (symGet ct t).bits ≠ p ++ [b]) →
      (symGet ct s).valid = true → (p ++ [b]) <+: (symGet ct s).bits →
      Decodes ct (p ++ [b]) q p' o → Decodes ct p (b :: q) p' o

/-- What each phase leaves at its reset value, and which registers a session of that phase has written (10 R47: an encode
and a decode session never join; R31, R33, R35, R36). -/
def SessionShape (b : Block) : Prop :=
  match b.phase with
  | .idle => b = Block.reset
  | .count => b = { Block.reset with phase := .count, freq := b.freq }
  | .tree => b = { Block.reset with phase := .tree, freq := b.freq, node := b.node, root := b.root, nsym := b.nsym }
  | .code => b = { Block.reset with phase := .code, freq := b.freq, node := b.node, root := b.root, nsym := b.nsym, ct := b.ct }
  | .pack => b = { Block.reset with phase := .pack, freq := b.freq, node := b.node, root := b.root, nsym := b.nsym, ct := b.ct,
                                    pend := b.pend, bpAny := b.bpAny }
  | .load => b = { Block.reset with phase := .load, ct := b.ct }
  | .unpack => b = { Block.reset with phase := .unpack, ct := b.ct, path := b.path, hold := b.hold, holdValid := b.holdValid }
  | .done => b = { Block.reset with phase := .done, freq := b.freq, node := b.node, root := b.root, nsym := b.nsym, ct := b.ct,
                                    bpAny := b.bpAny, finalUsed := b.finalUsed, fuValid := true } ∨
             b = { Block.reset with phase := .done, ct := b.ct }
  | .fault => False

/-- The arena is a forest of nodes (10 R24, R25, 41 R158): an invalid entry reads as 0 and `NIL`; a leaf has no children; an
internal node has two valid children with smaller handles, and the sum of their frequencies. -/
structure ArenaOk (a : Vector Node 511) : Prop where
  invalid : ∀ h, (nodeGet a h).valid = false → nodeGet a h = { valid := false, freq := 0, left := 511#9, right := 511#9 }
  leaf : ∀ s : Sym, (nodeGet a (s.setWidth 9)).valid = true →
    (nodeGet a (s.setWidth 9)).left = 511#9 ∧ (nodeGet a (s.setWidth 9)).right = 511#9
  internal : ∀ h : Handle, 256 ≤ h.toNat → (nodeGet a h).valid = true →
    (nodeGet a h).left.toNat < h.toNat ∧ (nodeGet a h).right.toNat < h.toNat ∧
    (nodeGet a (nodeGet a h).left).valid = true ∧ (nodeGet a (nodeGet a h).right).valid = true ∧
    (nodeGet a h).freq = (nodeGet a (nodeGet a h).left).freq + (nodeGet a (nodeGet a h).right).freq

/-- `ROOT` names a valid node when it is valid, `NIL` when not (10 R26). -/
def RootOk (b : Block) : Prop :=
  (b.root.valid = false → b.root.h = 511#9) ∧ (b.root.valid = true → (b.nodeAt b.root.h).valid = true)

/-- Every entry of `CT` is either empty, or a code of 1 to 255 bits whose length is `len` (10 R28, R29). -/
def TableOk (ct : Vector CodeEntry 256) : Prop :=
  ∀ s : Sym, ((symGet ct s).valid = false → symGet ct s = { valid := false, len := 0, bits := [] }) ∧
    ((symGet ct s).valid = true → 1 ≤ (symGet ct s).len.toNat ∧ (symGet ct s).bits.length = (symGet ct s).len.toNat)

/-- The unpacker's position: the root, or a proper prefix of a valid code (10 R34). -/
def PathOk (b : Block) : Prop :=
  b.path = [] ∨ ∃ s : Sym, (b.ctAt s).valid = true ∧ b.path <+: (b.ctAt s).bits ∧ b.path ≠ (b.ctAt s).bits

/-- The invariant of a block that has not faulted. -/
structure LiveInv (c : Config) (b : Block) : Prop where
  counters : ∀ s, b.freqAt s < 2 ^ c.cntW
  widths : ∀ h, (b.nodeAt h).freq < 2 ^ (c.cntW + 8)
  arena : ArenaOk b.node
  root : RootOk b
  nsym : b.nsym.toNat ≤ 256
  table : TableOk b.ct
  codes : b.phase = .code ∨ b.phase = .pack ∨ b.phase = .unpack ∨ b.phase = .done → PrefixFree b.ct
  pend : b.pend.length ≤ 7
  finalUsed : b.finalUsed.toNat ≤ 8
  path : PathOk b
  hold : b.holdValid = false → b.hold = 0 ∧ b.path = []
  shape : SessionShape b

/-- The block's invariant: it has not faulted and meets `LiveInv`, or it has, and but for `ERR` and `PHASE` it is a block
that met `LiveInv` in the phase `ERR.PHASE` records (60 R253, R254, R255). -/
def Block.Inv (c : Config) (b : Block) : Prop :=
  LiveInv c b ∨ b.phase = .fault ∧ ∃ (p : Phase) (k : FaultKind),
    LiveInv c { b with phase := p, err := { kind := 0, op := 0, ctx := 0, phase := 0 } } ∧
    b.err.phase = p.num ∧ b.err.kind = k.num

/-- The machine's invariant: a legal `CNT_W` and the block's invariant. -/
def State.Inv (s : State) : Prop := s.cfg.wf ∧ s.blk.Inv s.cfg

/-- The commands `is`, executed one after the other; nothing where one of them does not answer a next state. -/
def execAll : List Instr → State → Option State
  | [], s => some s
  | i :: is, s =>
    match exec i s with
    | .next t => execAll is t
    | .fault _ => none
    | .refused _ => none

/-- `s` has a valid code that is a prefix of, or equal to, the code of another valid symbol (44 R211). -/
def Offends (ct : Vector CodeEntry 256) (s : Sym) : Prop :=
  (symGet ct s).valid = true ∧ ∃ t : Sym, t ≠ s ∧ (symGet ct t).valid = true ∧ (symGet ct s).bits <+: (symGet ct t).bits

/-- The number of symbols with an entry in the frequency table (10 R23, R27). -/
def entries (b : Block) : Nat := (List.range 256).countP (fun k => b.freqAt (BitVec.ofNat 8 k) != 0)

/-- The order of leaves: by count, equal counts by symbol (41 R152). -/
def LeafBefore (b : Block) (x y : Sym) : Prop :=
  b.freqAt x < b.freqAt y ∨ b.freqAt x = b.freqAt y ∧ x.toNat < y.toNat

/-- `Combines a next q a' r`: from the arena `a`, the next free handle `next` and the sorted sequence `q`, the combination
steps of 41 R153 and R154 end with the arena `a'` and the root `r`. One step makes node `next` of the first two elements, the
first left and the second right, its frequency their sum, and puts it behind the elements of less or equal frequency and
before those of greater; no other node changes. -/
inductive Combines : Vector Node 511 → Handle → List Handle → Vector Node 511 → Handle → Prop
  | last (a : Vector Node 511) (next r : Handle) : Combines a next [r] a r
  | join {a b a' : Vector Node 511} {next x y r : Handle} {q : List Handle} {f : Nat} :
      f = (nodeGet a x).freq + (nodeGet a y).freq →
      (∀ h, nodeGet b h = if h = next then { valid := true, freq := f, left := x, right := y } else nodeGet a h) →
      Combines b (next + 1)
        (q.filter (fun z => decide ((nodeGet a z).freq ≤ f)) ++ [next] ++ q.filter (fun z => decide (f < (nodeGet a z).freq))) a' r →
      Combines a next (x :: y :: q) a' r

/-- The transition table of 10 R47, as claims read it: the phases in which a command is legal. -/
def legalPhases : Instr → List Phase
  | .nop | .clr | .csrr _ | .frd _ | .ndrd _ | .ctrd _ => [.idle, .count, .tree, .code, .pack, .load, .unpack, .done, .fault]
  | .acc _ | .fadd _ _ | .build => [.idle, .count]
  | .gen => [.tree]
  | .pack _ | .flush => [.code, .pack]
  | .ctld _ _ _ | .ubeg => [.idle, .load]
  | .unpk _ | .ufin _ => [.unpack]

/-- The transition table of 10 R47, as claims read it: `PHASE` after a command that did not fault, from phase `p`. -/
def phaseAfter : Instr → Phase → Phase
  | .nop, p | .csrr _, p | .frd _, p | .ndrd _, p | .ctrd _, p => p
  | .clr, _ => .idle
  | .acc _, _ | .fadd _ _, _ => .count
  | .build, _ => .tree
  | .gen, _ => .code
  | .pack _, _ => .pack
  | .flush, _ => .done
  | .ctld _ _ _, _ => .load
  | .ubeg, _ => .unpack
  | .unpk _, _ => .unpack
  | .ufin _, _ => .done

/-- The rows of 30 R95, (`match`, `mask`), as claims read them. -/
def tableRows : List (CmdWord × CmdWord) :=
  [(0x00000000, 0xFFFFFFFF), (0x01000000, 0xFFFFFFFF), (0x02000000, 0xFFFFFF00), (0x10000000, 0xFFFF00FF),
   (0x11000000, 0xFFFF00FF), (0x12000000, 0xFFFF00FF), (0x20000000, 0xFFFFFFFF), (0x21000000, 0xFFFE00FF)] ++
  [(0x30000000, 0xFFFFFFFF), (0x31000000, 0xFFFF00FF), (0x32000000, 0xFFFF0000), (0x40000000, 0xFFFF00FF),
   (0x41000000, 0xFFFFFFFF), (0x50000000, 0xFFFFFFFF), (0x51000000, 0xFFFFFF00), (0x52000000, 0xFFFFFF00)]

/-- A word has the form of some row and keeps the row's extra constraint (30 R95, R99). -/
def LegalWord (w : CmdWord) : Prop :=
  ∃ row ∈ tableRows, w &&& row.2 = row.1 ∧ (row.1 = 0x21000000 → w.extractLsb' 8 9 ≠ 511#9) ∧
    (row.1 = 0x02000000 → (w.extractLsb' 0 8).toNat ≤ 9)

/-- What CSR `n` shows of the state, field by field, bits not listed 0 (10 R37 to R46). -/
def CsrShows (s : State) (n : Nat) (d : Data) : Prop :=
  match n with
  | 0 => d.extractLsb' 0 8 = BitVec.ofNat 8 s.cfg.cntW ∧ d.extractLsb' 8 8 = 1#8 ∧ d.extractLsb' 16 240 = 0
  | 1 => d.extractLsb' 0 4 = s.blk.phase.num ∧ d.getLsbD 4 = s.blk.root.valid ∧ d.getLsbD 5 = s.blk.bpAny ∧
      d.getLsbD 6 = s.blk.holdValid ∧ (d.getLsbD 7 = true ↔ s.blk.phase = .fault) ∧
      d.extractLsb' 8 3 = BitVec.ofNat 3 s.blk.pend.length ∧ d.extractLsb' 11 8 = BitVec.ofNat 8 s.blk.path.length ∧
      d.getLsbD 19 = s.blk.fuValid ∧ d.extractLsb' 20 236 = 0
  | 2 => d.extractLsb' 0 8 = s.blk.err.kind ∧ d.extractLsb' 8 8 = s.blk.err.op ∧ d.extractLsb' 16 9 = s.blk.err.ctx ∧
      d.extractLsb' 25 4 = s.blk.err.phase ∧ d.extractLsb' 29 227 = 0
  | 3 => d.extractLsb' 0 9 = s.blk.nsym ∧ d.extractLsb' 9 247 = 0
  | 4 => d.extractLsb' 0 9 = s.blk.root.h ∧ d.getLsbD 9 = s.blk.root.valid ∧ d.extractLsb' 10 246 = 0
  | 5 => d.toNat = (List.range 256).countP (fun k => (s.blk.ctAt (BitVec.ofNat 8 k)).valid)
  | 6 => d.extractLsb' 0 4 = s.blk.finalUsed ∧ d.getLsbD 4 = s.blk.fuValid ∧ d.extractLsb' 5 251 = 0
  | 7 => bits8 (d.extractLsb' 0 8) = s.blk.pend ++ List.replicate (8 - s.blk.pend.length) false ∧
      d.extractLsb' 8 3 = BitVec.ofNat 3 s.blk.pend.length ∧ d.extractLsb' 11 245 = 0
  | 8 => d.extractLsb' 0 8 = s.blk.hold ∧ d.getLsbD 8 = s.blk.holdValid ∧ d.extractLsb' 9 247 = 0
  | 9 => ∀ i, i < 256 → d.getMsbD i = (s.blk.path[i]?).getD false
  | _ => False

/-- The commands with which a host loads a table: one `CTLD` per valid entry, in ascending order (30 R104 `LOADT`). -/
def loadTable (ct : Vector CodeEntry 256) : List Instr :=
  (allSyms.filter (fun s => (symGet ct s).valid)).map (fun s => .ctld s (symGet ct s).len (left256 (symGet ct s).bits))

/-- `ENCODE S` without its `CLR` (30 R104): count, build, generate, pack, flush. -/
def encodeSession (src : List Byte) : List Instr :=
  src.map .acc ++ [.build, .gen] ++ src.map .pack ++ [.flush]

/-- `DECODE T, P, u` without its `CLR` (30 R104): load the table, begin, unpack, finish. -/
def decodeSession (ct : Vector CodeEntry 256) (payload : List Byte) (u : Byte) : List Instr :=
  loadTable ct ++ [.ubeg] ++ payload.map .unpk ++ [.ufin u]

/-- The bits of a byte sequence, each byte most significant bit first (20 R63, R64). -/
def bitsOf (bs : List Byte) : Bits := bs.flatMap bits8

end Sys2Proof.Machine
end

