-- ==== Sys2Proof/Certificates/Slice0/Obligations.lean ====
section
/-! DEFINITION. The statements for the provers, from the numbered rules of spec/. -/

open Sys2Proof Sys2Proof.Machine

/-! ## Encoding -/

/-- Decoding the encoding of any well-formed command gives it back, every operand at every value (30 R91, R95, R97, R105). -/
def Obligations.DecodeInvertsEncode : Prop :=
  ∀ i : Instr, i.wellFormed = true → decode (encode i) = .ok i

/-- A word that decodes is the encoding of what it decodes to, which is well-formed and takes `wdata` as it stands
(30 R91, R97, R105). -/
def Obligations.EncodeInvertsDecode : Prop :=
  ∀ (c : Command) (i : Instr), decode c = .ok i →
    i.wellFormed = true ∧ (encode i).cmd = c.cmd ∧
    (∀ sym w, i = .fadd sym w → w = c.wdata) ∧ (∀ sym len w, i = .ctld sym len w → w = c.wdata)

/-- 30 R105 with the rows of R95 and the operands of R97: each row's words decode to its command, every other word is
illegal. -/
def Obligations.DecodeFollowsTheTable : Prop :=
  ∀ c : Command,
    (c.cmd = 0x00000000 → decode c = .ok .nop) ∧
    (c.cmd = 0x01000000 → decode c = .ok .clr) ∧
    (c.cmd &&& 0xFFFFFF00 = 0x02000000 → (c.cmd.extractLsb' 0 8).toNat ≤ 9 → decode c = .ok (.csrr (c.cmd.extractLsb' 0 8))) ∧
    (c.cmd &&& 0xFFFF00FF = 0x10000000 → decode c = .ok (.acc (c.cmd.extractLsb' 8 8))) ∧
    (c.cmd &&& 0xFFFF00FF = 0x11000000 → decode c = .ok (.fadd (c.cmd.extractLsb' 8 8) c.wdata)) ∧
    (c.cmd &&& 0xFFFF00FF = 0x12000000 → decode c = .ok (.frd (c.cmd.extractLsb' 8 8))) ∧
    (c.cmd = 0x20000000 → decode c = .ok .build) ∧
    (c.cmd &&& 0xFFFE00FF = 0x21000000 → c.cmd.extractLsb' 8 9 ≠ 511#9 → decode c = .ok (.ndrd (c.cmd.extractLsb' 8 9))) ∧
    (c.cmd = 0x30000000 → decode c = .ok .gen) ∧
    (c.cmd &&& 0xFFFF00FF = 0x31000000 → decode c = .ok (.ctrd (c.cmd.extractLsb' 8 8))) ∧
    (c.cmd &&& 0xFFFF0000 = 0x32000000 →
      decode c = .ok (.ctld (c.cmd.extractLsb' 8 8) (c.cmd.extractLsb' 0 8) c.wdata)) ∧
    (c.cmd &&& 0xFFFF00FF = 0x40000000 → decode c = .ok (.pack (c.cmd.extractLsb' 8 8))) ∧
    (c.cmd = 0x41000000 → decode c = .ok .flush) ∧
    (c.cmd = 0x50000000 → decode c = .ok .ubeg) ∧
    (c.cmd &&& 0xFFFFFF00 = 0x51000000 → decode c = .ok (.unpk (c.cmd.extractLsb' 0 8))) ∧
    (c.cmd &&& 0xFFFFFF00 = 0x52000000 → decode c = .ok (.ufin (c.cmd.extractLsb' 0 8))) ∧
    (¬ LegalWord c.cmd → ∃ e, decode c = .error e)

/-- A few words of spec/95_test_vectors.md, one per family, decode to the commands they stand for. -/
def Obligations.VectorWordsDecode : Prop :=
  decode { cmd := 0x00000000, wdata := 0 } = .ok .nop ∧
  decode { cmd := 0x02000009, wdata := 0 } = .ok (.csrr 9) ∧
  decode { cmd := 0x10006100, wdata := 12345 } = .ok (.acc 0x61) ∧
  decode { cmd := 0x11006100, wdata := 1 } = .ok (.fadd 0x61 1) ∧
  decode { cmd := 0x2101FE00, wdata := 0 } = .ok (.ndrd 510) ∧
  decode { cmd := 0x32006101, wdata := 0x80 <<< 248 } = .ok (.ctld 0x61 1 (0x80 <<< 248)) ∧
  decode { cmd := 0x4000A500, wdata := 0 } = .ok (.pack 0xA5) ∧
  decode { cmd := 0x52000006, wdata := 0 } = .ok (.ufin 6)

/-! ## One step -/

/-- A step runs the decoded command: where the oldest command on the `cmd` port decodes to `i`, the step takes it from the
port and is `exec i` (00 R5, 20 R72, 30 R106). -/
def Obligations.StepRunsTheDecodedCommand : Prop :=
  ∀ (s : State) (c : Command) (rest : List Command) (i : Instr),
    s.cmdq = c :: rest → decode c = .ok i → step s = exec i { s with cmdq := rest }

/-- A block that receives no command does nothing and keeps its state (60 R263). -/
def Obligations.NoCommandKeepsTheState : Prop := ∀ s : State, s.cmdq = [] → step s = .next s

/-- 30 R98, R99, 60 R242: a word that is no well-formed command raises `ILLEGAL_COMMAND` with `cmd[16:8]` as context and
`cmd[31:24]` in `ERR.OP`, in every phase but `FAULT`, where it is answered `ABORTED`; whatever `wdata` is. -/
def Obligations.IllegalWordRaisesIllegalCommand : Prop :=
  ∀ (s : State) (c : Command) (rest : List Command), s.cmdq = c :: rest → ¬ LegalWord c.cmd →
    (s.blk.phase ≠ .fault → ∃ t, step s = .next t ∧ t.cfg = s.cfg ∧ t.cmdq = rest ∧
      t.rsps = s.rsps ++ [{ status := .fault .illegalCommand, flag := false, val := c.cmd.extractLsb' 8 9, rdata := 0, out := [] }] ∧
      t.blk = { s.blk with err := { kind := 0x10, op := c.cmd.extractLsb' 24 8, ctx := c.cmd.extractLsb' 8 9,
                                    phase := s.blk.phase.num }, phase := .fault }) ∧
    (s.blk.phase = .fault → ∃ t, step s = .next t ∧ t.cfg = s.cfg ∧ t.cmdq = rest ∧
      t.rsps = s.rsps ++ [{ status := .aborted, flag := false, val := 0, rdata := 0, out := [] }] ∧ t.blk = s.blk)

/-- 30 R100: `wdata` is used by `FADD` and `CTLD` only; every other command ignores it. -/
def Obligations.WdataIsIgnoredByOtherCommands : Prop :=
  ∀ (s : State) (w : CmdWord) (d d' : Data) (rest : List Command),
    w.extractLsb' 24 8 ≠ 0x11#8 → w.extractLsb' 24 8 ≠ 0x32#8 →
    step { s with cmdq := { cmd := w, wdata := d } :: rest } = step { s with cmdq := { cmd := w, wdata := d' } :: rest }

/-- 30 R92: every command gets exactly one response, in command order; the step takes that command alone from the port and
leaves the parameter as it is. -/
def Obligations.EveryCommandGetsOneResponse : Prop :=
  ∀ (s : State) (c : Command) (rest : List Command), s.Inv → s.cmdq = c :: rest →
    ∃ t r, step s = .next t ∧ t.cfg = s.cfg ∧ t.cmdq = rest ∧ t.rsps = s.rsps ++ [r]

/-- 30 R93, R94: the fields of the response word and the status codes. -/
def Obligations.ResponseWordFields : Prop :=
  ∀ r : Response, r.out.length ≤ 255 →
    (r.word.extractLsb' 24 8 = r.status.num ∧ (r.word.extractLsb' 16 8).toNat = r.out.length ∧ r.word.getLsbD 15 = r.flag ∧
      r.word.extractLsb' 9 6 = 0 ∧ r.word.extractLsb' 0 9 = r.val) ∧
    (r.status = .ok → r.status.num = 0x00) ∧ (r.status = .emptyInput → r.status.num = 0x01) ∧
    (r.status = .aborted → r.status.num = 0x0F) ∧
    (r.status = .fault .illegalCommand → r.status.num = 0x10) ∧ (r.status = .fault .sequenceError → r.status.num = 0x11) ∧
    (r.status = .fault .countOverflow → r.status.num = 0x12) ∧ (r.status = .fault .missingCodeEntry → r.status.num = 0x13) ∧
    (r.status = .fault .malformedTable → r.status.num = 0x14) ∧ (r.status = .fault .truncatedPayload → r.status.num = 0x15) ∧
    (r.status = .fault .invalidCode → r.status.num = 0x16) ∧ (r.status = .fault .badFraming → r.status.num = 0x17)

/-- 43 R197, 44 R222, 30 R93: one command emits at most 32 bytes, `UNPK` and `UFIN` at most 8, `FLUSH` at most one, and a
faulted or aborted command none. -/
def Obligations.EmittedBytesAreBounded : Prop :=
  ∀ (i : Instr) (s t : State) (r : Response), s.Inv → exec i s = .next t → t.rsps = s.rsps ++ [r] →
    r.out.length ≤ 32 ∧ (∀ b, i = .unpk b → r.out.length ≤ 8) ∧ (∀ u, i = .ufin u → r.out.length ≤ 8) ∧
    (i = .flush → r.out.length ≤ 1) ∧ (t.blk.phase = .fault → r.out = [])

/-! ## Sequencing and faults -/

/-- 10 R47, 60 R243: `PHASE` changes only as the transition table says, or by a fault; a command not legal in the phase
raises `SEQUENCE_ERROR`, in `FAULT` it is answered `ABORTED`. -/
def Obligations.PhaseFollowsTheTransitionTable : Prop :=
  ∀ (i : Instr) (s : State), i.wellFormed = true →
    (s.blk.phase ∈ legalPhases i → ∀ t, exec i s = .next t →
      t.blk.phase = phaseAfter i s.blk.phase ∨
      t.blk.phase = .fault ∧ ∃ (k : FaultKind) (r : Response), t.rsps = s.rsps ++ [r] ∧ r.status = .fault k) ∧
    (s.blk.phase ∉ legalPhases i → s.blk.phase ≠ .fault → OutOfSequence i i.op s) ∧
    (s.blk.phase ∉ legalPhases i → s.blk.phase = .fault → Aborts i s)

/-- 60 R253, R254: a command that raises a fault writes `ERR` (kind, opcode, context, old phase) and `PHASE`, and nothing
else; its response carries code and context, and it emits nothing. -/
def Obligations.FaultEntryWritesErrAndPhaseOnly : Prop :=
  ∀ (i : Instr) (s t : State) (r : Response) (k : FaultKind),
    exec i s = .next t → t.rsps = s.rsps ++ [r] → r.status = .fault k →
    s.blk.phase ≠ .fault ∧ r.flag = false ∧ r.rdata = 0 ∧ r.out = [] ∧ t.cfg = s.cfg ∧ t.cmdq = s.cmdq ∧
    t.blk = { s.blk with err := { kind := k.num, op := (encode i).cmd.extractLsb' 24 8, ctx := r.val, phase := s.blk.phase.num },
                         phase := .fault }

/-- 60 R255: `FAULT` is left only by `CLR`, which clears every piece of state; any other word leaves the block, `ERR`
included, as it is. -/
def Obligations.FaultIsLeftOnlyByClr : Prop :=
  ∀ (s t : State) (c : Command) (rest : List Command), s.blk.phase = .fault → s.cmdq = c :: rest → step s = .next t →
    (c.cmd = 0x01000000 → Cleared t.blk) ∧ (c.cmd ≠ 0x01000000 → t.blk = s.blk)

/-- 60 R262, 20 R70: `NOP` and the read commands complete in every phase, have no side effect, and may be put before any
command without changing what it does to the block or what it answers. -/
def Obligations.ReadsMayBeInterleaved : Prop :=
  ∀ (i : Instr) (s : State), i.wellFormed = true →
    (i = .nop ∨ (∃ n, i = .csrr n) ∨ (∃ x, i = .frd x) ∨ (∃ h, i = .ndrd h) ∨ (∃ x, i = .ctrd x)) →
    ∃ t, exec i s = .next t ∧ t.blk = s.blk ∧
      ∀ (j : Instr) (u : State) (r : Response), exec j s = .next u → u.rsps = s.rsps ++ [r] →
        ∃ u', exec j t = .next u' ∧ u'.blk = u.blk ∧ u'.rsps = t.rsps ++ [r]

/-- 10 R22, R53, 40 R135: `FREQ` is written only by `ACC`, `FADD` in `IDLE` or `COUNT`, by the exact sum, and by `CLR`. -/
def Obligations.CountersChangeOnlyByExactAddition : Prop :=
  ∀ (i : Instr) (s t : State), exec i s = .next t →
    t.blk.freq = s.blk.freq ∨ i = .clr ∨
    ∃ (sym : Sym) (n : Nat), (i = .acc sym ∧ n = 1 ∨ ∃ c, i = .fadd sym c ∧ n = c.toNat) ∧
      (s.blk.phase = .idle ∨ s.blk.phase = .count) ∧ s.blk.freqAt sym + n < 2 ^ s.cfg.cntW ∧
      ∀ x, t.blk.freqAt x = if x = sym then s.blk.freqAt sym + n else s.blk.freqAt x

/-- 10 R50: the code table is frozen in `CODE`, `PACK` and `UNPACK` (until `CLR`). -/
def Obligations.CodeTableIsFrozenInUse : Prop :=
  ∀ (i : Instr) (s t : State), s.blk.phase = .code ∨ s.blk.phase = .pack ∨ s.blk.phase = .unpack →
    exec i s = .next t → i ≠ .clr → t.blk.ct = s.blk.ct

/-! ## System commands and reset -/

/-- 10 R54, 45 R232, 70 R281: reset and `CLR` leave every piece of state at its reset value, in every phase; `CLR` answers
`OK` and emits nothing. -/
def Obligations.ResetAndClrClearEverything : Prop :=
  (∀ cfg : Config, Cleared (State.resetWith cfg).blk) ∧ (encode .clr).cmd = 0x01000000 ∧
  ∀ s : State, ∃ t, AnswersOk .clr s t ∧ Cleared t.blk ∧ t.blk = State.reset.blk

/-- 45 R231: `NOP` does nothing, in every phase; a word with `op` = 0 and any other bit set is not `NOP` but illegal. -/
def Obligations.NopDoesNothing : Prop :=
  (encode .nop).cmd = 0x00000000 ∧ (∀ s : State, ∃ t, AnswersOk .nop s t ∧ t.blk = s.blk) ∧
  ∀ c : Command, c.cmd.extractLsb' 24 8 = 0 → c.cmd ≠ 0 → ∃ e, decode c = .error e

/-- 45 R233, 10 R37 to R46: `CSRR n` answers, in every phase, the register's fields in `rdata` and changes nothing; `n` above
9 is illegal; right after reset it reads 0, `ROOT` 0x1FF, `CONFIG` the parameter and the version. The bit sequences are no
longer than the invariant allows. -/
def Obligations.CsrrReadsEachRegister : Prop :=
  ∀ (s : State) (n : Byte), s.blk.pend.length ≤ 7 → s.blk.path.length ≤ 254 →
    (encode (.csrr n)).cmd = 0x02000000 ||| n.setWidth 32 ∧
    (n.toNat ≤ 9 → ∃ t d, Answers (.csrr n) s t .ok false 0 d [] ∧ t.blk = s.blk ∧ CsrShows s n.toNat d) ∧
    (9 < n.toNat → s.blk.phase ≠ .fault → Faults (.csrr n) 0x02 .illegalCommand 0x10 0 s) ∧
    (9 < n.toNat → s.blk.phase = .fault → Aborts (.csrr n) s) ∧
    (n.toNat ≤ 9 → ∀ cfg : Config, cfg.wf → ∃ t, Answers (.csrr n) (State.resetWith cfg) t .ok false 0
      (if n = 0 then BitVec.ofNat 256 (256 + cfg.cntW) else if n = 4 then 0x1FF else 0) [])

/-! ## The frequency accumulator -/

/-- 40 R130: `ACC`. -/
def Obligations.AccCountsOneOccurrence : Prop :=
  ∀ (s : State) (sym : Sym),
    (encode (.acc sym)).cmd = 0x10000000 ||| sym.setWidth 32 <<< 8 ∧
    (s.blk.phase = .idle ∨ s.blk.phase = .count → s.blk.freqAt sym + 1 < 2 ^ s.cfg.cntW →
      ∃ t, AnswersOk (.acc sym) s t ∧ t.blk = { s.blk with freq := t.blk.freq, phase := .count } ∧
        ∀ x, t.blk.freqAt x = if x = sym then s.blk.freqAt sym + 1 else s.blk.freqAt x) ∧
    (s.blk.phase = .idle ∨ s.blk.phase = .count → 2 ^ s.cfg.cntW ≤ s.blk.freqAt sym + 1 →
      Faults (.acc sym) 0x10 .countOverflow 0x12 (sym.setWidth 9) s) ∧
    (s.blk.phase ∉ [.idle, .count, .fault] → OutOfSequence (.acc sym) 0x10 s)

/-- 40 R131: `FADD`. -/
def Obligations.FaddAddsTheCount : Prop :=
  ∀ (s : State) (sym : Sym) (c : Data),
    (encode (.fadd sym c)).cmd = 0x11000000 ||| sym.setWidth 32 <<< 8 ∧ (encode (.fadd sym c)).wdata = c ∧
    (s.blk.phase = .idle ∨ s.blk.phase = .count → s.blk.freqAt sym + c.toNat < 2 ^ s.cfg.cntW →
      ∃ t, AnswersOk (.fadd sym c) s t ∧ t.blk = { s.blk with freq := t.blk.freq, phase := .count } ∧
        ∀ x, t.blk.freqAt x = if x = sym then s.blk.freqAt sym + c.toNat else s.blk.freqAt x) ∧
    (s.blk.phase = .idle ∨ s.blk.phase = .count → 2 ^ s.cfg.cntW ≤ s.blk.freqAt sym + c.toNat →
      Faults (.fadd sym c) 0x11 .countOverflow 0x12 (sym.setWidth 9) s) ∧
    (s.blk.phase ∉ [.idle, .count, .fault] → OutOfSequence (.fadd sym c) 0x11 s)

/-- 40 R132: `FRD`, in every phase. -/
def Obligations.FrdReadsTheCounter : Prop :=
  ∀ (s : State) (sym : Sym),
    (encode (.frd sym)).cmd = 0x12000000 ||| sym.setWidth 32 <<< 8 ∧
    ∃ t flag, Answers (.frd sym) s t .ok flag 0 (BitVec.ofNat 256 (s.blk.freqAt sym)) [] ∧ t.blk = s.blk ∧
      (flag = true ↔ s.blk.freqAt sym ≠ 0)

/-- 40 R134: partial counts merged by `FADD` in any order give, when no `FADD` faults, one and the same block, whose counters
are the sums; some `FADD` faults exactly when some total is at least `2^CNT_W`, so in one order as in every other. -/
def Obligations.MergeOrderDoesNotMatter : Prop :=
  ∀ (s : State) (l l' : List (Sym × Data)), s.blk.phase = .idle ∨ s.blk.phase = .count → l.Perm l' →
    ∃ u u', execAll (l.map (fun p => .fadd p.1 p.2)) s = some u ∧ execAll (l'.map (fun p => .fadd p.1 p.2)) s = some u' ∧
      (u.blk.phase = .fault ↔ u'.blk.phase = .fault) ∧
      (u.blk.phase = .fault ↔ ∃ p ∈ l,
        2 ^ s.cfg.cntW ≤ s.blk.freqAt p.1 + ((l.filter (fun q => q.1 == p.1)).map (fun q => q.2.toNat)).sum) ∧
      (u.blk.phase ≠ .fault → u.blk = u'.blk ∧
        ∀ x, u.blk.freqAt x = s.blk.freqAt x + ((l.filter (fun p => p.1 == x)).map (fun p => p.2.toNat)).sum)

/-! ## The tree builder -/

/-- 41 R150, R157, 10 R27: `BUILD` completes on every frequency table; it writes `NODE`, `ROOT`, `NSYM` and `PHASE` only, and
reports an empty table by `EMPTY_INPUT`, which is not a fault. -/
def Obligations.BuildCompletesOnEveryTable : Prop :=
  ∀ s : State, (encode .build).cmd = 0x20000000 ∧
    (s.blk.phase = .idle ∨ s.blk.phase = .count →
      ∃ t st, Answers .build s t st t.blk.root.valid t.blk.nsym 0 [] ∧
        t.blk = { s.blk with node := t.blk.node, root := t.blk.root, nsym := t.blk.nsym, phase := .tree } ∧
        t.blk.nsym.toNat = entries s.blk ∧
        (st = .ok ∧ t.blk.root.valid = true ∧ 0 < entries s.blk ∨
         st = .emptyInput ∧ t.blk.root = { valid := false, h := 511#9 } ∧ entries s.blk = 0)) ∧
    (s.blk.phase ∉ [.idle, .count, .fault] → OutOfSequence .build 0x20 s)

/-- 41 R151: the leaf of symbol `s` is `NODE[s]`, with the count and no children; a symbol with count 0 gets no leaf. -/
def Obligations.BuildPlantsOneLeafPerEntry : Prop :=
  ∀ (s t : State) (x : Sym), s.blk.phase = .idle ∨ s.blk.phase = .count → exec .build s = .next t →
    t.blk.nodeAt (x.setWidth 9) =
      if s.blk.freqAt x ≠ 0 then { valid := true, freq := s.blk.freqAt x, left := 511#9, right := 511#9 }
      else { valid := false, freq := 0, left := 511#9, right := 511#9 }

/-- 41 R156: with one entry the tree is that leaf alone; no internal node is valid. -/
def Obligations.BuildOfOneEntryIsALeaf : Prop :=
  ∀ (s : State) (x : Sym), s.blk.phase = .idle ∨ s.blk.phase = .count →
    (∀ y, s.blk.freqAt y ≠ 0 ↔ y = x) →
    ∃ t, Answers .build s t .ok true 1 0 [] ∧ t.blk.root = { valid := true, h := x.setWidth 9 } ∧ t.blk.nsym = 1 ∧
      ∀ h : Handle, 256 ≤ h.toNat → (t.blk.nodeAt h).valid = false

/-- 41 R157, 42 R173, 43 R193: the empty table goes through `BUILD`, `GEN` and `FLUSH` to the empty code table and the empty
payload, without a fault. -/
def Obligations.EmptyInputGivesEmptyTableAndPayload : Prop :=
  ∀ s : State, s.blk.phase = .idle ∨ s.blk.phase = .count → (∀ x, s.blk.freqAt x = 0) →
    s.blk.pend = [] → s.blk.bpAny = false →
    ∃ t u v, Answers .build s t .emptyInput false 0 0 [] ∧
      t.blk.root = { valid := false, h := 511#9 } ∧ t.blk.nsym = 0 ∧ t.blk.phase = .tree ∧ t.blk.err = s.blk.err ∧
      (∀ h, (t.blk.nodeAt h).valid = false) ∧
      Answers .gen t u .ok false 0 0 [] ∧ u.blk.phase = .code ∧
      (∀ x, u.blk.ctAt x = { valid := false, len := 0, bits := [] }) ∧
      Answers .flush u v .ok false 0 0 [] ∧ v.blk.phase = .done ∧ v.blk.finalUsed = 0 ∧ v.blk.fuValid = true

/-- 41 R158, 10 R24, R26: with `n ≥ 2` entries the internal nodes are 256 to `256 + n - 2`, the last of them the root; each
has two valid children with smaller handles and the sum of their frequencies. -/
def Obligations.BuildNumbersInternalNodesFrom256 : Prop :=
  ∀ s t : State, s.blk.phase = .idle ∨ s.blk.phase = .count → 2 ≤ entries s.blk → exec .build s = .next t →
    t.blk.root.valid = true ∧ t.blk.root.h.toNat = 256 + entries s.blk - 2 ∧
    ∀ h : Handle, 256 ≤ h.toNat →
      ((t.blk.nodeAt h).valid = true ↔ h.toNat ≤ 256 + entries s.blk - 2) ∧
      ((t.blk.nodeAt h).valid = true →
        (t.blk.nodeAt h).left.toNat < h.toNat ∧ (t.blk.nodeAt h).right.toNat < h.toNat ∧
        (t.blk.nodeAt (t.blk.nodeAt h).left).valid = true ∧ (t.blk.nodeAt (t.blk.nodeAt h).right).valid = true ∧
        (t.blk.nodeAt h).freq = (t.blk.nodeAt (t.blk.nodeAt h).left).freq + (t.blk.nodeAt (t.blk.nodeAt h).right).freq)

/-- 41 R155, R159: the root's frequency is the sum of all counters, and no node's frequency needs more than `CNT_W + 8`
bits. -/
def Obligations.BuildSumsAllCounters : Prop :=
  ∀ s t : State, s.blk.phase = .idle ∨ s.blk.phase = .count → 0 < entries s.blk → exec .build s = .next t →
    (t.blk.nodeAt t.blk.root.h).freq = ((List.range 256).map (fun k => s.blk.freqAt (BitVec.ofNat 8 k))).sum ∧
    ((∀ x, s.blk.freqAt x < 2 ^ s.cfg.cntW) → ∀ h, (t.blk.nodeAt h).freq < 2 ^ (s.cfg.cntW + 8))

/-- 10 R25: after `BUILD` the valid entries are those reachable from `ROOT.h`, each along exactly one path. -/
def Obligations.BuildLeavesAStrictTree : Prop :=
  ∀ s t : State, s.blk.phase = .idle ∨ s.blk.phase = .count → 0 < entries s.blk → exec .build s = .next t →
    ∀ h : Handle, ((t.blk.nodeAt h).valid = true ↔ ∃ p, Leads t.blk.node t.blk.root.h p h) ∧
      ∀ p q, Leads t.blk.node t.blk.root.h p h → Leads t.blk.node t.blk.root.h q h → p = q

/-- 41 R152, R153: the first combination joins the two least leaves, by count and then by symbol, the lesser one left. -/
def Obligations.FirstCombinationJoinsTheTwoLeastLeaves : Prop :=
  ∀ s t : State, s.blk.phase = .idle ∨ s.blk.phase = .count → 2 ≤ entries s.blk → exec .build s = .next t →
    ∃ x y : Sym, s.blk.freqAt x ≠ 0 ∧ s.blk.freqAt y ≠ 0 ∧ LeafBefore s.blk x y ∧
      (∀ z, s.blk.freqAt z ≠ 0 → z ≠ x → z ≠ y → LeafBefore s.blk y z) ∧
      t.blk.nodeAt 256#9 =
        { valid := true, freq := s.blk.freqAt x + s.blk.freqAt y, left := x.setWidth 9, right := y.setWidth 9 }

/-- 41 R151 to R155: `BUILD` plants one leaf per entry and nothing else, sorts the leaves by count and then by symbol, and
combines from handle 256 on until one node remains, which is the root. -/
def Obligations.BuildFollowsTheCombinationRule : Prop :=
  ∀ s t : State, s.blk.phase = .idle ∨ s.blk.phase = .count → 0 < entries s.blk → exec .build s = .next t →
    ∃ (a : Vector Node 511) (q : List Sym),
      (∀ h : Handle, nodeGet a h = if h.toNat < 256 ∧ s.blk.freqAt (h.setWidth 8) ≠ 0
        then { valid := true, freq := s.blk.freqAt (h.setWidth 8), left := 511#9, right := 511#9 }
        else { valid := false, freq := 0, left := 511#9, right := 511#9 }) ∧
      (∀ x, x ∈ q ↔ s.blk.freqAt x ≠ 0) ∧ q.Pairwise (LeafBefore s.blk) ∧ q.length = entries s.blk ∧
      t.blk.root.valid = true ∧ Combines a 256#9 (q.map (fun x => x.setWidth 9)) t.blk.node t.blk.root.h

/-- 41 R154: into a sequence sorted by frequency a node goes behind every element of less or equal frequency and before every
element of greater frequency, and the sequence stays sorted (41 R160). -/
def Obligations.InsertionGoesBehindEquals : Prop :=
  ∀ (a : Vector Node 511) (q : List Handle) (h : Handle),
    q.Pairwise (fun x y => (nodeGet a x).freq ≤ (nodeGet a y).freq) →
    insertNode a q h = q.filter (fun x => decide ((nodeGet a x).freq ≤ (nodeGet a h).freq)) ++ [h] ++
        q.filter (fun x => decide ((nodeGet a h).freq < (nodeGet a x).freq)) ∧
    (insertNode a q h).Pairwise (fun x y => (nodeGet a x).freq ≤ (nodeGet a y).freq)

/-- 41 R164: `NODE`, `ROOT` and `NSYM` after `BUILD` are a function of `FREQ` alone. -/
def Obligations.BuildDependsOnFreqAlone : Prop :=
  ∀ s t s' t' : State, s.blk.phase = .idle ∨ s.blk.phase = .count → s'.blk.phase = .idle ∨ s'.blk.phase = .count →
    (∀ x, s.blk.freqAt x = s'.blk.freqAt x) → exec .build s = .next t → exec .build s' = .next t' →
    t.blk.node = t'.blk.node ∧ t.blk.root = t'.blk.root ∧ t.blk.nsym = t'.blk.nsym

/-- 41 R163: `NDRD`, in every phase; `NDRD 511` is illegal. -/
def Obligations.NdrdReadsTheNode : Prop :=
  ∀ (s : State) (h : Handle),
    (encode (.ndrd h)).cmd = 0x21000000 ||| h.setWidth 32 <<< 8 ∧
    (h ≠ 511#9 → ∃ t d, Answers (.ndrd h) s t .ok (s.blk.nodeAt h).valid 0 d [] ∧ t.blk = s.blk ∧
      d.extractLsb' 0 136 = BitVec.ofNat 136 (s.blk.nodeAt h).freq ∧ d.extractLsb' 136 8 = 0 ∧
      d.extractLsb' 144 9 = (s.blk.nodeAt h).right ∧ d.extractLsb' 153 7 = 0 ∧
      d.extractLsb' 160 9 = (s.blk.nodeAt h).left ∧ d.extractLsb' 169 7 = 0 ∧
      d.getLsbD 176 = (s.blk.nodeAt h).valid ∧ d.extractLsb' 177 79 = 0) ∧
    (h = 511#9 → s.blk.phase ≠ .fault → Faults (.ndrd h) 0x21 .illegalCommand 0x10 511 s) ∧
    (h = 511#9 → s.blk.phase = .fault → Aborts (.ndrd h) s)

/-! ## The code table generator -/

/-- 42 R170, R171: `GEN` gives every leaf reached from the root the branches that lead to it, root first, and no other symbol
a code. The arena is a forest, as every run leaves it. -/
def Obligations.GenRecordsTheRootToLeafPaths : Prop :=
  ∀ s : State, (encode .gen).cmd = 0x30000000 ∧
    (s.blk.phase = .tree → ArenaOk s.blk.node → s.blk.root.valid = true → (s.blk.nodeAt s.blk.root.h).valid = true →
      256 ≤ s.blk.root.h.toNat →
      ∃ t, Answers .gen s t .ok false (BitVec.ofNat 9 ((List.range 256).countP (fun k => (t.blk.ctAt (BitVec.ofNat 8 k)).valid))) 0 [] ∧
        t.blk = { s.blk with ct := t.blk.ct, phase := .code } ∧
        ∀ x : Sym, ((t.blk.ctAt x).valid = true ↔ ∃ p, Leads s.blk.node s.blk.root.h p (x.setWidth 9)) ∧
          ((t.blk.ctAt x).valid = true → Leads s.blk.node s.blk.root.h (t.blk.ctAt x).bits (x.setWidth 9) ∧
            (t.blk.ctAt x).bits.length = (t.blk.ctAt x).len.toNat ∧ 1 ≤ (t.blk.ctAt x).len.toNat) ∧
          ((t.blk.ctAt x).valid = false → t.blk.ctAt x = { valid := false, len := 0, bits := [] })) ∧
    (s.blk.phase ∉ [.tree, .fault] → OutOfSequence .gen 0x30 s)

/-- 42 R172, R173: a tree that is one leaf gives the one-entry table "0"; the empty tree gives the empty table. -/
def Obligations.GenOfLeafOrEmptyTree : Prop :=
  ∀ s : State, s.blk.phase = .tree →
    (∀ x : Sym, s.blk.root = { valid := true, h := x.setWidth 9 } →
      ∃ t, Answers .gen s t .ok false 1 0 [] ∧ t.blk = { s.blk with ct := t.blk.ct, phase := .code } ∧
        ∀ y, t.blk.ctAt y = if y = x then { valid := true, len := 1, bits := [false] } else { valid := false, len := 0, bits := [] }) ∧
    (s.blk.root.valid = false →
      ∃ t, Answers .gen s t .ok false 0 0 [] ∧ t.blk = { s.blk with ct := t.blk.ct, phase := .code } ∧
        ∀ y, t.blk.ctAt y = { valid := false, len := 0, bits := [] })

/-- 10 R30: after a `GEN` that did not fault, and after a `UBEG` that did not fault, the valid codes are prefix-free. -/
def Obligations.CodesArePrefixFreeAfterGenAndUbeg : Prop :=
  ∀ s t : State,
    (exec .gen s = .next t → t.blk.phase = .code → PrefixFree t.blk.ct) ∧
    (exec .ubeg s = .next t → t.blk.phase = .unpack → PrefixFree t.blk.ct)

/-- 42 R174, R175: after `BUILD` and `GEN` a symbol has a code exactly when it was counted, no code is a prefix of another, and
the one code of a one-symbol table is "0"; with two or more symbols a code has at most `NSYM - 1` bits, and every sequence of
255 bits (so every longer or infinite one) has exactly one code as a prefix. -/
def Obligations.EveryCountedSymbolHasACode : Prop :=
  ∀ s : State, s.blk.phase = .idle ∨ s.blk.phase = .count →
    ∃ u, execAll [.build, .gen] s = some u ∧ u.blk.phase = .code ∧
      (∀ x, (u.blk.ctAt x).valid = true ↔ s.blk.freqAt x ≠ 0) ∧ PrefixFree u.blk.ct ∧
      (∀ x, (u.blk.ctAt x).valid = true → (u.blk.ctAt x).len.toNat = (u.blk.ctAt x).bits.length) ∧
      (entries s.blk = 1 → ∀ x, (u.blk.ctAt x).valid = true → (u.blk.ctAt x).bits = [false]) ∧
      (2 ≤ entries s.blk →
        (∀ x, (u.blk.ctAt x).valid = true → 1 ≤ (u.blk.ctAt x).bits.length ∧ (u.blk.ctAt x).bits.length ≤ entries s.blk - 1) ∧
        ∀ q : Bits, 255 ≤ q.length → ∃ x, (u.blk.ctAt x).valid = true ∧ (u.blk.ctAt x).bits <+: q ∧
          ∀ y, (u.blk.ctAt y).valid = true → (u.blk.ctAt y).bits <+: q → y = x)

/-- 42 R176: `CTRD`, in every phase: flag, length, and the code left-aligned in `rdata`, zeros below. -/
def Obligations.CtrdReadsTheEntry : Prop :=
  ∀ (s : State) (x : Sym), (s.blk.ctAt x).bits.length ≤ 255 →
    (encode (.ctrd x)).cmd = 0x31000000 ||| x.setWidth 32 <<< 8 ∧
    ∃ t d, Answers (.ctrd x) s t .ok (s.blk.ctAt x).valid ((s.blk.ctAt x).len.setWidth 9) d [] ∧ t.blk = s.blk ∧
      ∀ i, i < 256 → d.getMsbD i = ((s.blk.ctAt x).bits[i]?).getD false

/-- 42 R177, R178: `CTLD` takes a code of 1 to 255 bits for a symbol that has none; a length 0, a symbol already loaded and
bits beyond the length are `MALFORMED_TABLE` with the symbol. -/
def Obligations.CtldLoadsOneCode : Prop :=
  ∀ (s : State) (x : Sym) (len : Byte) (w : Data),
    (encode (.ctld x len w)).cmd = 0x32000000 ||| x.setWidth 32 <<< 8 ||| len.setWidth 32 ∧ (encode (.ctld x len w)).wdata = w ∧
    (s.blk.phase = .idle ∨ s.blk.phase = .load →
      (len = 0 ∨ (s.blk.ctAt x).valid = true ∨ (∃ i, len.toNat ≤ i ∧ i < 256 ∧ w.getMsbD i = true) →
        Faults (.ctld x len w) 0x32 .malformedTable 0x14 (x.setWidth 9) s) ∧
      (len ≠ 0 → (s.blk.ctAt x).valid = false → (∀ i, len.toNat ≤ i → i < 256 → w.getMsbD i = false) →
        ∃ t, AnswersOk (.ctld x len w) s t ∧ t.blk = { s.blk with ct := t.blk.ct, phase := .load } ∧
          (t.blk.ctAt x).valid = true ∧ (t.blk.ctAt x).len = len ∧ (t.blk.ctAt x).bits.length = len.toNat ∧
          (∀ i, i < len.toNat → (t.blk.ctAt x).bits[i]? = some (w.getMsbD i)) ∧
          ∀ y, y ≠ x → t.blk.ctAt y = s.blk.ctAt y)) ∧
    (s.blk.phase ∉ [.idle, .load, .fault] → OutOfSequence (.ctld x len w) 0x32 s)

/-- 42 R180: a table loaded with `CTLD` from the lengths and left-aligned codes of a table is equal to it. -/
def Obligations.LoadingATableRestoresIt : Prop :=
  ∀ (cfg : Config) (ct : Vector CodeEntry 256), TableOk ct →
    ∃ u, execAll (loadTable ct) (State.resetWith cfg) = some u ∧ u.blk.phase ≠ .fault ∧ u.blk.ct = ct

/-! ## The packer -/

/-- 43 R190, R191, R192: `PACK` appends the code behind the pending bits, emits every full byte, the oldest bit in bit 7, and
keeps fewer than 8 bits; a symbol without a code raises `MISSING_CODE_ENTRY`. -/
def Obligations.PackAppendsTheCode : Prop :=
  ∀ (s : State) (x : Sym),
    (encode (.pack x)).cmd = 0x40000000 ||| x.setWidth 32 <<< 8 ∧
    (s.blk.phase = .code ∨ s.blk.phase = .pack →
      ((s.blk.ctAt x).valid = true →
        ∃ t out, Answers (.pack x) s t .ok false (BitVec.ofNat 9 t.blk.pend.length) 0 out ∧
          t.blk = { s.blk with pend := t.blk.pend, bpAny := t.blk.bpAny, phase := .pack } ∧
          bitsOf out ++ t.blk.pend = s.blk.pend ++ (s.blk.ctAt x).bits ∧ t.blk.pend.length < 8 ∧
          (t.blk.bpAny = true ↔ s.blk.bpAny = true ∨ out ≠ [])) ∧
      ((s.blk.ctAt x).valid = false → Faults (.pack x) 0x40 .missingCodeEntry 0x13 (x.setWidth 9) s)) ∧
    (s.blk.phase ∉ [.code, .pack, .fault] → OutOfSequence (.pack x) 0x40 s)

/-- 43 R196: the packer is a sequential fold: the emitted bytes followed by `PEND` are the concatenated codes. -/
def Obligations.PackIsASequentialFold : Prop :=
  ∀ (s : State) (src : List Sym), s.blk.phase = .code ∨ s.blk.phase = .pack →
    (∀ x ∈ src, (s.blk.ctAt x).valid = true) →
    ∃ u out, execAll (src.map .pack) s = some u ∧ u.blk.phase ≠ .fault ∧ u.outStream = s.outStream ++ out ∧
      bitsOf out ++ u.blk.pend = s.blk.pend ++ src.flatMap (fun x => (s.blk.ctAt x).bits) ∧
      u.blk.ct = s.blk.ct ∧ (s.blk.pend.length < 8 → u.blk.pend.length < 8)

/-- 43 R193, R194: `FLUSH` pads the pending bits with zeros to one last byte, and says how many bits of the last byte are
used: 1..7 for a padded one, 8 for a full one, 0 where there is none. -/
def Obligations.FlushEndsThePayload : Prop :=
  ∀ s : State, s.blk.pend.length ≤ 7 →
    (encode .flush).cmd = 0x41000000 ∧
    (s.blk.phase = .code ∨ s.blk.phase = .pack →
      (s.blk.pend ≠ [] → ∃ t b, Answers .flush s t .ok false (BitVec.ofNat 9 s.blk.pend.length) 0 [b] ∧
        bits8 b = s.blk.pend ++ List.replicate (8 - s.blk.pend.length) false ∧
        t.blk = { s.blk with pend := [], bpAny := true, finalUsed := BitVec.ofNat 4 s.blk.pend.length, fuValid := true, phase := .done }) ∧
      (s.blk.pend = [] → s.blk.bpAny = true → ∃ t, Answers .flush s t .ok false 8 0 [] ∧
        t.blk = { s.blk with finalUsed := 8, fuValid := true, phase := .done }) ∧
      (s.blk.pend = [] → s.blk.bpAny = false → ∃ t, Answers .flush s t .ok false 0 0 [] ∧
        t.blk = { s.blk with finalUsed := 0, fuValid := true, phase := .done })) ∧
    (s.blk.phase ∉ [.code, .pack, .fault] → OutOfSequence .flush 0x41 s)

/-! ## The unpacker -/

/-- 44 R210, R211: `UBEG` accepts a prefix-free table and puts the unpacker at the root; else it raises `MALFORMED_TABLE` with
the smallest symbol whose code is a prefix of another's. -/
def Obligations.UbegAcceptsPrefixFreeTables : Prop :=
  ∀ s : State, (encode .ubeg).cmd = 0x50000000 ∧
    (s.blk.phase = .idle ∨ s.blk.phase = .load →
      ((∀ x, ¬ Offends s.blk.ct x) →
        ∃ t, Answers .ubeg s t .ok false (BitVec.ofNat 9 ((List.range 256).countP (fun k => (s.blk.ctAt (BitVec.ofNat 8 k)).valid))) 0 [] ∧
          t.blk = { s.blk with path := [], hold := 0, holdValid := false, phase := .unpack } ∧ PrefixFree s.blk.ct) ∧
      (∀ x, Offends s.blk.ct x → (∀ y, y.toNat < x.toNat → ¬ Offends s.blk.ct y) →
        Faults .ubeg 0x50 .malformedTable 0x14 (x.setWidth 9) s)) ∧
    (s.blk.phase ∉ [.idle, .load, .fault] → OutOfSequence .ubeg 0x50 s)

/-- 44 R212, R213: `UNPK` decodes the byte held back before and holds the new one; a bit that leads to no node raises
`INVALID_CODE` with the held byte, and nothing is emitted. The table is prefix-free, as it is in every unpacking session. -/
def Obligations.UnpkDecodesTheHeldByte : Prop :=
  ∀ (s : State) (b : Byte), PrefixFree s.blk.ct →
    (encode (.unpk b)).cmd = 0x51000000 ||| b.setWidth 32 ∧
    (s.blk.phase = .unpack →
      (s.blk.holdValid = false → ∃ t, Answers (.unpk b) s t .ok false (BitVec.ofNat 9 s.blk.path.length) 0 [] ∧
        t.blk = { s.blk with hold := b, holdValid := true }) ∧
      (s.blk.holdValid = true → ∀ p o, Decodes s.blk.ct s.blk.path (bits8 s.blk.hold) p o →
        ∃ t, Answers (.unpk b) s t .ok false (BitVec.ofNat 9 p.length) 0 o ∧
          t.blk = { s.blk with path := p, hold := b, holdValid := true }) ∧
      (s.blk.holdValid = true → (∀ p o, ¬ Decodes s.blk.ct s.blk.path (bits8 s.blk.hold) p o) →
        Faults (.unpk b) 0x51 .invalidCode 0x16 (s.blk.hold.setWidth 9) s)) ∧
    (s.blk.phase ∉ [.unpack, .fault] → OutOfSequence (.unpk b) 0x51 s)

/-- 44 R215, R216: `UFIN` checks the count, decodes the first `u` bits of the held byte, wants to be back at the root, and
ends the session; its faults in the order the rule tests them. The table is prefix-free, as it is in every unpacking
session. -/
def Obligations.UfinDecodesTheUsedBits : Prop :=
  ∀ (s : State) (u : Byte), PrefixFree s.blk.ct →
    (encode (.ufin u)).cmd = 0x52000000 ||| u.setWidth 32 ∧
    (s.blk.phase = .unpack →
      (s.blk.holdValid = false → u = 0 → ∃ t, AnswersOk (.ufin u) s t ∧
        t.blk = { s.blk with path := [], hold := 0, holdValid := false, phase := .done }) ∧
      (s.blk.holdValid = false ∧ u ≠ 0 ∨ s.blk.holdValid = true ∧ (u = 0 ∨ 8 < u.toNat) →
        Faults (.ufin u) 0x52 .badFraming 0x17 (u.setWidth 9) s) ∧
      (s.blk.holdValid = true → u ≠ 0 → u.toNat ≤ 8 →
        (∀ o, Decodes s.blk.ct s.blk.path ((bits8 s.blk.hold).take u.toNat) [] o →
          ∃ t, Answers (.ufin u) s t .ok false 0 0 o ∧
            t.blk = { s.blk with path := [], hold := 0, holdValid := false, phase := .done }) ∧
        (∀ p o, Decodes s.blk.ct s.blk.path ((bits8 s.blk.hold).take u.toNat) p o → p ≠ [] →
          Faults (.ufin u) 0x52 .truncatedPayload 0x15 (BitVec.ofNat 9 p.length) s) ∧
        ((∀ p o, ¬ Decodes s.blk.ct s.blk.path ((bits8 s.blk.hold).take u.toNat) p o) →
          Faults (.ufin u) 0x52 .invalidCode 0x16 (s.blk.hold.setWidth 9) s))) ∧
    (s.blk.phase ∉ [.unpack, .fault] → OutOfSequence (.ufin u) 0x52 s)

/-- 44 R217: the padding bits are discarded unread: a last byte with other bits behind the used ones ends the session in the
same state with the same answer. -/
def Obligations.PaddingIsNotRead : Prop :=
  ∀ (s t : State) (u b : Byte), s.blk.holdValid = true →
    (bits8 b).take u.toNat = (bits8 s.blk.hold).take u.toNat →
    exec (.ufin u) s = .next t → t.blk.phase = .done →
    exec (.ufin u) { s with blk := { s.blk with hold := b } } = .next t

/-! ## The whole machine -/

/-- The invariant holds right after reset, for every legal `CNT_W`. -/
def Obligations.ResetMeetsTheInvariant : Prop := ∀ cfg : Config, cfg.wf → (State.resetWith cfg).Inv

/-- Every step keeps the invariant: counters below `2^CNT_W` (40 R135), node widths (41 R159), the arena a forest (10 R24,
R25), legal table entries (10 R28, R29), prefix-free codes in use (10 R30), `PEND` below 8 bits and only in a packing session
(10 R31), `FINAL_USED` at most 8 (10 R33), `PATH` a proper prefix of a code (10 R34), `HOLD` 0 when not valid (10 R35), and
`ERR` written once, by the fault that ended the session (10 R36, 60 R254, R255). -/
def Obligations.StepKeepsTheInvariant : Prop := ∀ s t : State, s.Inv → step s = .next t → t.Inv

/-- 70 R300: every command terminates, in every state that meets the invariant: a step neither stops with a fault of the
model nor is refused. -/
def Obligations.EveryStepHasANextState : Prop := ∀ s : State, s.Inv → ∃ t, step s = .next t

/-- The model never refuses, and stops with a fault only where `GEN` finds an arena that is no forest with its root in it,
which no state that meets the invariant is (log entry 7). -/
def Obligations.OnlyGenOnABrokenArenaStops : Prop :=
  ∀ (i : Instr) (s : State), (∃ t, exec i s = .next t) ∨
    exec i s = .fault .arenaNotATree ∧ i = .gen ∧ s.blk.phase = .tree ∧ s.blk.root.valid = true ∧
      ¬ (ArenaOk s.blk.node ∧ (s.blk.nodeAt s.blk.root.h).valid = true)

/-- 44 R221: the round trip. Encoding any source whose counts fit the counters, then decoding its payload with its table and
its used-bit count, runs without a fault and gives the source back. -/
def Obligations.DecodingAnEncodedSourceGivesItBack : Prop :=
  ∀ (cfg : Config) (src : List Byte), cfg.wf → (∀ x, src.count x < 2 ^ cfg.cntW) →
    ∃ u v, execAll (encodeSession src) (State.resetWith cfg) = some u ∧ u.blk.phase = .done ∧
      execAll (decodeSession u.blk.ct u.outStream (u.blk.finalUsed.setWidth 8)) (State.resetWith cfg) = some v ∧
      v.blk.phase = .done ∧ v.outStream = src
end

