-- ==== Sys2Proof/Laws/Bits.lean ====
section
/-! SUPPORT. Bit sequences, bytes and the 256-bit buses: their conversions undo each other. -/

namespace Sys2Proof.Machine

@[simp] theorem bitsVal_nil : bitsVal [] = 0 := rfl
theorem bitsVal_cons (b : Bool) (p : Bits) : bitsVal (b :: p) = b.toNat * 2 ^ p.length + bitsVal p := rfl

theorem bitsVal_lt (p : Bits) : bitsVal p < 2 ^ p.length := by
  induction p with
  | nil => simp
  | cons b p ih =>
    rw [bitsVal_cons, List.length_cons, Nat.pow_succ]
    cases b <;> simp <;> omega

theorem bitsVal_append (p q : Bits) : bitsVal (p ++ q) = bitsVal p * 2 ^ q.length + bitsVal q := by
  induction p with
  | nil => simp
  | cons b p ih =>
    simp only [List.cons_append, bitsVal_cons, ih, List.length_append, Nat.pow_add]
    ring

@[simp] theorem bitsVal_replicate_false (n : Nat) : bitsVal (List.replicate n false) = 0 := by
  induction n with
  | zero => rfl
  | succ n ih => simp [List.replicate_succ, bitsVal_cons, ih]

/-- The bits of the numeral, most significant first, are the sequence. -/
theorem testBit_bitsVal (p : Bits) (i : Nat) (h : i < p.length) :
    (bitsVal p).testBit (p.length - 1 - i) = p[i] := by
  induction p generalizing i with
  | nil => simp at h
  | cons b p ih =>
    rw [bitsVal_cons]
    have hb := bitsVal_lt p
    cases i with
    | zero =>
      simp only [List.length_cons, Nat.add_sub_cancel, Nat.sub_zero, List.getElem_cons_zero]
      cases b with
      | false => simp [Nat.testBit_lt_two_pow hb]
      | true =>
        simp only [Bool.toNat_true, Nat.one_mul]
        rw [Nat.testBit_two_pow_add_eq]
        simp [Nat.testBit_lt_two_pow hb]
    | succ i =>
      have hi : i < p.length := by simpa using h
      have e : (b :: p).length - 1 - (i + 1) = p.length - 1 - i := by simp; omega
      rw [e, List.getElem_cons_succ, ← ih i hi]
      cases b with
      | false => simp
      | true =>
        simp only [Bool.toNat_true, Nat.one_mul]
        rw [Nat.testBit_two_pow_add_gt]
        omega

@[simp] theorem msbFirst_length {w : Nat} (n : Nat) (v : BitVec w) : (msbFirst n v).length = n := by simp [msbFirst]
@[simp] theorem bits8_length (b : Byte) : (bits8 b).length = 8 := by simp [bits8]
@[simp] theorem codeOperand_length (len : Byte) (w : Data) : (codeOperand len w).length = len.toNat := by simp [codeOperand]

/-- A sequence left-aligned in a word is read back from its top bits. -/
theorem msbFirst_ofNat (w : Nat) (p : Bits) (h : p.length ≤ w) :
    msbFirst p.length (BitVec.ofNat w (bitsVal p * 2 ^ (w - p.length))) = p := by
  apply List.ext_getElem
  · simp
  · intro i h1 h2
    simp only [msbFirst, List.getElem_map, List.getElem_range]
    have hi : i < w := by omega
    rw [BitVec.getMsbD, BitVec.getLsbD_ofNat]
    simp only [hi, decide_true, Bool.true_and]
    have hw : w - 1 - i < w := by omega
    simp only [hw, decide_true, Bool.true_and]
    rw [Nat.testBit_mul_two_pow]
    have e1 : w - p.length ≤ w - 1 - i := by omega
    have e2 : w - 1 - i - (w - p.length) = p.length - 1 - i := by omega
    simp [e1, e2, testBit_bitsVal p i h2]

/-- `bits8(byte(p)) = p` for a sequence of 8 bits (00 R8). -/
theorem bits8_byteOf (p : Bits) (h : p.length = 8) : bits8 (byteOf p) = p := by
  have := msbFirst_ofNat 8 p (by omega)
  simpa [bits8, byteOf, h] using this

/-- `byte(bits8(B)) = B` (00 R8). -/
theorem byteOf_bits8 (b : Byte) : byteOf (bits8 b) = b := by
  revert b; decide +kernel

/-- A code of at most 256 bits, put left-aligned on the bus, is read back (20 R66, 30 R97). -/
theorem codeOperand_left256 (len : Byte) (p : Bits) (h : p.length = len.toNat) : codeOperand len (left256 p) = p := by
  have h8 := len.isLt
  have := msbFirst_ofNat 256 p (by omega)
  simpa [codeOperand, left256, h] using this

/-- Below a left-aligned code every bit is 0 (20 R66). -/
theorem strayBits_left256 (len : Byte) (p : Bits) (h : p.length = len.toNat) : strayBits len (left256 p) = false := by
  have h8 := len.isLt
  have hp := bitsVal_lt p
  simp only [strayBits, bne_eq_false_iff_eq]
  apply BitVec.eq_of_toNat_eq
  rw [BitVec.extractLsb'_toNat]
  have hlt : bitsVal p * 2 ^ (256 - p.length) < 2 ^ 256 := by
    calc bitsVal p * 2 ^ (256 - p.length) < 2 ^ p.length * 2 ^ (256 - p.length) :=
          Nat.mul_lt_mul_of_pos_right hp (by positivity)
      _ = 2 ^ 256 := by rw [← Nat.pow_add]; congr 1; omega
  rw [left256, BitVec.toNat_ofNat, Nat.mod_eq_of_lt hlt, h]
  simp

/-- Bit `i` of a field placed at bit `lo` of a data word. -/
theorem getLsbD_fieldAt {w : Nat} (v : BitVec w) (lo i : Nat) :
    (fieldAt v lo).getLsbD i = (decide (lo ≤ i) && decide (i < 256) && decide (i - lo < w) && v.getLsbD (i - lo)) := by
  simp only [fieldAt, BitVec.getLsbD_shiftLeft, BitVec.getLsbD_setWidth]
  by_cases h1 : lo ≤ i
  · by_cases h2 : i < 256
    · by_cases h3 : i - lo < w
      · simp [h1, h2, h3, show ¬ i < lo by omega, show i - lo < 256 by omega]
      · simp [h3, BitVec.getLsbD_of_ge v (i - lo) (by omega)]
    · simp [h2]
  · simp [h1, show i < lo by omega]

/-- A left-aligned sequence: element `i` in bit `255 - i`, every other bit 0 (20 R66). -/
theorem getMsbD_left256 (p : Bits) (h : p.length ≤ 256) (i : Nat) (hi : i < 256) : (left256 p).getMsbD i = (p[i]?).getD false := by
  rcases Nat.lt_or_ge i p.length with hl | hl
  · have := msbFirst_ofNat 256 p h
    have e := congrArg (fun l : Bits => l[i]?) this
    simp only [msbFirst, List.getElem?_map] at e
    rw [List.getElem?_range hl] at e
    rw [← e]; rfl
  · rw [List.getElem?_eq_none hl]
    simp only [left256, BitVec.getMsbD, BitVec.getLsbD_ofNat]
    rw [Nat.testBit_mul_two_pow]
    have : ¬ 256 - p.length ≤ 256 - 1 - i := by omega
    simp [this]

/-- The stray bits of `CTLD` are the bits at and below position `len` (42 R178). -/
theorem strayBits_iff (len : Byte) (w : Data) : strayBits len w = true ↔ ∃ i, len.toNat ≤ i ∧ i < 256 ∧ w.getMsbD i = true := by
  have h8 := len.isLt
  simp only [strayBits, bne_iff_ne, ne_eq]
  constructor
  · intro h
    by_contra hc
    push Not at hc
    apply h
    apply BitVec.eq_of_getLsbD_eq
    intro i hi
    have := hc (255 - i) (by omega) (by omega)
    rw [BitVec.getLsbD_extractLsb']
    simp only [BitVec.getMsbD] at this
    simp [hi]
    have e : 256 - 1 - (255 - i) = i := by omega
    rw [e] at this
    simpa [show 255 - i < 256 by omega] using this
  · rintro ⟨i, h1, h2, h3⟩ h
    have := congrArg (fun v => v.getLsbD (255 - i)) h
    simp only [BitVec.getLsbD_extractLsb'] at this
    simp only [BitVec.getMsbD] at h3
    have e : 256 - 1 - i = 255 - i := by omega
    rw [e] at h3
    simp [show 255 - i < 256 - len.toNat by omega] at this
    simp [h2, this] at h3

/-- The loop of `PACK`: the bytes hold the leading bits in order, fewer than 8 bits stay, and none is lost (43 R190, R197). -/
theorem drainLoop_spec (n : Nat) (w : Bits) (h : w.length ≤ n) :
    ((drainLoop n w).1.flatMap bits8) ++ (drainLoop n w).2 = w ∧ (drainLoop n w).2.length < 8 := by
  induction n generalizing w with
  | zero => simp_all [drainLoop]
  | succ n ih =>
    unfold drainLoop
    split
    · rename_i h8
      have := ih (w.drop 8) (by simp; omega)
      refine ⟨?_, this.2⟩
      simp only [List.flatMap_cons, List.append_assoc]
      rw [this.1, bits8_byteOf _ (by simp; omega), List.take_append_drop]
    · simp; omega

theorem drain_spec (w : Bits) : ((drain w).1.flatMap bits8) ++ (drain w).2 = w ∧ (drain w).2.length < 8 :=
  drainLoop_spec w.length w (Nat.le_refl _)

theorem flatMap_bits8_length (l : List Byte) : (l.flatMap bits8).length = 8 * l.length := by
  induction l with
  | nil => rfl
  | cons b l ih => simp [ih]; omega

/-- One `PACK` emits `|w| / 8` bytes and leaves `|w| mod 8` bits (43 R197). -/
theorem drain_length (w : Bits) : (drain w).1.length = w.length / 8 ∧ (drain w).2.length = w.length % 8 := by
  have h := drain_spec w
  have e := congrArg List.length h.1
  rw [List.length_append, flatMap_bits8_length] at e
  have := h.2
  omega

end Sys2Proof.Machine
end

