-- ==== Sys2Proof/Laws/Files.lean ====
section
/-! SUPPORT. The register files: a read after a write, and the list of all symbols. -/

namespace Sys2Proof.Machine

variable {α : Type}

theorem symGet_symSet (v : Vector α 256) (s t : Sym) (x : α) :
    symGet (symSet v s x) t = if t = s then x else symGet v t := by
  unfold symGet symSet
  rw [Vector.getElem_set]
  by_cases h : t = s
  · simp [h]
  · have : s.toNat ≠ t.toNat := fun e => h (BitVec.eq_of_toNat_eq e.symm)
    simp [h, this]

@[simp] theorem symGet_symSet_self (v : Vector α 256) (s : Sym) (x : α) : symGet (symSet v s x) s = x := by
  simp [symGet_symSet]

theorem symGet_symSet_ne (v : Vector α 256) {s t : Sym} (x : α) (h : t ≠ s) : symGet (symSet v s x) t = symGet v t := by
  simp [symGet_symSet, h]

@[simp] theorem symGet_replicate (s : Sym) (x : α) : symGet (Vector.replicate 256 x) s = x := by
  simp [symGet]

theorem symGet_ext {v w : Vector α 256} (h : ∀ s, symGet v s = symGet w s) : v = w := by
  ext i hi
  have := h (BitVec.ofNat 8 i)
  simpa [symGet, Nat.mod_eq_of_lt hi] using this

theorem nodeGet_nodeSet (a : Vector Node 511) (h k : Handle) (n : Node) :
    nodeGet (nodeSet a h n) k = if k = h ∧ h ≠ nilHandle then n else nodeGet a k := by
  have hn : ∀ x : Handle, x.toNat < 511 ↔ x ≠ nilHandle := by
    intro x
    constructor
    · rintro h rfl; simp at h
    · intro hx
      have := x.isLt
      have : x.toNat ≠ 511 := fun e => hx (BitVec.eq_of_toNat_eq (by simpa using e))
      omega
  unfold nodeGet nodeSet
  by_cases hh : h.toNat < 511
  · by_cases hk : k.toNat < 511
    · simp only [hh, hk, dif_pos]
      rw [Vector.getElem_set]
      by_cases e : k = h
      · subst e; simp [(hn k).1 hh]
      · have : h.toNat ≠ k.toNat := fun c => e (BitVec.eq_of_toNat_eq c.symm)
        simp [e, this]
    · have : k ≠ h := by rintro rfl; exact hk hh
      simp [hk, this]
  · have : h = nilHandle := by by_contra c; exact hh ((hn h).2 c)
    simp [this]

theorem nodeGet_nodeSet_ne (a : Vector Node 511) {h k : Handle} (n : Node) (e : k ≠ h) :
    nodeGet (nodeSet a h n) k = nodeGet a k := by
  simp [nodeGet_nodeSet, e]

theorem nodeGet_nodeSet_self (a : Vector Node 511) {h : Handle} (n : Node) (e : h ≠ nilHandle) :
    nodeGet (nodeSet a h n) h = n := by
  simp [nodeGet_nodeSet, e]

@[simp] theorem nodeGet_replicate (h : Handle) : nodeGet (Vector.replicate 511 Node.none) h = Node.none := by
  unfold nodeGet; split <;> simp

@[simp] theorem nodeGet_nil (a : Vector Node 511) : nodeGet a nilHandle = Node.none := by
  simp [nodeGet, nilHandle]

@[simp] theorem mem_allSyms (s : Sym) : s ∈ allSyms := by
  have := s.isLt
  simp only [allSyms, List.mem_map, List.mem_range]
  exact ⟨s.toNat, by omega, by simp⟩

theorem allSyms_nodup : allSyms.Nodup := by
  unfold allSyms
  refine List.Nodup.map_on ?_ List.nodup_range
  intro x hx y hy e
  simp only [List.mem_range] at hx hy
  have := congrArg BitVec.toNat e
  simpa [Nat.mod_eq_of_lt hx, Nat.mod_eq_of_lt hy] using this

/-- The list of all symbols ascends. -/
theorem allSyms_sorted : allSyms.Pairwise (fun s t => s.toNat < t.toNat) := by
  unfold allSyms
  rw [List.pairwise_map]
  refine List.Pairwise.imp_of_mem ?_ List.pairwise_lt_range
  intro x y hx hy h
  simp only [List.mem_range] at hx hy
  simpa [Nat.mod_eq_of_lt hx, Nat.mod_eq_of_lt hy] using h

@[simp] theorem allSyms_length : allSyms.length = 256 := by simp [allSyms]

@[simp] theorem reset_freqAt (s : Sym) : Block.reset.freqAt s = 0 := by simp [Block.freqAt, Block.reset]
@[simp] theorem reset_ctAt (s : Sym) : Block.reset.ctAt s = CodeEntry.none := by simp [Block.ctAt, Block.reset]
@[simp] theorem reset_nodeAt (h : Handle) : Block.reset.nodeAt h = Node.none := by simp [Block.nodeAt, Block.reset]

/-- `codeCount` counts symbols. -/
theorem codeCount_eq (ct : Vector CodeEntry 256) : codeCount ct = allSyms.countP (fun s => (symGet ct s).valid) := by
  have e : ct.toList = allSyms.map (symGet ct) := by
    apply List.ext_getElem
    · simp
    · intro i h1 h2
      have hi : i < 256 := by simpa using h1
      simp [allSyms, symGet, Nat.mod_eq_of_lt hi]
  rw [codeCount, e, List.countP_map]
  rfl

/-- The search in ascending order finds the smallest symbol with a property. -/
theorem find_allSyms (p : Sym → Bool) (x : Sym) (hx : p x = true) (hm : ∀ y, y.toNat < x.toNat → p y = false) : allSyms.find? p = some x := by
  rw [List.find?_eq_some_iff_append]
  refine ⟨hx, ?_⟩
  obtain ⟨as, bs, e⟩ := List.append_of_mem (mem_allSyms x)
  refine ⟨as, bs, e, ?_⟩
  intro a ha
  have := allSyms_sorted
  rw [e, List.pairwise_append] at this
  simp [hm a (this.2.2 a ha x (by simp))]

/-- `codeCount` counts the numbers 0..255. -/
theorem codeCount_range (ct : Vector CodeEntry 256) : codeCount ct = (List.range 256).countP (fun k => (symGet ct (BitVec.ofNat 8 k)).valid) := by
  rw [codeCount_eq, allSyms, List.countP_map]; rfl

theorem leafHandle_toNat (s : Sym) : (leafHandle s).toNat = s.toNat := by
  have := s.isLt
  simp [leafHandle, BitVec.toNat_setWidth]
  omega

theorem leafHandle_lt (s : Sym) : (leafHandle s).toNat < 256 := by
  rw [leafHandle_toNat]; have := s.isLt; omega

theorem leafHandle_inj {s t : Sym} : leafHandle s = leafHandle t ↔ s = t := by
  constructor
  · intro h
    have := congrArg BitVec.toNat h
    rw [leafHandle_toNat, leafHandle_toNat] at this
    exact BitVec.eq_of_toNat_eq this
  · rintro rfl; rfl

theorem leafHandle_ne_nil (s : Sym) : leafHandle s ≠ nilHandle := by
  intro h
  have := leafHandle_lt s
  rw [h] at this; simp at this

theorem leafHandle_setWidth {h : Handle} (p : h.toNat < 256) : leafHandle (h.setWidth 8) = h := by
  apply BitVec.eq_of_toNat_eq
  rw [leafHandle_toNat]
  simp [BitVec.toNat_setWidth]; omega

end Sys2Proof.Machine
end

