-- ==== Sys2Proof/Laws/State.lean ====
section
/-! SUPPORT. One lemma per field per named update or constant of the state and the response, true by rfl. -/

namespace Sys2Proof.Machine

@[simp] theorem resetWith_cfg (c : Config) : (State.resetWith c).cfg = c := rfl
@[simp] theorem resetWith_blk (c : Config) : (State.resetWith c).blk = Block.reset := rfl
@[simp] theorem resetWith_cmdq (c : Config) : (State.resetWith c).cmdq = [] := rfl
@[simp] theorem resetWith_rsps (c : Config) : (State.resetWith c).rsps = [] := rfl

@[simp] theorem reset_phase : Block.reset.phase = .idle := rfl
@[simp] theorem reset_root : Block.reset.root = { valid := false, h := nilHandle } := rfl
@[simp] theorem reset_nsym : Block.reset.nsym = 0 := rfl
@[simp] theorem reset_pend : Block.reset.pend = [] := rfl
@[simp] theorem reset_bpAny : Block.reset.bpAny = false := rfl
@[simp] theorem reset_finalUsed : Block.reset.finalUsed = 0 := rfl
@[simp] theorem reset_fuValid : Block.reset.fuValid = false := rfl
@[simp] theorem reset_path : Block.reset.path = [] := rfl
@[simp] theorem reset_hold : Block.reset.hold = 0 := rfl
@[simp] theorem reset_holdValid : Block.reset.holdValid = false := rfl
@[simp] theorem reset_err : Block.reset.err = { kind := 0, op := 0, ctx := 0, phase := 0 } := rfl

@[simp] theorem offerFirst_cfg (s : State) (c : Command) : (offerFirst s c).cfg = s.cfg := rfl
@[simp] theorem offerFirst_blk (s : State) (c : Command) : (offerFirst s c).blk = s.blk := rfl
@[simp] theorem offerFirst_cmdq (s : State) (c : Command) : (offerFirst s c).cmdq = c :: s.cmdq := rfl
@[simp] theorem offerFirst_rsps (s : State) (c : Command) : (offerFirst s c).rsps = s.rsps := rfl

@[simp] theorem responseOk_status : Response.ok.status = .ok := rfl
@[simp] theorem responseOk_flag : Response.ok.flag = false := rfl
@[simp] theorem responseOk_val : Response.ok.val = 0 := rfl
@[simp] theorem responseOk_rdata : Response.ok.rdata = 0 := rfl
@[simp] theorem responseOk_out : Response.ok.out = [] := rfl

@[simp] theorem responseAborted_status : Response.aborted.status = .aborted := rfl
@[simp] theorem responseAborted_flag : Response.aborted.flag = false := rfl
@[simp] theorem responseAborted_val : Response.aborted.val = 0 := rfl
@[simp] theorem responseAborted_rdata : Response.aborted.rdata = 0 := rfl
@[simp] theorem responseAborted_out : Response.aborted.out = [] := rfl

@[simp] theorem ofFault_status (k : FaultKind) (c : BitVec 9) : (Response.ofFault k c).status = .fault k := rfl
@[simp] theorem ofFault_flag (k : FaultKind) (c : BitVec 9) : (Response.ofFault k c).flag = false := rfl
@[simp] theorem ofFault_val (k : FaultKind) (c : BitVec 9) : (Response.ofFault k c).val = c := rfl
@[simp] theorem ofFault_rdata (k : FaultKind) (c : BitVec 9) : (Response.ofFault k c).rdata = 0 := rfl
@[simp] theorem ofFault_out (k : FaultKind) (c : BitVec 9) : (Response.ofFault k c).out = [] := rfl

@[simp] theorem buildBlock_phase (b : Block) : (buildBlock b).phase = .tree := rfl
@[simp] theorem buildBlock_freq (b : Block) : (buildBlock b).freq = b.freq := rfl
@[simp] theorem buildBlock_ct (b : Block) : (buildBlock b).ct = b.ct := rfl
@[simp] theorem buildBlock_pend (b : Block) : (buildBlock b).pend = b.pend := rfl
@[simp] theorem buildBlock_bpAny (b : Block) : (buildBlock b).bpAny = b.bpAny := rfl
@[simp] theorem buildBlock_finalUsed (b : Block) : (buildBlock b).finalUsed = b.finalUsed := rfl
@[simp] theorem buildBlock_fuValid (b : Block) : (buildBlock b).fuValid = b.fuValid := rfl
@[simp] theorem buildBlock_path (b : Block) : (buildBlock b).path = b.path := rfl
@[simp] theorem buildBlock_hold (b : Block) : (buildBlock b).hold = b.hold := rfl
@[simp] theorem buildBlock_holdValid (b : Block) : (buildBlock b).holdValid = b.holdValid := rfl
@[simp] theorem buildBlock_err (b : Block) : (buildBlock b).err = b.err := rfl
theorem buildBlock_nsym (b : Block) : (buildBlock b).nsym = val9 (leafList b.freq).length := rfl

end Sys2Proof.Machine
end

