-- ==== Sys2Proof/Laws/Ops.lean ====
section
/-! SUPPORT. Each shared operation, once: everything it can do. -/

namespace Sys2Proof.Machine

@[simp] theorem complete_eq_next (s t : State) (b : Block) (r : Response) :
    complete s b r = .next t ↔ { s with blk := b, rsps := s.rsps ++ [r] } = t := by
  simp [complete]

/-- `process` says no more than: illegal, aborted, out of sequence, or the command's own body (30 R106). -/
theorem process_cases (i : Instr) (s : State) (body : Host.Outcome State Fault Refusal) :
    (s.blk.phase = .fault ∧ (i.wellFormed = false ∨ runsInFault i = false) ∧ process i s body = abort s) ∨
    (s.blk.phase ≠ .fault ∧ i.wellFormed = false ∧ process i s body = takeFault i.op .illegalCommand i.idxField s) ∨
    (s.blk.phase ≠ .fault ∧ i.wellFormed = true ∧ legalIn i s.blk.phase = false ∧
      process i s body = takeFault i.op .sequenceError 0 s) ∨
    (i.wellFormed = true ∧ legalIn i s.blk.phase = true ∧ (s.blk.phase = .fault → runsInFault i = true) ∧
      process i s body = body) := by
  unfold process takeIllegal raise
  cases hw : i.wellFormed <;> cases hl : legalIn i s.blk.phase <;> cases hr : runsInFault i <;>
    by_cases hp : s.blk.phase = .fault <;> simp_all
  all_goals (cases i <;> simp_all [legalIn, runsInFault])

/-- A well-formed command legal in the phase runs its own body. -/
theorem process_body {i : Instr} {s : State} (body : Host.Outcome State Fault Refusal)
    (hw : i.wellFormed = true) (hl : legalIn i s.blk.phase = true) : process i s body = body := by
  unfold process
  have : ¬ (s.blk.phase = .fault ∧ runsInFault i = false) := by
    rintro ⟨hp, hr⟩
    rw [hp] at hl
    cases i <;> simp_all [legalIn, runsInFault]
  simp [hw, hl, this]

/-- A well-formed command that is not legal in a phase other than `FAULT` is out of sequence (60 R243). -/
theorem process_sequence {i : Instr} {s : State} (body : Host.Outcome State Fault Refusal)
    (hw : i.wellFormed = true) (hl : legalIn i s.blk.phase = false) (hp : s.blk.phase ≠ .fault) :
    process i s body = takeFault i.op .sequenceError 0 s := by
  simp [process, hw, hl, hp, raise]

/-- In `FAULT` every command but `NOP`, `CLR` and the reads is aborted (60 R250). -/
theorem process_abort {i : Instr} {s : State} (body : Host.Outcome State Fault Refusal)
    (hp : s.blk.phase = .fault) (hr : runsInFault i = false) : process i s body = abort s := by
  unfold process takeIllegal
  cases i.wellFormed <;> simp [hp, hr]

theorem takeFault_next (op : BitVec 8) (k : FaultKind) (ctx : BitVec 9) (s : State) :
    takeFault op k ctx s = .next { s with
      blk := { s.blk with err := { kind := k.num, op := op, ctx := ctx, phase := s.blk.phase.num }, phase := .fault },
      rsps := s.rsps ++ [{ status := .fault k, flag := false, val := ctx, rdata := 0, out := [] }] } := rfl

theorem abort_next (s : State) :
    abort s = .next { s with rsps := s.rsps ++ [{ status := .aborted, flag := false, val := 0, rdata := 0, out := [] }] } := rfl

/-- What a command answers, and what it does to the block, from what its meaning completes with. -/
theorem answers_of_complete {i : Instr} {s : State} {b : Block} {r : Response} (h : exec i s = complete s b r) :
    Answers i s { s with blk := b, rsps := s.rsps ++ [r] } r.status r.flag r.val r.rdata r.out :=
  ⟨h, rfl, rfl, rfl⟩

/-- A meaning that takes the fault entry raises the fault (60 R253). -/
theorem faults_of_takeFault {i : Instr} {op code : BitVec 8} {k : FaultKind} {ctx : BitVec 9} {s : State}
    (hk : k.num = code) (h : exec i s = takeFault op k ctx s) : Faults i op k code ctx s := by
  subst hk
  exact ⟨rfl, _, ⟨h, rfl, rfl, rfl⟩, rfl⟩

theorem aborts_of_abort {i : Instr} {s : State} (h : exec i s = abort s) : Aborts i s :=
  ⟨_, ⟨h, rfl, rfl, rfl⟩, rfl⟩

/-- `ACC` and `FADD` where the exact sum fits (40 R135). -/
theorem countUp_fits (i : Instr) (sym : Sym) (n : Nat) (s : State) (h : s.blk.freqAt sym + n < 2 ^ s.cfg.cntW) :
    countUp i sym n s = complete s
      { s.blk with freq := symSet s.blk.freq sym (s.blk.freqAt sym + n), phase := .count } Response.ok := by
  simp [countUp, addCount, h]

/-- `ACC` and `FADD` where it does not (40 R135, 60 R244). -/
theorem countUp_overflows (i : Instr) (sym : Sym) (n : Nat) (s : State) (h : 2 ^ s.cfg.cntW ≤ s.blk.freqAt sym + n) :
    countUp i sym n s = takeFault i.op .countOverflow (leafHandle sym) s := by
  simp [countUp, addCount, Nat.not_lt.2 h, raise]

end Sys2Proof.Machine
end

