-- ==== Sys2Proof/Laws/CodeTable.lean ====
section
/-! SUPPORT. `GEN`: the walk records the branches that lead to each leaf, and returns on every forest (42 R170, R171). -/

namespace Sys2Proof.Machine

/-- The branches that lead from a node to a handle below 256 from that handle itself: none. -/
theorem leads_of_leaf {a : Vector Node 511} {h k : Handle} {p : Bits} (hl : h.toNat < 256) (l : Leads a h p k) : p = [] ∧ k = h := by
  cases l with
  | here => exact ⟨rfl, rfl⟩
  | left h1 => omega
  | right h1 => omega

/-- From an internal node a leaf is reached through one of its branches. -/
theorem leads_internal {a : Vector Node 511} {h k : Handle} {p : Bits} (hh : 256 ≤ h.toNat) (hn : h ≠ nilHandle)
    (hk : k.toNat < 256) : Leads a h p k ↔
      (∃ q, p = false :: q ∧ Leads a (nodeGet a h).left q k) ∨ (∃ q, p = true :: q ∧ Leads a (nodeGet a h).right q k) := by
  constructor
  · intro l
    cases l with
    | here => omega
    | left h1 h2 l => exact .inl ⟨_, rfl, l⟩
    | right h1 h2 l => exact .inr ⟨_, rfl, l⟩
  · rintro (⟨q, rfl, l⟩ | ⟨q, rfl, l⟩)
    · exact .left hh hn l
    · exact .right hh hn l

/-- Two leaves are never on one path: where the branches to one leaf are a prefix of the branches to another, the leaves are
the same. -/
theorem leads_prefix {a : Vector Node 511} {r h k : Handle} {p q : Bits} (hh : h.toNat < 256) (l : Leads a r p h)
    (l' : Leads a r (p ++ q) k) : q = [] ∧ k = h := by
  induction l with
  | here => exact leads_of_leaf hh l'
  | left h1 h2 l ih => cases l' with | left _ _ l' => exact ih hh l'
  | right h1 h2 l ih => cases l' with | right _ _ l' => exact ih hh l'

/-- What the walk records where it returns: every leaf reached gets a path that leads to it, every other entry stays. -/
theorem walk_records {a : Vector Node 511} (n : Nat) {h : Handle} {p : Bits} {ct ct' : Vector CodeEntry 256}
    (e : walk a n h p ct = some ct') (x : Sym) :
    ((∃ q, Leads a h q (leafHandle x)) ∧ ∃ q, Leads a h q (leafHandle x) ∧ q.length ≤ n ∧ symGet ct' x = codeEntry (p ++ q)) ∨
    ((∀ q, ¬ Leads a h q (leafHandle x)) ∧ symGet ct' x = symGet ct x) := by
  induction n generalizing h p ct ct' with
  | zero =>
    unfold walk at e
    split at e
    · rename_i hl
      cases e
      by_cases hx : h = leafHandle x
      · subst hx
        have : ((leafHandle x).setWidth 8 : Sym) = x := leafHandle_inj.1 (leafHandle_setWidth hl)
        rw [this]
        exact .inl ⟨⟨[], .here _⟩, [], .here _, by simp, by simp⟩
      · refine .inr ⟨fun q l => hx (leads_of_leaf hl l).2.symm, symGet_symSet_ne _ _ ?_⟩
        rintro rfl; exact hx (leafHandle_setWidth hl).symm
    · split at e <;> cases e
  | succ n ih =>
    unfold walk at e
    split at e
    · rename_i hl
      cases e
      by_cases hx : h = leafHandle x
      · subst hx
        have : ((leafHandle x).setWidth 8 : Sym) = x := leafHandle_inj.1 (leafHandle_setWidth hl)
        rw [this]
        exact .inl ⟨⟨[], .here _⟩, [], .here _, by simp, by simp⟩
      · refine .inr ⟨fun q l => hx (leads_of_leaf hl l).2.symm, symGet_symSet_ne _ _ ?_⟩
        rintro rfl; exact hx (leafHandle_setWidth hl).symm
    · rename_i hl
      split at e
      · cases e
      · rename_i hn
        obtain ⟨ct1, e1, e2⟩ := Option.bind_eq_some_iff.1 e
        have li := fun p => leads_internal (a := a) (p := p) (Nat.not_lt.1 hl) hn (leafHandle_lt x)
        rcases ih e2 with ⟨-, q, l, hq, hs⟩ | ⟨hno, hs⟩
        · have := (li (true :: q)).2 (.inr ⟨q, rfl, l⟩)
          exact .inl ⟨⟨_, this⟩, _, this, by simp [hq], by rw [hs]; simp⟩
        · rcases ih e1 with ⟨-, q, l, hq, hs1⟩ | ⟨hno1, hs1⟩
          · have := (li (false :: q)).2 (.inl ⟨q, rfl, l⟩)
            exact .inl ⟨⟨_, this⟩, _, this, by simp [hq], by rw [hs, hs1]; simp⟩
          · refine .inr ⟨?_, by rw [hs, hs1]⟩
            intro q l
            rcases (li q).1 l with ⟨q', rfl, g⟩ | ⟨q', rfl, g⟩
            · exact hno1 q' g
            · exact hno q' g

/-- The walk returns on every forest: handles fall along a path, so 255 edges are enough below handle 510 (42 R175). -/
theorem walk_returns {a : Vector Node 511} (ha : ArenaOk a) (n : Nat) {h : Handle} (p : Bits) (ct : Vector CodeEntry 256)
    (hv : (nodeGet a h).valid = true) (hn : h.toNat ≤ 255 + n) : ∃ ct', walk a n h p ct = some ct' := by
  have nil : h ≠ nilHandle := by rintro rfl; simp [Node.none] at hv
  induction n generalizing h p ct with
  | zero => unfold walk; rw [if_pos (by omega)]; exact ⟨_, rfl⟩
  | succ n ih =>
    unfold walk
    split
    · exact ⟨_, rfl⟩
    · rename_i hl
      dsimp only
      obtain ⟨h1, h2, v1, v2, -⟩ := ha.internal h (by omega) hv
      have nn : ∀ {k : Handle}, (nodeGet a k).valid = true → k ≠ nilHandle := by rintro k hk rfl; simp [Node.none] at hk
      obtain ⟨c1, e1⟩ := ih (p ++ [false]) ct v1 (by omega) (nn v1)
      obtain ⟨c2, e2⟩ := ih (p ++ [true]) c1 v2 (by omega) (nn v2)
      exact ⟨c2, by simp [e1, e2]⟩

@[simp] theorem symGet_emptyTable (s : Sym) : symGet emptyTable s = CodeEntry.none := by simp [emptyTable]

/-- What `GEN` writes where it returns: an entry is empty, or it is the code "0" of a root that is a leaf, or it is a path
of 1 to 255 branches from the root to the symbol's leaf; reached leaves are exactly those with a code. -/
theorem genTable_some {b : Block} {ct : Vector CodeEntry 256} (e : genTable b = some ct) (x : Sym) :
    (b.root.valid = false ∧ symGet ct x = CodeEntry.none) ∨
    (b.root.valid = true ∧ b.root.h.toNat < 256 ∧
      symGet ct x = if leafHandle x = b.root.h then codeEntry [false] else CodeEntry.none) ∨
    (b.root.valid = true ∧ 256 ≤ b.root.h.toNat ∧
      ((∃ q, Leads b.node b.root.h q (leafHandle x) ∧ 1 ≤ q.length ∧ q.length ≤ 255 ∧ symGet ct x = codeEntry q) ∨
       ((∀ q, ¬ Leads b.node b.root.h q (leafHandle x)) ∧ symGet ct x = CodeEntry.none))) := by
  unfold genTable at e
  split at e
  · cases e; exact .inl ⟨‹_›, by simp⟩
  · rename_i hv
    have hv : b.root.valid = true := by simpa using hv
    split at e
    · rename_i hl
      cases e
      refine .inr (.inl ⟨hv, hl, ?_⟩)
      rw [symGet_symSet]
      have : x = b.root.h.setWidth 8 ↔ leafHandle x = b.root.h := by
        constructor
        · rintro rfl; exact leafHandle_setWidth hl
        · intro h; apply leafHandle_inj.1; rw [h, leafHandle_setWidth hl]
      simp [this]
    · rename_i hl
      refine .inr (.inr ⟨hv, by omega, ?_⟩)
      rcases walk_records 255 e x with ⟨-, q, l, hq, hs⟩ | ⟨hno, hs⟩
      · refine .inl ⟨q, l, ?_, hq, by simpa using hs⟩
        have hnil : b.root.h ≠ nilHandle := by
          intro c; rw [c] at e; simp [walk] at e
        rcases (leads_internal (by omega) hnil (leafHandle_lt x)).1 l with ⟨q', rfl, -⟩ | ⟨q', rfl, -⟩
        · simp
        · simp
      · exact .inr ⟨hno, by simpa using hs⟩

/-- `GEN` returns on every block whose arena is a forest and whose root, if there is one, is a node of it. -/
theorem genTable_returns {b : Block} (ha : ArenaOk b.node) (hr : b.root.valid = true → (b.nodeAt b.root.h).valid = true) :
    ∃ ct, genTable b = some ct := by
  unfold genTable
  split
  · exact ⟨_, rfl⟩
  · rename_i hv
    split
    · exact ⟨_, rfl⟩
    · have hv := hr (by simpa using hv)
      refine walk_returns ha 255 [] emptyTable hv ?_
      have : b.root.h ≠ nilHandle := by intro h; rw [Block.nodeAt, h] at hv; simp [Node.none] at hv
      have h1 := b.root.h.isLt
      have : b.root.h.toNat ≠ 511 := fun c => this (BitVec.eq_of_toNat_eq (by simpa using c))
      omega

end Sys2Proof.Machine
end

