-- ==== Sys2Proof/Laws/Decode.lean ====
section
/-! SUPPORT. The fields of a command word, and what a mask of 30 R95 asks of them. -/

namespace Sys2Proof

/-- A command word is its four fields (30 R91). -/
theorem cmd_eq_fields (c : Command) : c.cmd = c.op ++ c.rsv ++ c.idx ++ c.arg := by
  apply BitVec.eq_of_getLsbD_eq
  intro i hi
  simp only [Command.op, Command.rsv, Command.idx, Command.arg, BitVec.getLsbD_append, BitVec.getLsbD_extractLsb']
  rcases Nat.lt_or_ge i 8 with h | h
  · simp [h]
  · rcases Nat.lt_or_ge i 17 with h2 | h2
    · have e : ¬ i < 8 := by omega
      have e2 : i - 8 < 9 := by omega
      simp [e, e2, show 8 + (i - 8) = i by omega]
    · rcases Nat.lt_or_ge i 24 with h3 | h3
      · have e : ¬ i < 8 := by omega
        have e2 : ¬ i - 8 < 9 := by omega
        have e3 : i - 8 - 9 < 7 := by omega
        simp [e, e2, e3, show 17 + (i - 8 - 9) = i by omega]
      · have e : ¬ i < 8 := by omega
        have e2 : ¬ i - 8 < 9 := by omega
        have e3 : ¬ i - 8 - 9 < 7 := by omega
        have e4 : i - 8 - 9 - 7 < 8 := by omega
        simp [e, e2, e3, e4, show 24 + (i - 8 - 9 - 7) = i by omega]

/-- The word of the encoder, as its four fields (30 R91). -/
theorem commandWord_eq (op : BitVec 8) (idx : BitVec 9) (arg : BitVec 8) :
    commandWord op idx arg = op ++ 0#7 ++ idx ++ arg := by
  apply BitVec.eq_of_getLsbD_eq
  intro i hi
  simp only [commandWord, BitVec.getLsbD_or, BitVec.getLsbD_shiftLeft, BitVec.getLsbD_setWidth, BitVec.getLsbD_append]
  rcases Nat.lt_or_ge i 8 with h | h
  · simp [h, hi, show i < 24 by omega]
  · have ha : arg.getLsbD i = false := BitVec.getLsbD_of_ge _ _ h
    rcases Nat.lt_or_ge i 17 with h2 | h2
    · simp [show ¬ i < 8 by omega, show i - 8 < 9 by omega, show i < 24 by omega, hi, ha, show i - 8 < 32 by omega]
    · have hx : idx.getLsbD (i - 8) = false := BitVec.getLsbD_of_ge _ _ (by omega)
      rcases Nat.lt_or_ge i 24 with h3 | h3
      · simp [show ¬ i < 8 by omega, show ¬ i - 8 < 9 by omega, show i - 8 - 9 < 7 by omega, h3, hx, ha]
      · simp [show ¬ i < 8 by omega, show ¬ i - 8 < 9 by omega, show ¬ i - 8 - 9 < 7 by omega, hi,
          show ¬ i < 24 by omega, hx, ha, show i - 8 - 9 - 7 = i - 24 by omega, show i - 24 < 32 by omega]

theorem append4_eq {a a' : BitVec 8} {r r' : BitVec 7} {x x' : BitVec 9} {y y' : BitVec 8}
    (h : a ++ r ++ x ++ y = a' ++ r' ++ x' ++ y') : a = a' ∧ r = r' ∧ x = x' ∧ y = y' := by
  have g : ∀ i, (a ++ r ++ x ++ y).getLsbD i = (a' ++ r' ++ x' ++ y').getLsbD i := fun i => by rw [h]
  simp only [BitVec.getLsbD_append] at g
  refine ⟨?_, ?_, ?_, ?_⟩ <;> apply BitVec.eq_of_getLsbD_eq <;> intro i hi
  · have := g (24 + i)
    simpa [show ¬ 24 + i < 8 by omega, show ¬ 24 + i - 8 < 9 by omega,
      show ¬ 24 + i - 8 - 9 < 7 by omega, show 24 + i - 8 - 9 - 7 = i by omega] using this
  · have := g (17 + i)
    simpa [hi, show ¬ 17 + i < 8 by omega, show ¬ 17 + i - 8 < 9 by omega,
      show 17 + i - 8 - 9 < 7 by omega, show 17 + i - 8 - 9 = i by omega] using this
  · have := g (8 + i)
    simpa [hi, show ¬ 8 + i < 8 by omega, show 8 + i - 8 < 9 by omega, show 8 + i - 8 = i by omega] using this
  · have := g i
    simpa [hi] using this

/-- A word made of four fields has those fields (30 R91). -/
theorem fields_of_append (op : BitVec 8) (rsv : BitVec 7) (idx : BitVec 9) (arg : BitVec 8) (w : Data) :
    let c : Command := { cmd := op ++ rsv ++ idx ++ arg, wdata := w }
    c.op = op ∧ c.rsv = rsv ∧ c.idx = idx ∧ c.arg = arg := by
  intro c
  exact append4_eq (cmd_eq_fields c).symm

/-- The symbol field is the low 8 bits of the `idx` field (30 R91). -/
theorem sym_eq_idx (c : Command) : c.sym = c.idx.setWidth 8 := by
  apply BitVec.eq_of_getLsbD_eq
  intro i hi
  simp [Command.sym, Command.idx, hi, show i < 9 by omega]

theorem and_append4 (a a' : BitVec 8) (r r' : BitVec 7) (x x' : BitVec 9) (y y' : BitVec 8) :
    (a ++ r ++ x ++ y) &&& (a' ++ r' ++ x' ++ y') = (a &&& a') ++ (r &&& r') ++ (x &&& x') ++ (y &&& y') := by
  simp only [BitVec.and_append]

/-- Masking a word masks its fields. -/
theorem mask_fields (c : Command) (m p : CmdWord) (a' : BitVec 8) (r' : BitVec 7) (x' : BitVec 9) (y' : BitVec 8)
    (a : BitVec 8) (r : BitVec 7) (x : BitVec 9) (y : BitVec 8)
    (hm : m = a' ++ r' ++ x' ++ y') (hp : p = a ++ r ++ x ++ y) :
    c.cmd &&& m = p ↔ c.op &&& a' = a ∧ c.rsv &&& r' = r ∧ c.idx &&& x' = x ∧ c.arg &&& y' = y := by
  rw [cmd_eq_fields c, hm, hp, and_append4]
  constructor
  · exact append4_eq
  · rintro ⟨rfl, rfl, rfl, rfl⟩; rfl

/-- No two rows of 30 R95 have one opcode. -/
theorem ofCode_code (o : Op) : Op.ofCode o.code = some o := by cases o <;> rfl

theorem ofCode_some {b : BitVec 8} {o : Op} (h : Op.ofCode b = some o) : o.code = b := by
  have := List.find?_some h
  simpa using this

/-- What the mask of a row asks of the fields the row does not use: they are 0 (30 R99). -/
def Op.unusedZero (o : Op) (c : Command) : Prop :=
  match o with
  | .nop | .clr | .build | .gen | .flush | .ubeg => c.rsv = 0 ∧ c.idx = 0 ∧ c.arg = 0
  | .csrr | .unpk | .ufin => c.rsv = 0 ∧ c.idx = 0
  | .acc | .fadd | .frd | .ctrd | .pack => c.rsv = 0 ∧ c.idx &&& 0x100 = 0 ∧ c.arg = 0
  | .ndrd => c.rsv = 0 ∧ c.arg = 0
  | .ctld => c.rsv = 0 ∧ c.idx &&& 0x100 = 0

theorem mask_iff (o : Op) (c : Command) : c.cmd &&& o.mask = o.pattern ↔ c.op = o.code ∧ o.unusedZero c := by
  have f8 : ∀ x : BitVec 8, x &&& 0xFF = x := by decide +kernel
  have f7 : ∀ x : BitVec 7, x &&& 0x7F = x := by decide +kernel
  have f9 : ∀ x : BitVec 9, x &&& 0x1FF = x := by decide +kernel
  have z8 : ∀ x : BitVec 8, x &&& 0 = 0 := by decide +kernel
  have z9 : ∀ x : BitVec 9, x &&& 0 = 0 := by decide +kernel
  cases o
  case nop =>
    rw [mask_fields c _ _ 0xFF 0x7F 0x1FF 0xFF 0x00 0 0 0 (by decide) (by decide)]
    simp only [f8, f7, f9, Op.code, Op.unusedZero]
  case clr =>
    rw [mask_fields c _ _ 0xFF 0x7F 0x1FF 0xFF 0x01 0 0 0 (by decide) (by decide)]
    simp only [f8, f7, f9, Op.code, Op.unusedZero]
  case build =>
    rw [mask_fields c _ _ 0xFF 0x7F 0x1FF 0xFF 0x20 0 0 0 (by decide) (by decide)]
    simp only [f8, f7, f9, Op.code, Op.unusedZero]
  case gen =>
    rw [mask_fields c _ _ 0xFF 0x7F 0x1FF 0xFF 0x30 0 0 0 (by decide) (by decide)]
    simp only [f8, f7, f9, Op.code, Op.unusedZero]
  case flush =>
    rw [mask_fields c _ _ 0xFF 0x7F 0x1FF 0xFF 0x41 0 0 0 (by decide) (by decide)]
    simp only [f8, f7, f9, Op.code, Op.unusedZero]
  case ubeg =>
    rw [mask_fields c _ _ 0xFF 0x7F 0x1FF 0xFF 0x50 0 0 0 (by decide) (by decide)]
    simp only [f8, f7, f9, Op.code, Op.unusedZero]
  case csrr =>
    rw [mask_fields c _ _ 0xFF 0x7F 0x1FF 0 0x02 0 0 0 (by decide) (by decide)]
    simp only [f8, f7, f9, z8, Op.code, Op.unusedZero, and_true]
  case unpk =>
    rw [mask_fields c _ _ 0xFF 0x7F 0x1FF 0 0x51 0 0 0 (by decide) (by decide)]
    simp only [f8, f7, f9, z8, Op.code, Op.unusedZero, and_true]
  case ufin =>
    rw [mask_fields c _ _ 0xFF 0x7F 0x1FF 0 0x52 0 0 0 (by decide) (by decide)]
    simp only [f8, f7, f9, z8, Op.code, Op.unusedZero, and_true]
  case acc =>
    rw [mask_fields c _ _ 0xFF 0x7F 0x100 0xFF 0x10 0 0 0 (by decide) (by decide)]
    simp only [f8, f7, Op.code, Op.unusedZero]
  case fadd =>
    rw [mask_fields c _ _ 0xFF 0x7F 0x100 0xFF 0x11 0 0 0 (by decide) (by decide)]
    simp only [f8, f7, Op.code, Op.unusedZero]
  case frd =>
    rw [mask_fields c _ _ 0xFF 0x7F 0x100 0xFF 0x12 0 0 0 (by decide) (by decide)]
    simp only [f8, f7, Op.code, Op.unusedZero]
  case ctrd =>
    rw [mask_fields c _ _ 0xFF 0x7F 0x100 0xFF 0x31 0 0 0 (by decide) (by decide)]
    simp only [f8, f7, Op.code, Op.unusedZero]
  case pack =>
    rw [mask_fields c _ _ 0xFF 0x7F 0x100 0xFF 0x40 0 0 0 (by decide) (by decide)]
    simp only [f8, f7, Op.code, Op.unusedZero]
  case ndrd =>
    rw [mask_fields c _ _ 0xFF 0x7F 0 0xFF 0x21 0 0 0 (by decide) (by decide)]
    simp only [f8, f7, z9, Op.code, Op.unusedZero, true_and]
  case ctld =>
    rw [mask_fields c _ _ 0xFF 0x7F 0x100 0 0x32 0 0 0 (by decide) (by decide)]
    simp only [f8, f7, z8, Op.code, Op.unusedZero, and_true]

/-- A symbol in the `idx` field leaves `idx[8]` 0 and is read back (30 R97). -/
theorem symbol_field (s : Sym) : (s.setWidth 9 : BitVec 9) &&& 0x100 = 0 ∧ (s.setWidth 9).setWidth 8 = s := by
  revert s; decide +kernel

theorem symbol_of_field (x : BitVec 9) (h : x &&& 0x100 = 0) : (x.setWidth 8 : Sym).setWidth 9 = x := by
  revert x; decide +kernel

/-- Decoding a word that has the form of a row: what is left is the row's extra constraint (30 R105). -/
theorem decode_of_mask (o : Op) (c : Command) (h : c.cmd &&& o.mask = o.pattern) :
    decode c = if o = .ndrd ∧ c.idx = 511#9 then .error .noSuchNode
      else if o = .csrr ∧ 9 < c.arg.toNat then .error .noSuchCsr else .ok (o.operands c) := by
  have := (mask_iff o c).1 h
  simp only [decode, this.1, ofCode_code]
  simp [h]

/-- The fields of an encoded instruction (30 R91). -/
theorem fields_encode (i : Instr) :
    (encode i).op = i.op ∧ (encode i).rsv = 0 ∧ (encode i).idx = i.idxField ∧ (encode i).arg = i.argField := by
  have := fields_of_append i.op 0#7 i.idxField i.argField i.wdataField
  simp only [← commandWord_eq] at this
  exact this

/-- Opcodes tell rows apart (30 R95). -/
theorem code_inj {o o' : Op} (h : o.code = o'.code) : o = o' := by
  have := ofCode_code o
  rw [h, ofCode_code] at this
  exact (Option.some.inj this).symm

/-- An encoded instruction has the form of its own row and of no other (30 R95). -/
theorem encode_row (i : Instr) (hu : i.row.unusedZero (encode i)) (o : Op) :
    (encode i).cmd &&& o.mask = o.pattern ↔ o = i.row := by
  have h := (fields_encode i).1
  rw [mask_iff]
  constructor
  · rintro ⟨e, -⟩; exact (code_inj (h.symm.trans e)).symm
  · rintro rfl; exact ⟨h, hu⟩

end Sys2Proof
end

