-- ==== Sys2Proof/Laws/Exec.lean ====
section
/-! SUPPORT. Every meaning is `process` around its own body (30 R106); said once, so that whole-machine claims split on
`process_cases` and not on the sixteen meanings. -/

namespace Sys2Proof.Machine

/-- Step 4 of 30 R106 for each command. -/
def bodyOf (i : Instr) (s : State) : Host.Outcome State Fault Refusal :=
  match i with
  | .nop => complete s s.blk Response.ok
  | .clr => clearSession s
  | .csrr n => complete s s.blk { Response.ok with rdata := csrValue s n }
  | .acc sym => countUp (.acc sym) sym 1 s
  | .fadd sym c => countUp (.fadd sym c) sym c.toNat s
  | .frd sym => complete s s.blk
      { Response.ok with flag := countFlag (s.blk.freqAt sym), rdata := right256 (s.blk.freqAt sym) }
  | .build => complete s (buildBlock s.blk) (buildResponse (buildBlock s.blk))
  | .ndrd h => complete s s.blk { Response.ok with flag := (s.blk.nodeAt h).valid, rdata := nodeData (s.blk.nodeAt h) }
  | .gen => match genTable s.blk with
    | none => .fault .arenaNotATree
    | some ct => complete s { s.blk with ct := ct, phase := .code } { Response.ok with val := val9 (codeCount ct) }
  | .ctrd sym => complete s s.blk { Response.ok with
      flag := (s.blk.ctAt sym).valid, val := (s.blk.ctAt sym).len.setWidth 9, rdata := left256 (s.blk.ctAt sym).bits }
  | .ctld sym len w =>
    if len = 0 ∨ (s.blk.ctAt sym).valid = true ∨ strayBits len w = true then
      takeFault 0x32 .malformedTable (leafHandle sym) s
    else complete s
      { s.blk with ct := symSet s.blk.ct sym { valid := true, len := len, bits := codeOperand len w }, phase := .load }
      Response.ok
  | .pack sym =>
    if (s.blk.ctAt sym).valid = false then takeFault 0x40 .missingCodeEntry (leafHandle sym) s
    else complete s
      { s.blk with pend := (drain (s.blk.pend ++ (s.blk.ctAt sym).bits)).2,
                   bpAny := s.blk.bpAny || !(drain (s.blk.pend ++ (s.blk.ctAt sym).bits)).1.isEmpty, phase := .pack }
      { Response.ok with val := val9 (drain (s.blk.pend ++ (s.blk.ctAt sym).bits)).2.length,
                         out := (drain (s.blk.pend ++ (s.blk.ctAt sym).bits)).1 }
  | .flush => complete s
      { s.blk with pend := [], bpAny := s.blk.bpAny || decide (0 < s.blk.pend.length), finalUsed := finalUsedOf s.blk,
                   fuValid := true, phase := .done }
      { Response.ok with val := (finalUsedOf s.blk).setWidth 9, out := flushBytes s.blk }
  | .ubeg => match offender s.blk.ct with
    | some t => takeFault 0x50 .malformedTable (leafHandle t) s
    | none => complete s { s.blk with path := [], hold := 0, holdValid := false, phase := .unpack }
        { Response.ok with val := val9 (codeCount s.blk.ct) }
  | .unpk b =>
    if s.blk.holdValid = true then
      match decodeBits s.blk.ct s.blk.path (bits8 s.blk.hold) with
      | none => takeFault 0x51 .invalidCode (byteCtx s.blk.hold) s
      | some r => holdByte b r.1 r.2 s
    else holdByte b s.blk.path [] s
  | .ufin u =>
    if s.blk.holdValid = false then
      if u ≠ 0 then takeFault 0x52 .badFraming (byteCtx u) s else finishUnpack [] s
    else if u = 0 ∨ 8 < u.toNat then takeFault 0x52 .badFraming (byteCtx u) s
    else match decodeBits s.blk.ct s.blk.path ((bits8 s.blk.hold).take u.toNat) with
      | none => takeFault 0x52 .invalidCode (byteCtx s.blk.hold) s
      | some r => if r.1 ≠ [] then takeFault 0x52 .truncatedPayload (val9 r.1.length) s else finishUnpack r.2 s

theorem exec_eq_process (i : Instr) (s : State) : exec i s = process i s (bodyOf i s) := by
  cases i
  case ctld sym len w =>
    simp only [exec, execCtld, bodyOf]
    congr 1
    split_ifs <;> first | rfl | simp_all
  case unpk b =>
    simp only [exec, execUnpk, bodyOf]
    congr 1
    cases decodeBits s.blk.ct s.blk.path (bits8 s.blk.hold) <;> rfl
  case ufin u =>
    simp only [exec, execUfin, bodyOf]
    congr 1
    cases decodeBits s.blk.ct s.blk.path ((bits8 s.blk.hold).take u.toNat) <;> rfl
  all_goals rfl

/-- A well-formed command that is legal in the phase does what its rule says. -/
theorem exec_body {i : Instr} {s : State} (hw : i.wellFormed = true) (hl : legalIn i s.blk.phase = true) :
    exec i s = bodyOf i s := (exec_eq_process i s).trans (process_body _ hw hl)

/-- A well-formed command that is not legal in a phase other than `FAULT` is out of sequence (60 R243). -/
theorem exec_outOfSequence {i : Instr} {s : State} (hw : i.wellFormed = true) (hl : legalIn i s.blk.phase = false)
    (hp : s.blk.phase ≠ .fault) : OutOfSequence i i.op s :=
  faults_of_takeFault rfl ((exec_eq_process i s).trans (process_sequence _ hw hl hp))

/-- In `FAULT` every command but `NOP`, `CLR` and the reads is aborted (60 R250). -/
theorem exec_aborts {i : Instr} {s : State} (hp : s.blk.phase = .fault) (hr : runsInFault i = false) : Aborts i s :=
  aborts_of_abort ((exec_eq_process i s).trans (process_abort _ hp hr))

/-- Everything any command can do to the machine's ports: one response more, nothing else (30 R92). -/
theorem exec_next_ports {i : Instr} {s t : State} (h : exec i s = .next t) :
    t.cfg = s.cfg ∧ t.cmdq = s.cmdq ∧ ∃ r, t.rsps = s.rsps ++ [r] := by
  have hc : ∀ (b : Block) (r : Response), complete s b r = .next t → t.cfg = s.cfg ∧ t.cmdq = s.cmdq ∧ ∃ r, t.rsps = s.rsps ++ [r] := by
    intro b r e
    rw [complete_eq_next] at e
    subst e
    exact ⟨rfl, rfl, r, rfl⟩
  rw [exec_eq_process] at h
  rcases process_cases i s (bodyOf i s) with ⟨-, -, e⟩ | ⟨-, -, e⟩ | ⟨-, -, -, e⟩ | ⟨-, -, -, e⟩ <;> rw [e] at h
  · exact hc _ _ h
  · exact hc _ _ h
  · exact hc _ _ h
  · cases i <;> simp only [bodyOf, countUp, holdByte, finishUnpack, takeFault, raise, clearSession] at h
    all_goals first | exact hc _ _ h | skip
    all_goals split at h
    all_goals first | exact hc _ _ h | contradiction | skip
    all_goals split at h
    all_goals first | exact hc _ _ h | skip
    all_goals split at h
    all_goals first | exact hc _ _ h | skip
    all_goals split at h
    all_goals exact hc _ _ h

theorem legal_iff (i : Instr) (p : Phase) : legalIn i p = true ↔ p ∈ legalPhases i := by
  cases i <;> cases p <;> simp [legalIn, legalPhases]

theorem runs_iff (i : Instr) : runsInFault i = true ↔ Phase.fault ∈ legalPhases i := by
  cases i <;> simp [runsInFault, legalPhases]

/-- Step 4 of 30 R106 ends in the fault entry, or completes in the phase of the transition table (10 R47). -/
theorem body_cases (i : Instr) (s t : State) (hl : legalIn i s.blk.phase = true) (h : bodyOf i s = .next t) :
   (∃ k ctx, bodyOf i s = takeFault i.op k ctx s) ∨ ∃ b r, bodyOf i s = complete s b r ∧ (r.status = .ok ∨ r.status = .emptyInput) ∧ b.phase = phaseAfter i s.blk.phase := by
  cases i <;> simp only [bodyOf, countUp, raise, holdByte, finishUnpack, clearSession] at h ⊢
  case nop => exact .inr ⟨_, _, rfl, .inl rfl, rfl⟩
  case clr => exact .inr ⟨_, _, rfl, .inl rfl, rfl⟩
  case csrr => exact .inr ⟨_, _, rfl, .inl rfl, rfl⟩
  case frd => exact .inr ⟨_, _, rfl, .inl rfl, rfl⟩
  case ndrd => exact .inr ⟨_, _, rfl, .inl rfl, rfl⟩
  case ctrd => exact .inr ⟨_, _, rfl, .inl rfl, rfl⟩
  case acc => 
    split
    · exact .inl ⟨_, _, rfl⟩
    · exact .inr ⟨_, _, rfl, .inl rfl, rfl⟩
  case fadd => 
    split
    · exact .inl ⟨_, _, rfl⟩
    · exact .inr ⟨_, _, rfl, .inl rfl, rfl⟩
  case build =>
    refine .inr ⟨_, _, rfl, ?_, rfl⟩
    unfold buildResponse; split <;> simp
  case gen =>
    split at h
    · contradiction
    · exact .inr ⟨_, _, rfl, .inl rfl, rfl⟩
  case ctld =>
    split
    · exact .inl ⟨_, _, rfl⟩
    · exact .inr ⟨_, _, rfl, .inl rfl, rfl⟩
  case pack =>
    split
    · exact .inl ⟨_, _, rfl⟩
    · exact .inr ⟨_, _, rfl, .inl rfl, rfl⟩
  case flush => exact .inr ⟨_, _, rfl, .inl rfl, rfl⟩
  case ubeg =>
    split
    · exact .inl ⟨_, _, rfl⟩
    · exact .inr ⟨_, _, rfl, .inl rfl, rfl⟩
  case unpk =>
    have hl : s.blk.phase = .unpack := by simpa [legalIn] using hl
    repeat' split
    all_goals first | exact .inl ⟨_, _, rfl⟩ | exact .inr ⟨_, _, rfl, .inl rfl, hl⟩
  case ufin =>
    repeat' split
    all_goals first | exact .inl ⟨_, _, rfl⟩ | exact .inr ⟨_, _, rfl, .inl rfl, rfl⟩

/-- Everything a command can do, where it answers: aborted, the fault entry, or completed by its own body in the phase of
the transition table (30 R106, 10 R47). -/
theorem exec_cases (i : Instr) (s t : State) (h : exec i s = .next t) :
   (s.blk.phase = .fault ∧ (i.wellFormed = false ∨ runsInFault i = false) ∧ exec i s = abort s) ∨
   (s.blk.phase ≠ .fault ∧ ∃ k ctx, exec i s = takeFault i.op k ctx s) ∨ 
   (i.wellFormed = true ∧ legalIn i s.blk.phase = true ∧ bodyOf i s = exec i s ∧ ∃ b r, exec i s = complete s b r ∧ (r.status = .ok ∨ r.status = .emptyInput) ∧ b.phase = phaseAfter i s.blk.phase) := by
  rw [exec_eq_process] at h ⊢
  rcases process_cases i s (bodyOf i s) with ⟨h1, h2, e⟩ | ⟨h1, -, e⟩ | ⟨h1, -, -, e⟩ | ⟨h1, h2, h3, e⟩
  · exact .inl ⟨h1, h2, e⟩
  · exact .inr (.inl ⟨h1, _, _, e⟩)
  · exact .inr (.inl ⟨h1, _, _, e⟩)
  · rw [e] at h ⊢
    rcases body_cases i s t (by assumption) h with ⟨k, c, e⟩ | ⟨b, r, e, hr, hp⟩
    · refine .inr (.inl ⟨?_, k, c, e⟩)
      intro hf
      have := h3 hf
      rw [hf] at h2
      cases i <;> simp [runsInFault] at this <;> simp [bodyOf, complete, takeFault, clearSession, Response.ofFault, Response.ok] at e
    · exact .inr (.inr ⟨h1, h2, rfl, b, r, e, hr, hp⟩)

end Sys2Proof.Machine
end

