-- ==== Sys2Proof/Laws/PerInstr.lean ====
section
/-! SUPPORT. Claims about every instruction as syntax, one lemma per constructor.
`OpcodeField`: the word of an instruction has the form of its own row of 30 R95 and of no other row. -/

namespace Sys2Proof.Laws.OpcodeField

/-- The encoded word matches the row's (`match`, `mask`) and no other row's; its `rsv` field is 0 (30 R91, R95). -/
def Statement (i : Instr) : Prop :=
  (∀ o : Op, (encode i).cmd &&& o.mask = o.pattern ↔ o = i.row) ∧ (encode i).rsv = 0

theorem of_unusedZero {i : Instr} (h : i.row.unusedZero (encode i)) : Statement i := ⟨encode_row i h, (fields_encode i).2.1⟩

theorem nop : Statement .nop :=
  have f := fields_encode .nop
  of_unusedZero f.2

theorem clr : Statement .clr :=
  have f := fields_encode .clr
  of_unusedZero f.2

theorem csrr (n : Byte) : Statement (.csrr n) :=
  have f := fields_encode (.csrr n)
  of_unusedZero ⟨f.2.1, f.2.2.1⟩

theorem acc (sym : Sym) : Statement (.acc sym) :=
  have f := fields_encode (.acc sym)
  of_unusedZero ⟨f.2.1, by rw [f.2.2.1]; exact (symbol_field sym).1, f.2.2.2⟩

theorem fadd (sym : Sym) (c : Data) : Statement (.fadd sym c) :=
  have f := fields_encode (.fadd sym c)
  of_unusedZero ⟨f.2.1, by rw [f.2.2.1]; exact (symbol_field sym).1, f.2.2.2⟩

theorem frd (sym : Sym) : Statement (.frd sym) :=
  have f := fields_encode (.frd sym)
  of_unusedZero ⟨f.2.1, by rw [f.2.2.1]; exact (symbol_field sym).1, f.2.2.2⟩

theorem build : Statement .build :=
  have f := fields_encode .build
  of_unusedZero f.2

theorem ndrd (h : Handle) : Statement (.ndrd h) :=
  have f := fields_encode (.ndrd h)
  of_unusedZero ⟨f.2.1, f.2.2.2⟩

theorem gen : Statement .gen :=
  have f := fields_encode .gen
  of_unusedZero f.2

theorem ctrd (sym : Sym) : Statement (.ctrd sym) :=
  have f := fields_encode (.ctrd sym)
  of_unusedZero ⟨f.2.1, by rw [f.2.2.1]; exact (symbol_field sym).1, f.2.2.2⟩

theorem ctld (sym : Sym) (len : Byte) (wdata : Data) : Statement (.ctld sym len wdata) :=
  have f := fields_encode (.ctld sym len wdata)
  of_unusedZero ⟨f.2.1, by rw [f.2.2.1]; exact (symbol_field sym).1⟩

theorem pack (sym : Sym) : Statement (.pack sym) :=
  have f := fields_encode (.pack sym)
  of_unusedZero ⟨f.2.1, by rw [f.2.2.1]; exact (symbol_field sym).1, f.2.2.2⟩

theorem flush : Statement .flush :=
  have f := fields_encode .flush
  of_unusedZero f.2

theorem ubeg : Statement .ubeg :=
  have f := fields_encode .ubeg
  of_unusedZero f.2

theorem unpk (b : Byte) : Statement (.unpk b) :=
  have f := fields_encode (.unpk b)
  of_unusedZero ⟨f.2.1, f.2.2.1⟩

theorem ufin (u : Byte) : Statement (.ufin u) :=
  have f := fields_encode (.ufin u)
  of_unusedZero ⟨f.2.1, f.2.2.1⟩

end Sys2Proof.Laws.OpcodeField
end

