-- ==== Sys2Proof/Laws/Tree.lean ====
section
/-! SUPPORT. `BUILD`: the leaves it plants, the queue it sorts, and what its combination loop keeps (41 R150 to R160). -/

namespace Sys2Proof.Machine

/-! ## The leaves and the queue -/

theorem mem_leafList (freq : Vector Nat 256) (s : Sym) : s ∈ leafList freq ↔ symGet freq s ≠ 0 := by
  simp [leafList]

theorem leafList_nodup (freq : Vector Nat 256) : (leafList freq).Nodup := allSyms_nodup.filter _

theorem leafList_sorted (freq : Vector Nat 256) : (leafList freq).Pairwise (fun s t => s.toNat < t.toNat) :=
  allSyms_sorted.filter _

theorem leafList_length (freq : Vector Nat 256) : (leafList freq).length ≤ 256 := by
  have := List.length_filter_le (fun s => symGet freq s != 0) allSyms
  simpa [leafList] using this

theorem entries_eq (b : Block) : entries b = (leafList b.freq).length := by
  unfold leafList entries allSyms
  rw [← List.countP_eq_length_filter, List.countP_map]
  rfl

theorem nodeGet_plantLeaves_aux (freq : Vector Nat 256) (l : List Sym) (a : Vector Node 511) (h : Handle) :
    nodeGet (l.foldl (fun a s => nodeSet a (leafHandle s) (leafNode (symGet freq s))) a) h =
      if h.toNat < 256 ∧ (h.setWidth 8 : Sym) ∈ l then leafNode (symGet freq (h.setWidth 8)) else nodeGet a h := by
  induction l generalizing a with
  | nil => simp
  | cons s l ih =>
    rw [List.foldl_cons, ih]
    by_cases hl : h.toNat < 256
    · by_cases hm : (h.setWidth 8 : Sym) ∈ l
      · simp [hl, hm]
      · by_cases he : (h.setWidth 8 : Sym) = s
        · subst he
          rw [if_neg (by simp [hm]), if_pos ⟨hl, by simp⟩, leafHandle_setWidth hl, nodeGet_nodeSet_self]
          rintro rfl; simp at hl
        · rw [if_neg (by simp [hm]), if_neg (by simp [hm, he]), nodeGet_nodeSet_ne]
          rintro rfl
          apply he
          apply BitVec.eq_of_toNat_eq
          have := s.isLt
          simp [leafHandle_toNat, BitVec.toNat_setWidth]; omega
    · rw [if_neg (by simp [hl]), if_neg (by simp [hl]), nodeGet_nodeSet_ne]
      rintro rfl
      exact hl (leafHandle_lt s)

/-- The arena before the first combination: the leaf of every symbol with an entry, nothing else (41 R150, R151). -/
theorem nodeGet_plantLeaves (freq : Vector Nat 256) (h : Handle) :
    nodeGet (plantLeaves freq (leafList freq)) h =
      if h.toNat < 256 ∧ symGet freq (h.setWidth 8) ≠ 0 then leafNode (symGet freq (h.setWidth 8)) else Node.none := by
  unfold plantLeaves
  rw [nodeGet_plantLeaves_aux]
  simp [mem_leafList]

theorem nodeGet_plantLeaves_leaf (freq : Vector Nat 256) (s : Sym) :
    nodeGet (plantLeaves freq (leafList freq)) (leafHandle s) =
      if symGet freq s ≠ 0 then leafNode (symGet freq s) else Node.none := by
  have e : ((leafHandle s).setWidth 8 : Sym) = s := by
    apply leafHandle_inj.1
    exact leafHandle_setWidth (leafHandle_lt s)
  rw [nodeGet_plantLeaves, e]
  simp [leafHandle_lt]

/-- Insertion adds one element and loses none. -/
theorem insertNode_perm (a : Vector Node 511) (q : List Handle) (h : Handle) : (insertNode a q h).Perm (h :: q) := by
  unfold insertNode
  dsimp only
  refine List.perm_middle.trans ?_
  rw [List.take_append_drop]

@[simp] theorem insertNode_length (a : Vector Node 511) (q : List Handle) (h : Handle) :
    (insertNode a q h).length = q.length + 1 := by simpa using (insertNode_perm a q h).length_eq

@[simp] theorem mem_insertNode (a : Vector Node 511) (q : List Handle) (h x : Handle) :
    x ∈ insertNode a q h ↔ x = h ∨ x ∈ q := by simpa using (insertNode_perm a q h).mem_iff

theorem foldl_insertNode_perm (a : Vector Node 511) (l q : List Handle) :
    (l.foldl (insertNode a) q).Perm (l ++ q) := by
  induction l generalizing q with
  | nil => exact List.Perm.refl _
  | cons h l ih =>
    rw [List.foldl_cons, List.cons_append]
    exact (ih _).trans ((List.Perm.append_left l (insertNode_perm a q h)).trans List.perm_middle)

theorem initialQueue_perm (a : Vector Node 511) (l : List Sym) : (initialQueue a l).Perm (l.map leafHandle) := by
  simpa [initialQueue] using foldl_insertNode_perm a (l.map leafHandle) []

/-! ## The combination loop -/

/-- What every turn of `while |Q| ≥ 2` finds: the arena `a` is a forest whose roots are the handles of `q`, the internal
nodes below `next` are in use, and `n` is the number of leaves (41 R150, R153 to R159). -/
structure Forest (n : Nat) (a : Vector Node 511) (next : Handle) (q : List Handle) : Prop where
  count : next.toNat + q.length = 256 + n
  bound : n ≤ 256
  base : 256 ≤ next.toNat
  arena : ArenaOk a
  used : ∀ h : Handle, 256 ≤ h.toNat → ((nodeGet a h).valid = true ↔ h.toNat < next.toNat)
  valid : ∀ h ∈ q, (nodeGet a h).valid = true
  reach : ∀ h : Handle, (nodeGet a h).valid = true → ∃ r ∈ q, ∃ p, Leads a r p h
  unique : ∀ r ∈ q, ∀ r' ∈ q, ∀ p p' h, Leads a r p h → Leads a r' p' h → r = r' ∧ p = p'
  nodup : q.Nodup

theorem valid_lt_next {n a next q} (F : Forest n a next q) {h : Handle} (hv : (nodeGet a h).valid = true) :
    h.toNat < next.toNat := by
  by_cases hh : 256 ≤ h.toNat
  · exact (F.used h hh).1 hv
  · have := F.base; omega

/-- Writing a node that no valid node reaches changes no path from a valid node. -/
theorem leads_nodeSet {a : Vector Node 511} {k : Handle} {m : Node} (ha : ArenaOk a) (hk : (nodeGet a k).valid = false)
    {r h : Handle} {p : Bits} (hr : (nodeGet a r).valid = true) : Leads (nodeSet a k m) r p h ↔ Leads a r p h := by
  have hne : ∀ {r : Handle}, (nodeGet a r).valid = true → nodeGet (nodeSet a k m) r = nodeGet a r := by
    intro r hr
    apply nodeGet_nodeSet_ne
    rintro rfl; rw [hk] at hr; cases hr
  constructor
  · intro hl
    induction hl with
    | here h => exact .here h
    | left h1 h2 hl ih =>
      rw [hne hr] at ih hl
      exact .left h1 h2 (ih (ha.internal _ h1 hr).2.2.1)
    | right h1 h2 hl ih =>
      rw [hne hr] at ih hl
      exact .right h1 h2 (ih (ha.internal _ h1 hr).2.2.2.1)
  · intro hl
    induction hl with
    | here h => exact .here h
    | left h1 h2 hl ih =>
      have := ih (ha.internal _ h1 hr).2.2.1
      rw [← hne hr] at this
      exact .left h1 h2 this
    | right h1 h2 hl ih =>
      have := ih (ha.internal _ h1 hr).2.2.2.1
      rw [← hne hr] at this
      exact .right h1 h2 this

/-- One combination step keeps the forest (41 R153, R154, R158). -/
theorem forest_step {n a next x y q} (F : Forest n a next (x :: y :: q)) :
    Forest n (nodeSet a next (joinNode a x y)) (next + 1) (insertNode (nodeSet a next (joinNode a x y)) q next) := by
  have hc := F.count
  have hb := F.bound
  have h256 := F.base
  simp only [List.length_cons] at hc
  have hnext : next.toNat < 511 := by omega
  have hnil : next ≠ nilHandle := by rintro rfl; simp at hnext
  have hs : (next + 1).toNat = next.toNat + 1 := by
    rw [BitVec.toNat_add]; simp; omega
  have hk : (nodeGet a next).valid = false := by
    rw [Bool.eq_false_iff, ne_eq, F.used next h256]; omega
  have vx := F.valid x (by simp)
  have vy := F.valid y (by simp)
  have lx := valid_lt_next F vx
  have ly := valid_lt_next F vy
  have self : nodeGet (nodeSet a next (joinNode a x y)) next = joinNode a x y := nodeGet_nodeSet_self _ _ hnil
  have other : ∀ {h : Handle}, h ≠ next → nodeGet (nodeSet a next (joinNode a x y)) h = nodeGet a h :=
    fun e => nodeGet_nodeSet_ne _ _ e
  have keep : ∀ {h : Handle}, (nodeGet a h).valid = true → nodeGet (nodeSet a next (joinNode a x y)) h = nodeGet a h := by
    intro h hv; apply other; rintro rfl; rw [hk] at hv; cases hv
  have lead : ∀ {r h : Handle} {p : Bits}, (nodeGet a r).valid = true →
      (Leads (nodeSet a next (joinNode a x y)) r p h ↔ Leads a r p h) := fun hr => leads_nodeSet F.arena hk hr
  have leadNext : ∀ {p : Bits} {h : Handle}, Leads (nodeSet a next (joinNode a x y)) next p h ↔
      (p = [] ∧ h = next) ∨ (∃ p', p = false :: p' ∧ Leads a x p' h) ∨ (∃ p', p = true :: p' ∧ Leads a y p' h) := by
    intro p h
    constructor
    · intro hl
      cases hl with
      | here => exact .inl ⟨rfl, rfl⟩
      | left h1 h2 hl => rw [self] at hl; exact .inr (.inl ⟨_, rfl, (lead vx).1 hl⟩)
      | right h1 h2 hl => rw [self] at hl; exact .inr (.inr ⟨_, rfl, (lead vy).1 hl⟩)
    · rintro (⟨rfl, rfl⟩ | ⟨p', rfl, hl⟩ | ⟨p', rfl, hl⟩)
      · exact .here _
      · exact .left h256 hnil (by rw [self]; exact (lead vx).2 hl)
      · exact .right h256 hnil (by rw [self]; exact (lead vy).2 hl)
  have vq : ∀ {r : Handle}, r ∈ q → (nodeGet a r).valid = true := fun hr => F.valid _ (by simp [hr])
  have hnd := F.nodup
  simp only [List.nodup_cons, List.mem_cons, not_or] at hnd
  -- a path from an old root never ends in the new node
  have noNext : ∀ {r : Handle} {p : Bits}, (nodeGet a r).valid = true → ¬ Leads a r p next := by
    intro r p hr hl
    have : ∀ {r h : Handle} {p : Bits}, Leads a r p h → (nodeGet a r).valid = true → (nodeGet a h).valid = true := by
      intro r h p hl
      induction hl with
      | here => exact id
      | left h1 h2 hl ih => exact fun hv => ih (F.arena.internal _ h1 hv).2.2.1
      | right h1 h2 hl ih => exact fun hv => ih (F.arena.internal _ h1 hv).2.2.2.1
    have := this hl hr
    rw [hk] at this; cases this
  refine ⟨?_, hb, by omega, ⟨?_, ?_, ?_⟩, ?_, ?_, ?_, ?_, ?_⟩
  · rw [insertNode_length, hs]; omega
  · intro h hv
    by_cases e : h = next
    · rw [e, self] at hv; simp [joinNode] at hv
    · rw [other e] at hv ⊢; exact F.arena.invalid h hv
  · intro s hv
    have e : (s.setWidth 9 : Handle) ≠ next := by
      rintro e
      have := leafHandle_lt s
      rw [leafHandle, e] at this; omega
    rw [other e] at hv ⊢; exact F.arena.leaf s hv
  · intro h hh hv
    by_cases e : h = next
    · subst e
      rw [self]
      refine ⟨lx, ly, ?_, ?_, ?_⟩
      · show (nodeGet _ x).valid = true
        rw [keep vx]; exact vx
      · show (nodeGet _ y).valid = true
        rw [keep vy]; exact vy
      · show (nodeGet a x).freq + (nodeGet a y).freq = (nodeGet _ x).freq + (nodeGet _ y).freq
        rw [keep vx, keep vy]
    · rw [other e] at hv ⊢
      obtain ⟨a1, a2, a3, a4, a5⟩ := F.arena.internal h hh hv
      rw [keep a3, keep a4]
      exact ⟨a1, a2, a3, a4, a5⟩
  · intro h hh
    rw [hs]
    by_cases e : h = next
    · subst e; rw [self]; simp [joinNode]
    · rw [other e, F.used h hh]
      have : h.toNat ≠ next.toNat := fun c => e (BitVec.eq_of_toNat_eq c)
      omega
  · intro h hm
    rw [mem_insertNode] at hm
    rcases hm with rfl | hm
    · rw [self]; rfl
    · rw [keep (vq hm)]; exact vq hm
  · intro h hv
    by_cases e : h = next
    · exact ⟨next, by simp, [], by rw [e]; exact .here _⟩
    · rw [other e] at hv
      obtain ⟨r, hr, p, hl⟩ := F.reach h hv
      simp only [List.mem_cons] at hr
      rcases hr with rfl | rfl | hr
      · exact ⟨next, by simp, _, leadNext.2 (.inr (.inl ⟨p, rfl, hl⟩))⟩
      · exact ⟨next, by simp, _, leadNext.2 (.inr (.inr ⟨p, rfl, hl⟩))⟩
      · exact ⟨r, by simp [hr], p, (lead (vq hr)).2 hl⟩
  · intro r hr r' hr' p p' h hl hl'
    rw [mem_insertNode] at hr hr'
    have U := F.unique
    simp only [List.mem_cons] at U
    rcases hr with rfl | hr
    · rcases hr' with rfl | hr'
      · refine ⟨rfl, ?_⟩
        rcases leadNext.1 hl with ⟨rfl, e1⟩ | ⟨p1, rfl, g⟩ | ⟨p1, rfl, g⟩ <;>
          rcases leadNext.1 hl' with ⟨rfl, e⟩ | ⟨p2, rfl, g'⟩ | ⟨p2, rfl, g'⟩
        · rfl
        · rw [e1] at g'; exact absurd g' (noNext vx)
        · rw [e1] at g'; exact absurd g' (noNext vy)
        · rw [e] at g; exact absurd g (noNext vx)
        · rw [(U x (.inl rfl) x (.inl rfl) p1 p2 h g g').2]
        · exact absurd (U x (.inl rfl) y (.inr (.inl rfl)) p1 p2 h g g').1 hnd.1.1
        · rw [e] at g; exact absurd g (noNext vy)
        · exact absurd (U x (.inl rfl) y (.inr (.inl rfl)) p2 p1 h g' g).1 hnd.1.1
        · rw [(U y (.inr (.inl rfl)) y (.inr (.inl rfl)) p1 p2 h g g').2]
      · have gl' := (lead (vq hr')).1 hl'
        rcases leadNext.1 hl with ⟨rfl, e⟩ | ⟨p1, rfl, g⟩ | ⟨p1, rfl, g⟩
        · rw [e] at gl'; exact absurd gl' (noNext (vq hr'))
        · have := (U x (.inl rfl) r' (.inr (.inr hr')) p1 p' h g gl').1
          rw [this] at hnd; exact absurd hr' hnd.1.2
        · have := (U y (.inr (.inl rfl)) r' (.inr (.inr hr')) p1 p' h g gl').1
          rw [this] at hnd; exact absurd hr' hnd.2.1
    · have gl := (lead (vq hr)).1 hl
      rcases hr' with rfl | hr'
      · rcases leadNext.1 hl' with ⟨rfl, e⟩ | ⟨p1, rfl, g'⟩ | ⟨p1, rfl, g'⟩
        · rw [e] at gl; exact absurd gl (noNext (vq hr))
        · have := (U x (.inl rfl) r (.inr (.inr hr)) p1 p h g' gl).1
          rw [this] at hnd; exact absurd hr hnd.1.2
        · have := (U y (.inr (.inl rfl)) r (.inr (.inr hr)) p1 p h g' gl).1
          rw [this] at hnd; exact absurd hr hnd.2.1
      · exact U r (.inr (.inr hr)) r' (.inr (.inr hr')) p p' h gl ((lead (vq hr')).1 hl')
  · rw [(insertNode_perm _ _ _).nodup_iff, List.nodup_cons]
    refine ⟨?_, hnd.2.2⟩
    intro hm
    have := valid_lt_next F (vq hm); omega

/-- The frequencies of the roots, summed. -/
def rootSum (a : Vector Node 511) (q : List Handle) : Nat := (q.map (fun h => (nodeGet a h).freq)).sum

/-- One combination step keeps the sum of the roots' frequencies (41 R159). -/
theorem rootSum_step {n a next x y q} (F : Forest n a next (x :: y :: q)) :
    rootSum (nodeSet a next (joinNode a x y)) (insertNode (nodeSet a next (joinNode a x y)) q next) =
      rootSum a (x :: y :: q) := by
  have hc := F.count
  have hb := F.bound
  simp only [List.length_cons] at hc
  have hnil : next ≠ nilHandle := by rintro rfl; simp at hc; omega
  unfold rootSum
  rw [((insertNode_perm _ q next).map _).sum_eq]
  simp only [List.map_cons, List.sum_cons]
  rw [nodeGet_nodeSet_self _ _ hnil]
  have : q.map (fun h => (nodeGet (nodeSet a next (joinNode a x y)) h).freq) = q.map (fun h => (nodeGet a h).freq) := by
    apply List.map_congr_left
    intro h hh
    rw [nodeGet_nodeSet_ne]
    rintro rfl
    have := valid_lt_next F (F.valid h (by simp [hh]))
    omega
  rw [this]
  simp only [joinNode]
  omega

/-- All the loop does: it ends with at most one tree, which holds every node, and changes no node that was in use
(41 R150, R155, R158). -/
theorem combine_forest {n : Nat} (k : Nat) {a : Vector Node 511} {next : Handle} {q : List Handle} (F : Forest n a next q)
    (hk : q.length ≤ k) :
    ∃ next', Forest n (combine k a next q).1 next' (combine k a next q).2 ∧
      (combine k a next q).2.length = min 1 q.length ∧
      rootSum (combine k a next q).1 (combine k a next q).2 = rootSum a q ∧
      ∀ h : Handle, h.toNat < next.toNat → nodeGet (combine k a next q).1 h = nodeGet a h := by
  induction k generalizing a next q with
  | zero =>
    have : q = [] := List.length_eq_zero_iff.1 (by omega)
    subst this
    exact ⟨next, F, rfl, rfl, fun _ _ => rfl⟩
  | succ k ih =>
    match q, F, hk with
    | [], F, _ => exact ⟨next, F, rfl, rfl, fun _ _ => rfl⟩
    | [x], F, _ => exact ⟨next, F, rfl, rfl, fun _ _ => rfl⟩
    | x :: y :: q, F, hk =>
      simp only [List.length_cons] at hk
      have hc := F.count
      have hb := F.bound
      simp only [List.length_cons] at hc
      have hs : (next + 1).toNat = next.toNat + 1 := by rw [BitVec.toNat_add]; simp; omega
      obtain ⟨next', F', hl, hsum, hkeep⟩ := ih (forest_step F) (by simp; omega)
      refine ⟨next', F', ?_, hsum.trans (rootSum_step F), ?_⟩
      · rw [combine, hl]; simp
      · intro h hh
        rw [combine, hkeep h (by omega), nodeGet_nodeSet_ne]
        rintro rfl; omega

/-- Before the first turn every leaf is a tree of its own. -/
theorem forest_init (freq : Vector Nat 256) :
    Forest (leafList freq).length (plantLeaves freq (leafList freq)) 256#9
      (initialQueue (plantLeaves freq (leafList freq)) (leafList freq)) := by
  have hp := initialQueue_perm (plantLeaves freq (leafList freq)) (leafList freq)
  have hm : ∀ h, h ∈ initialQueue (plantLeaves freq (leafList freq)) (leafList freq) ↔
      ∃ s, symGet freq s ≠ 0 ∧ leafHandle s = h := by
    intro h
    rw [hp.mem_iff]; simp [mem_leafList]
  have hv : ∀ h, (nodeGet (plantLeaves freq (leafList freq)) h).valid = true ↔
      h.toNat < 256 ∧ symGet freq (h.setWidth 8) ≠ 0 := by
    intro h
    rw [nodeGet_plantLeaves]; split <;> simp_all [leafNode, Node.none]
  have hleaf : ∀ {a : Vector Node 511} {r h : Handle} {p : Bits}, r.toNat < 256 → Leads a r p h → p = [] ∧ h = r := by
    intro a r h p hr hl
    cases hl with
    | here => exact ⟨rfl, rfl⟩
    | left h1 => omega
    | right h1 => omega
  have hlt : ∀ h, h ∈ initialQueue (plantLeaves freq (leafList freq)) (leafList freq) → h.toNat < 256 := by
    intro h hh
    obtain ⟨s, -, rfl⟩ := (hm h).1 hh
    exact leafHandle_lt s
  refine ⟨?_, leafList_length freq, by simp, ⟨?_, ?_, ?_⟩, ?_, ?_, ?_, ?_, ?_⟩
  · rw [hp.length_eq]; simp
  · intro h hi
    rw [nodeGet_plantLeaves] at hi ⊢
    split at hi
    · cases hi
    · rw [if_neg ‹_›]; rfl
  · intro s hi
    have := nodeGet_plantLeaves_leaf freq s
    rw [leafHandle] at this
    rw [this] at hi ⊢
    split at hi
    · rw [if_pos ‹_›]; exact ⟨rfl, rfl⟩
    · cases hi
  · intro h hh hi
    rw [hv] at hi; omega
  · intro h hh
    rw [hv]; simp; omega
  · intro h hh
    obtain ⟨s, hs, rfl⟩ := (hm h).1 hh
    rw [nodeGet_plantLeaves_leaf, if_pos hs]; rfl
  · intro h hi
    rw [hv] at hi
    refine ⟨h, (hm h).2 ⟨h.setWidth 8, hi.2, leafHandle_setWidth hi.1⟩, [], .here h⟩
  · intro r hr r' hr' p p' h hl hl'
    obtain ⟨rfl, rfl⟩ := hleaf (hlt r hr) hl
    obtain ⟨rfl, rfl⟩ := hleaf (hlt r' hr') hl'
    exact ⟨rfl, rfl⟩
  · rw [hp.nodup_iff]
    exact (leafList_nodup freq).map (fun _ _ => leafHandle_inj.1)

/-- What `BUILD` leaves: no tree for an empty table, else one tree of all nodes under `ROOT`, over the leaves it planted. -/
theorem buildBlock_spec (b : Block) :
    ∃ next', Forest (entries b) (buildBlock b).node next'
        (if (buildBlock b).root.valid = true then [(buildBlock b).root.h] else []) ∧
      ((buildBlock b).root.valid = true ↔ entries b ≠ 0) ∧
      ((buildBlock b).root.valid = false → (buildBlock b).root.h = nilHandle) ∧
      rootSum (buildBlock b).node (if (buildBlock b).root.valid = true then [(buildBlock b).root.h] else []) =
        ((leafList b.freq).map (symGet b.freq)).sum ∧
      ∀ s : Sym, (buildBlock b).nodeAt (leafHandle s) = if b.freqAt s ≠ 0 then leafNode (b.freqAt s) else Node.none := by
  have F := forest_init b.freq
  have hp := initialQueue_perm (plantLeaves b.freq (leafList b.freq)) (leafList b.freq)
  obtain ⟨next', F', hl, hsum, hkeep⟩ := combine_forest (leafList b.freq).length F (by rw [hp.length_eq]; simp)
  rw [hp.length_eq, List.length_map] at hl
  have hn : (buildBlock b).node = (combine (leafList b.freq).length (plantLeaves b.freq (leafList b.freq)) 256#9
      (initialQueue (plantLeaves b.freq (leafList b.freq)) (leafList b.freq))).1 := rfl
  have hr : (buildBlock b).root = rootOf (combine (leafList b.freq).length (plantLeaves b.freq (leafList b.freq)) 256#9
      (initialQueue (plantLeaves b.freq (leafList b.freq)) (leafList b.freq))).2 := rfl
  have hs : rootSum (plantLeaves b.freq (leafList b.freq))
      (initialQueue (plantLeaves b.freq (leafList b.freq)) (leafList b.freq)) =
      ((leafList b.freq).map (symGet b.freq)).sum := by
    unfold rootSum
    rw [(hp.map _).sum_eq, List.map_map]
    congr 1
    apply List.map_congr_left
    intro s hs
    simp [nodeGet_plantLeaves_leaf, (mem_leafList _ _).1 hs, leafNode]
  rw [entries_eq]
  refine ⟨next', ?_⟩
  rw [hn, hr]
  generalize hc : combine (leafList b.freq).length (plantLeaves b.freq (leafList b.freq)) 256#9
      (initialQueue (plantLeaves b.freq (leafList b.freq)) (leafList b.freq)) = c at *
  have hq : c.2 = (if (rootOf c.2).valid = true then [(rootOf c.2).h] else []) := by
    match h2 : c.2 with
    | [] => rfl
    | [h] => rfl
    | _ :: _ :: _ => rw [h2] at hl; simp at hl; omega
  rw [← hq]
  refine ⟨F', ?_, ?_, hsum.trans hs, ?_⟩
  · match h2 : c.2 with
    | [] => rw [h2, List.length_nil] at hl; simp only [rootOf]; constructor <;> intro h; cases h; omega
    | h :: l => rw [h2, List.length_cons] at hl; simp only [rootOf, true_iff]; omega
  · match h2 : c.2 with
    | [] => intro _; rfl
    | h :: l => intro h; simp [rootOf] at h
  · intro s
    have := leafHandle_lt s
    rw [Block.nodeAt, hn, hkeep _ (by simpa using this), nodeGet_plantLeaves_leaf]
    rfl

end Sys2Proof.Machine
end

