-- ==== Sys2Proof/Laws/Unpacker.lean ====
section
/-! SUPPORT. The unpacker: the table check of `UBEG` and the decode loop, each said as the rule says it (44 R210 to R213). -/

namespace Sys2Proof.Machine

theorem offends_iff (ct : Vector CodeEntry 256) (s : Sym) : offends ct s = true ↔ Offends ct s := by
  simp only [offends, Offends, Bool.and_eq_true, List.any_eq_true, bne_iff_ne, List.isPrefixOf_iff_prefix, mem_allSyms, true_and, and_assoc]

/-- `UBEG` finds no offender exactly where no code is a prefix of another (44 R211). -/
theorem offender_none (ct : Vector CodeEntry 256) : offender ct = none ↔ ∀ x, ¬ Offends ct x := by
  simp [offender, List.find?_eq_none, offends_iff]

theorem prefixFree_iff (ct : Vector CodeEntry 256) : PrefixFree ct ↔ ∀ x, ¬ Offends ct x := by
  constructor
  · rintro h x ⟨hv, t, ht, hv', hp⟩; exact h x t ht.symm hv hv' hp
  · intro h s t hst hs ht hp; exact h s ⟨hs, t, hst.symm, ht, hp⟩

/-- The offender is the smallest symbol that offends (44 R211). -/
theorem offender_some {ct : Vector CodeEntry 256} {x : Sym} (hx : Offends ct x) (hm : ∀ y, y.toNat < x.toNat → ¬ Offends ct y) :
    offender ct = some x := by
  apply find_allSyms _ x ((offends_iff _ _).2 hx)
  intro y hy
  rw [Bool.eq_false_iff, ne_eq, offends_iff]
  exact hm y hy

theorem leafAt_some {ct : Vector CodeEntry 256} {p : Bits} {s : Sym} (h : leafAt ct p = some s) : (symGet ct s).valid = true ∧ (symGet ct s).bits = p := by
  have := List.find?_some h; simpa using this

theorem leafAt_none {ct : Vector CodeEntry 256} {p : Bits} : leafAt ct p = none ↔ ∀ t, (symGet ct t).valid = true → (symGet ct t).bits ≠ p := by
  simp [leafAt, List.find?_eq_none]

/-- In a prefix-free table a code has one symbol. -/
theorem leafAt_eq {ct : Vector CodeEntry 256} {p : Bits} {s : Sym} (hpf : PrefixFree ct) (h1 : (symGet ct s).valid = true) (h2 : (symGet ct s).bits = p) : leafAt ct p = some s := by
  cases h : leafAt ct p with
  | none => exact absurd h2 (leafAt_none.1 h s h1)
  | some t =>
    obtain ⟨a, b⟩ := leafAt_some h
    by_contra hne
    have hne : t ≠ s := by rintro rfl; exact hne rfl
    exact hpf t s hne a h1 (by rw [b, h2])

theorem onPath_iff {ct : Vector CodeEntry 256} {p : Bits} : onPath ct p = true ↔ ∃ s, (symGet ct s).valid = true ∧ p <+: (symGet ct s).bits := by
  simp [onPath]

/-- Over a prefix-free table the loop computes the relation of 44 R213. -/
theorem decodeBits_iff {ct : Vector CodeEntry 256} (hpf : PrefixFree ct) (q p p' : Bits) (o : List Byte) : decodeBits ct p q = some (p', o) ↔ Decodes ct p q p' o := by
  induction q generalizing p p' o with
  | nil =>
    simp only [decodeBits, Option.some.injEq, Prod.mk.injEq]
    constructor
    · rintro ⟨rfl, rfl⟩; exact .stop _
    · rintro ⟨⟩; exact ⟨rfl, rfl⟩
  | cons b q ih =>
    constructor
    · intro h
      simp only [decodeBits] at h
      split at h
      · rename_i s hs
        obtain ⟨h1, h2⟩ := leafAt_some hs
        simp only [Option.map_eq_some_iff] at h
        obtain ⟨⟨p1, o1⟩, hr, he⟩ := h
        cases he
        exact .leaf h1 h2 ((ih _ _ _).1 hr)
      · rename_i hn
        split at h
        · rename_i hp
          obtain ⟨s, h1, h2⟩ := onPath_iff.1 hp
          exact .inner (leafAt_none.1 hn) h1 h2 ((ih _ _ _).1 h)
        · cases h
    · intro h
      simp only [decodeBits]
      cases h with
      | leaf h1 h2 hr => rw [leafAt_eq hpf h1 h2]; simp [(ih _ _ _).2 hr]
      | inner hn h1 h2 hr =>
        rw [leafAt_none.2 hn, if_pos (onPath_iff.2 ⟨_, h1, h2⟩)]
        exact (ih _ _ _).2 hr

/-- It stops without a result exactly where no run of the relation exists: `INVALID_CODE` (44 R213). -/
theorem decodeBits_none {ct : Vector CodeEntry 256} (hpf : PrefixFree ct) (q p : Bits) : decodeBits ct p q = none ↔ ∀ p' o, ¬ Decodes ct p q p' o := by
  simp only [← decodeBits_iff hpf]
  cases decodeBits ct p q with
  | none => simp
  | some r => simp; exact ⟨_, _, rfl⟩

end Sys2Proof.Machine
end

