-- ==== Sys2Proof/Tests/Slice0.lean ====
section
/-! SUPPORT. Tests. Expected values are written out from the encoding rules of spec/30_encoding.md and from the vectors of
spec/95_test_vectors.md (named V.., P..), never from this model. After them, one witness per statement that has hypotheses. -/

namespace Sys2Proof.Machine

/- One theorem at a time: the tests are evaluated by the kernel, and many at once hold too many threads. -/
set_option Elab.async false

/-! ## WellFormed: each of its two checks refuses an ill-formed term -/

theorem test_wellFormed_csrr : (Instr.csrr 0x0A).wellFormed = false ∧ (Instr.csrr 0x09).wellFormed = true := by decide
theorem test_wellFormed_ndrd : (Instr.ndrd 511).wellFormed = false ∧ (Instr.ndrd 510).wellFormed = true := by decide
theorem test_wellFormed_others : (Instr.ctld 0x61 0 1).wellFormed = true ∧ (Instr.ufin 255).wellFormed = true := by decide

/-! ## Decoding: a word written out bit by bit from 30 R91, R95 (op, rsv, idx, arg) for every row -/

/-- The decoder on the four fields, laid out as 30 R91 lays them out. -/
def fieldsDecode (op : BitVec 8) (rsv : BitVec 7) (idx : BitVec 9) (arg : BitVec 8) (w : Data) : Option Instr :=
  match decode { cmd := op ++ rsv ++ idx ++ arg, wdata := w } with
  | .ok i => some i
  | .error _ => none

theorem test_decode_nop : fieldsDecode 0b00000000#8 0 0#9 0#8 (0) = some (.nop) := by decide +kernel
theorem test_decode_clr : fieldsDecode 0b00000001#8 0 0#9 0#8 (0) = some (.clr) := by decide +kernel
theorem test_decode_csrr : fieldsDecode 0b00000010#8 0 0#9 0b00001001#8 (0) = some (.csrr 9) := by decide +kernel
theorem test_decode_acc : fieldsDecode 0b00010000#8 0 0b001100001#9 0#8 (12345) = some (.acc 0x61) := by decide +kernel
theorem test_decode_fadd : fieldsDecode 0b00010001#8 0 0b001000001#9 0#8 (2 ^ 64 - 1) = some (.fadd 0x41 (2 ^ 64 - 1)) := by decide +kernel
theorem test_decode_frd : fieldsDecode 0b00010010#8 0 0b011111111#9 0#8 (0) = some (.frd 0xFF) := by decide +kernel
theorem test_decode_build : fieldsDecode 0b00100000#8 0 0#9 0#8 (0) = some (.build) := by decide +kernel
theorem test_decode_ndrd : fieldsDecode 0b00100001#8 0 0b111111110#9 0#8 (0) = some (.ndrd 510) := by decide +kernel
theorem test_decode_gen : fieldsDecode 0b00110000#8 0 0#9 0#8 (0) = some (.gen) := by decide +kernel
theorem test_decode_ctrd : fieldsDecode 0b00110001#8 0 0b001100010#9 0#8 (0) = some (.ctrd 0x62) := by decide +kernel
theorem test_decode_ctld : fieldsDecode 0b00110010#8 0 0b001100011#9 0b00000010#8 (0xC0#256 <<< 248) = some (.ctld 0x63 2 (0xC0#256 <<< 248)) := by decide +kernel
theorem test_decode_pack : fieldsDecode 0b01000000#8 0 0b010100101#9 0#8 (0) = some (.pack 0xA5) := by decide +kernel
theorem test_decode_flush : fieldsDecode 0b01000001#8 0 0#9 0#8 (0) = some (.flush) := by decide +kernel
theorem test_decode_ubeg : fieldsDecode 0b01010000#8 0 0#9 0#8 (0) = some (.ubeg) := by decide +kernel
theorem test_decode_unpk : fieldsDecode 0b01010001#8 0 0#9 0b00101100#8 (0) = some (.unpk 0x2C) := by decide +kernel
theorem test_decode_ufin : fieldsDecode 0b01010010#8 0 0#9 0b00001000#8 (0) = some (.ufin 8) := by decide +kernel

/-- V70, V71, V72, V73, V74, V75, V7A, V7B: reserved opcodes, `rsv`, `idx[8]` of a symbol and unused fields that are not 0. -/
theorem test_decode_illegal :
    [(0x03000000 : CmdWord), 0xFFFFFFFF, 0x00000001, 0x10026100, 0x10016100, 0x10006101, 0x51000100, 0x32016101].all
      (fun w => (decode { cmd := w, wdata := 0 }).toOption == none) = true := by decide +kernel

/-- V77, V76: `CSRR 10` and `NDRD 511`. -/
theorem test_decode_constraints :
    decode { cmd := 0x0200000A, wdata := 0 } = .error .noSuchCsr ∧
    decode { cmd := 0x2101FF00, wdata := 0 } = .error .noSuchNode := by decide +kernel

/-- V1: `CTLD 0x62, "10"` is `cmd 0x32006202` with `wdata 0x80 << 248`, and back. -/
theorem test_encode_ctld : encode (.ctld 0x62 2 (0x80#256 <<< 248)) = { cmd := 0x32006202, wdata := 0x80#256 <<< 248 } := by
  decide +kernel

/-- A row without `wdata` and one with it, numbered as the opcode table numbers them. -/
theorem test_tableWord :
    decodeTableWord 32 0x2101FE00 = some (.ndrd 510) ∧ decodeTableWord 32 0x03000000 = none ∧
    decodeTableWord 288 (0x11006100 + 7 * 2 ^ 32) = some (.fadd 0x61 7) := by decide +kernel

theorem test_withFetchWord : step (State.reset.withFetchWord 32 0x10006100) = exec (.acc 0x61) State.reset := by rfl

/-! ## One step of every command, on small states -/

/-- What one command answers: the response word, `rdata`, the bytes emitted. -/
def answer (s : State) (cmd : CmdWord) (wdata : Data := 0) : Option (BitVec 32 × Data × List Byte) :=
  match step (offerFirst s { cmd := cmd, wdata := wdata }) with
  | .next t => t.rsps.getLast?.map (fun r => (r.word, r.rdata, r.out))
  | _ => none

/-- An answer, written out. -/
def reply (rsp : BitVec 32) (rdata : Data) (out : List Byte) : Option (BitVec 32 × Data × List Byte) := some (rsp, rdata, out)

/-- Something of the block after one command. -/
def after {α : Type} (s : State) (cmd : CmdWord) (f : Block → α) (wdata : Data := 0) : Option α :=
  match step (offerFirst s { cmd := cmd, wdata := wdata }) with
  | .next t => some (f t.blk)
  | _ => none

/-- The reset state with another block. -/
def withBlk (b : Block) : State := { State.reset with blk := b }

/-- A block in `COUNT` with these counts. -/
def counted (l : List (Sym × Nat)) : State :=
  withBlk { Block.reset with phase := .count, freq := l.foldl (fun v p => symSet v p.1 p.2) Block.reset.freq }

/-- A code table with these entries. -/
def tableOf (l : List (Sym × Bits)) : Vector CodeEntry 256 := l.foldl (fun ct p => symSet ct p.1 (codeEntry p.2)) emptyTable

/-- `T3` of 95 section 2.6: a "0", b "10", c "11". -/
def t3 : Vector CodeEntry 256 := tableOf [(0x61, [false]), (0x62, [true, false]), (0x63, [true, true])]

/-- A block in a phase with a code table. -/
def coded (p : Phase) (ct : Vector CodeEntry 256) : State := withBlk { Block.reset with phase := p, ct := ct }

/-- An unpacking block that holds a byte. -/
def holding (ct : Vector CodeEntry 256) (b : Byte) : State :=
  withBlk { Block.reset with phase := .unpack, ct := ct, hold := b, holdValid := true }

/-- The arena of V1 after `BUILD`, in `TREE`. -/
def treeV1 : State :=
  withBlk { Block.reset with
    phase := .tree, nsym := 3, root := { valid := true, h := 257 },
    node := nodeSet (nodeSet (nodeSet (nodeSet (nodeSet Block.reset.node 0x61 (leafNode 2)) 0x62 (leafNode 1)) 0x63 (leafNode 1))
      256 { valid := true, freq := 2, left := 0x62, right := 0x63 }) 257 { valid := true, freq := 4, left := 0x61, right := 256 } }

/-- A block that has faulted. -/
def faulted : State := withBlk { Block.reset with phase := .fault, err := { kind := 0x13, op := 0x40, ctx := 0x62, phase := 4 } }

/-- V64: `NOP` is carried out in `FAULT` and leaves `ERR`. -/
theorem test_nop_in_fault : answer faulted 0x00000000 = reply 0x00000000 0 [] ∧
    after faulted 0x00000000 (fun b => (b.phase, b.err.kind)) = some (.fault, 0x13) := by decide +kernel

/-- V72: `NOP` with a bit set is illegal. -/
theorem test_nop_illegal : answer State.reset 0x00000001 = reply 0x10000000 0 [] ∧
    after State.reset 0x00000001 csrErr = some 0x00000010 := by decide +kernel

/-- V14, V63: `CLR` clears, from `FAULT` too. -/
theorem test_clr : answer faulted 0x01000000 = reply 0x00000000 0 [] ∧
    after faulted 0x01000000 (fun b => (b.phase, csrErr b)) = some (.idle, 0) ∧
    after treeV1 0x01000000 (fun b => (csrRoot b, b.nodeAt 257)) = some (0x1FF, Node.none) := by decide +kernel

/-- V61: the CSRs that are not 0 at reset. -/
theorem test_csrr_reset : answer State.reset 0x02000000 = reply 0 0x140 [] ∧
    answer State.reset 0x02000004 = reply 0 0x1FF [] ∧ answer State.reset 0x02000001 = reply 0 0 [] := by decide +kernel

/-- V7: `STATUS`, `PATH`, `HOLD` in the middle of a decode; P3: `ERR`. -/
theorem test_csrr_status :
    answer (withBlk { Block.reset with phase := .unpack, path := [true], hold := 0xFF, holdValid := true }) 0x02000001 = reply 0 0x846 [] ∧
    answer (withBlk { Block.reset with phase := .unpack, path := [true], hold := 0xFF, holdValid := true }) 0x02000009 = reply 0 (0x80#256 <<< 248) [] ∧
    answer (withBlk { Block.reset with phase := .unpack, path := [true], hold := 0xFF, holdValid := true }) 0x02000008 = reply 0 0x1FF [] ∧
    answer faulted 0x02000002 = reply 0 0x08624013 [] := by decide +kernel

/-- V18: one occurrence, whatever `wdata`. -/
theorem test_acc : answer State.reset 0x10000500 12345 = reply 0 0 [] ∧
    after State.reset 0x10000500 (fun b => (b.phase, b.freqAt 5, b.freqAt 6)) 12345 = some (.count, 1, 0) := by decide +kernel

/-- V14: the top of the counter. -/
theorem test_acc_overflow : answer (counted [(0x41, 2 ^ 64 - 1)]) 0x10004100 = reply 0x12000041 0 [] ∧
    after (counted [(0x41, 2 ^ 64 - 1)]) 0x10004100 (fun b => (csrErr b, b.freqAt 0x41)) = some (0x02411012, 2 ^ 64 - 1) := by
  decide +kernel

/-- V16: adding 0 at the top is legal. -/
theorem test_fadd : answer (counted [(0x41, 2 ^ 64 - 1)]) 0x11004100 0 = reply 0 0 [] ∧
    after (counted [(0x61, 2)]) 0x11006100 (fun b => b.freqAt 0x61) 5 = some 7 := by decide +kernel

/-- V15: a count of `2^64` from reset overflows. -/
theorem test_fadd_overflow : answer State.reset 0x11004100 (1#256 <<< 64) = reply 0x12000041 0 [] ∧
    after State.reset 0x11004100 csrErr (1#256 <<< 64) = some 0x00411112 := by decide +kernel

/-- P2 step 10, V10. -/
theorem test_frd : answer (counted [(0x61, 5)]) 0x12006100 = reply 0x00008000 5 [] ∧
    answer State.reset 0x12006100 = reply 0 0 [] := by decide +kernel

/-- V1: the response, the root and both internal nodes of `BUILD`. -/
theorem test_build : answer (counted [(0x61, 2), (0x62, 1), (0x63, 1)]) 0x20000000 = reply 0x00008003 0 [] ∧
    after (counted [(0x61, 2), (0x62, 1), (0x63, 1)]) 0x20000000 (fun b => (csrRoot b, b.nodeAt 256, b.nodeAt 257)) =
      some (0x301, { valid := true, freq := 2, left := 0x62, right := 0x63 },
        { valid := true, freq := 4, left := 0x61, right := 256 }) := by decide +kernel

/-- V28: the sum of two full counters does not overflow; V6: a new node goes behind its equals. -/
theorem test_build_ties :
    after (counted [(0, 2 ^ 64 - 1), (1, 2 ^ 64 - 1)]) 0x20000000 (fun b => (b.nodeAt 256).freq) = some (2 ^ 65 - 2) ∧
    after (counted [(0x10, 1), (0x11, 1), (0x12, 2), (0x13, 2)]) 0x20000000 (fun b => (b.nodeAt 257).left) = some 0x12 := by
  decide +kernel

/-- V1 through `NDRD 257`; V26. -/
theorem test_ndrd : answer treeV1 0x21010100 = reply 0x00008000 (1#256 <<< 176 ||| 0x061#256 <<< 160 ||| 0x100#256 <<< 144 ||| 4#256) [] ∧
    answer State.reset 0x2101FE00 = reply 0 (0x1FF#256 <<< 160 ||| 0x1FF#256 <<< 144) [] := by decide +kernel

/-- V27. -/
theorem test_ndrd_nil : answer State.reset 0x2101FF00 = reply 0x100001FF 0 [] := by decide +kernel

/-- V1: the table of `GEN`. -/
theorem test_gen : answer treeV1 0x30000000 = reply 0x00000003 0 [] ∧
    after treeV1 0x30000000 (fun b => (b.ctAt 0x61, b.ctAt 0x62, b.ctAt 0x63)) =
      some (codeEntry [false], codeEntry [true, false], codeEntry [true, true]) := by decide +kernel

/-- V33: out of sequence; V7C: an illegal word comes first. -/
theorem test_gen_sequence : answer State.reset 0x30000000 = reply 0x11000000 0 [] ∧
    after State.reset 0x30000000 csrErr = some 0x00003011 ∧ answer State.reset 0x30000100 = reply 0x10000001 0 [] := by
  decide +kernel

/-- V1: `CTRD 0x63` and an empty entry. -/
theorem test_ctrd : answer (coded .code t3) 0x31006300 = reply 0x00008002 (0xC0#256 <<< 248) [] ∧
    answer (coded .code t3) 0x31006400 = reply 0 0 [] := by decide +kernel

/-- V1: `CTLD 0x62, "10"`. -/
theorem test_ctld : answer State.reset 0x32006202 (0x80#256 <<< 248) = reply 0 0 [] ∧
    after State.reset 0x32006202 (fun b => (b.phase, b.ctAt 0x62)) (0x80#256 <<< 248) =
      some (.load, codeEntry [true, false]) := by decide +kernel

/-- V34, V36, V3B, V35: the four rejections. -/
theorem test_ctld_malformed : answer State.reset 0x32006100 = reply 0x14000061 0 [] ∧
    answer State.reset 0x32006101 (0x40#256 <<< 248) = reply 0x14000061 0 [] ∧
    answer State.reset 0x320061FF 1 = reply 0x14000061 0 [] ∧
    after (coded .load t3) 0x32006101 csrErr (0x80#256 <<< 248) = some 0x0A613214 := by decide +kernel

/-- V41: 7 + 10 bits: two bytes and one bit. -/
theorem test_pack :
    answer (withBlk { (coded .pack (tableOf [(0x30, List.replicate 9 true ++ [false])])).blk with
      pend := [false, true, true, true, true, true, false] }) 0x40003000 = reply 0x00020001 0 [0x7D, 0xFF] := by decide +kernel

/-- P3 step 5. -/
theorem test_pack_missing : answer (coded .pack (tableOf [(0x61, [false])])) 0x40006200 = reply 0x13000062 0 [] ∧
    after (coded .pack (tableOf [(0x61, [false])])) 0x40006200 csrErr = some 0x08624013 := by decide +kernel

/-- V44: six bits pending. -/
theorem test_flush :
    answer (withBlk { Block.reset with phase := .pack, pend := [false, false, true, false, true, true] }) 0x41000000 =
      reply 0x00010006 0 [0x2C] := by decide +kernel

/-- V43, V42: nothing pending, after a whole byte and after none. -/
theorem test_flush_empty :
    answer (withBlk { Block.reset with phase := .pack, bpAny := true }) 0x41000000 = reply 0x00000008 0 [] ∧
    after (withBlk { Block.reset with phase := .pack, bpAny := true }) 0x41000000 csrFinal = some 0x18 ∧
    answer (withBlk { Block.reset with phase := .code }) 0x41000000 = reply 0 0 [] := by decide +kernel

/-- V1. -/
theorem test_ubeg : answer (coded .load t3) 0x50000000 = reply 0x00000003 0 [] := by decide +kernel

/-- V39: the smallest offender; V38: equal codes. -/
theorem test_ubeg_malformed :
    answer (coded .load (tableOf [(0x61, [true, false]), (0x62, [false]), (0x63, [true, false, true]), (0x10, [true])])) 0x50000000 =
      reply 0x14000010 0 [] ∧
    answer (coded .load (tableOf [(0x61, [true, false]), (0x62, [true, false])])) 0x50000000 = reply 0x14000061 0 [] := by
  decide +kernel

/-- V58: a byte decoded, one bit carried; V50: the first byte is only held. -/
theorem test_unpk : answer (holding t3 0x2D) 0x51000080 = reply 0x00050001 0 [0x61, 0x61, 0x62, 0x63, 0x61] ∧
    answer (coded .unpack t3) 0x5100002C = reply 0 0 [] := by decide +kernel

/-- V5A: no code; nothing is emitted. -/
theorem test_unpk_invalid : answer (holding (tableOf [(0x41, [false])]) 0x20) 0x51000000 = reply 0x16000020 0 [] ∧
    after (holding (tableOf [(0x41, [false])]) 0x20) 0x51000000 csrErr = some 0x0C205116 := by decide +kernel

/-- V50 and V59: the padding is not read. -/
theorem test_ufin : answer (holding t3 0x2C) 0x52000006 = reply 0x00040000 0 [0x61, 0x61, 0x62, 0x63] ∧
    answer (holding t3 0x2F) 0x52000006 = reply 0x00040000 0 [0x61, 0x61, 0x62, 0x63] := by decide +kernel

/-- V53, V54, V55, V56. -/
theorem test_ufin_faults : answer (holding t3 0x2C) 0x52000005 = reply 0x15000001 0 [] ∧
    answer (holding t3 0x2C) 0x52000000 = reply 0x17000000 0 [] ∧ answer (holding t3 0x2C) 0x52000009 = reply 0x17000009 0 [] ∧
    answer (coded .unpack t3) 0x52000003 = reply 0x17000003 0 [] := by decide +kernel

/-- V7E: in `FAULT` an illegal word and `ACC` are aborted. -/
theorem test_fault_aborts : answer faulted 0x03000000 = reply 0x0F000000 0 [] ∧ answer faulted 0x10006100 = reply 0x0F000000 0 [] ∧
    answer faulted 0x0200000A = reply 0x0F000000 0 [] := by decide +kernel


/-! ## Witnesses: a state and operands that meet every hypothesis of a statement, for each of its clauses -/

/-- The one-entry table of V2, `0x41: "0"`. -/
def t1 : Vector CodeEntry 256 := tableOf [(0x41, [false])]

theorem t1_at (s : Sym) : symGet t1 s = if s = 0x41 then codeEntry [false] else CodeEntry.none := by
  simp [t1, tableOf, symGet_symSet]

theorem t1_prefixFree : PrefixFree t1 := by
  intro s t h hs ht
  rw [t1_at] at hs ht
  split at hs <;> split at ht <;> simp_all [CodeEntry.none]

theorem t1_tableOk : TableOk t1 := by
  intro s
  rw [t1_at]
  split <;> simp [codeEntry, CodeEntry.none]

theorem reset_live : LiveInv Config.default Block.reset where
  counters s := by rw [reset_freqAt]; decide
  widths h := by rw [reset_nodeAt]; decide
  arena := by
    have e : ∀ h, nodeGet Block.reset.node h = Node.none := reset_nodeAt
    refine ⟨fun h _ => e h, fun s hv => ?_, fun h _ hv => ?_⟩ <;> rw [e] at hv <;> cases hv
  root := ⟨fun _ => rfl, fun h => by cases h⟩
  nsym := by decide
  table s := by rw [show symGet Block.reset.ct s = CodeEntry.none from reset_ctAt s]; simp [CodeEntry.none]
  codes := by rintro (h | h | h | h) <;> cases h
  pend := by decide
  finalUsed := by decide
  path := .inl rfl
  hold := fun _ => ⟨rfl, rfl⟩
  shape := rfl

theorem reset_inv : State.reset.Inv := ⟨by decide, .inl reset_live⟩

/-- V70 as a state: the reset block after the illegal word `0x03000000`. -/
def illegalOnce : State :=
  withBlk { Block.reset with phase := .fault, err := { kind := 0x10, op := 0x03, ctx := 0, phase := 0 } }

theorem illegalOnce_inv : illegalOnce.Inv := ⟨by decide, .inr ⟨rfl, .idle, .illegalCommand, reset_live, rfl, rfl⟩⟩

theorem not_legal_03 : ¬ LegalWord 0x03000000 := by
  rintro ⟨row, hr, h, -⟩
  have all : tableRows.all (fun r => (0x03000000 &&& r.2) != r.1) = true := by decide +kernel
  have := List.all_eq_true.1 all row hr
  rw [h] at this
  simp at this

theorem witness_DecodeInvertsEncode : (Instr.csrr 9).wellFormed = true ∧ (Instr.ndrd 510).wellFormed = true := by decide

theorem witness_EncodeInvertsDecode :
    decode { cmd := 0x11006100, wdata := 3 } = .ok (.fadd 0x61 3) ∧
    decode { cmd := 0x320061FF, wdata := 1 } = .ok (.ctld 0x61 0xFF 1) := by decide +kernel

/-- Each row's premise at a boundary operand, and a word outside the table. -/
theorem witness_DecodeFollowsTheTable :
    ((0x02000009 : CmdWord) &&& 0xFFFFFF00 = 0x02000000 ∧ ((0x02000009 : CmdWord).extractLsb' 0 8).toNat ≤ 9) ∧
    (0x1000FF00 : CmdWord) &&& 0xFFFF00FF = 0x10000000 ∧ (0x1100FF00 : CmdWord) &&& 0xFFFF00FF = 0x11000000 ∧
    (0x1200FF00 : CmdWord) &&& 0xFFFF00FF = 0x12000000 ∧
    ((0x2101FE00 : CmdWord) &&& 0xFFFE00FF = 0x21000000 ∧ (0x2101FE00 : CmdWord).extractLsb' 8 9 ≠ 511#9) ∧
    (0x3100FF00 : CmdWord) &&& 0xFFFF00FF = 0x31000000 ∧ (0x3200FFFF : CmdWord) &&& 0xFFFF0000 = 0x32000000 ∧
    (0x4000FF00 : CmdWord) &&& 0xFFFF00FF = 0x40000000 ∧ (0x510000FF : CmdWord) &&& 0xFFFFFF00 = 0x51000000 ∧
    (0x520000FF : CmdWord) &&& 0xFFFFFF00 = 0x52000000 ∧ ¬ LegalWord 0x03000000 :=
  ⟨by decide, by decide, by decide, by decide, by decide, by decide, by decide, by decide, by decide, by decide, not_legal_03⟩

theorem witness_StepRunsTheDecodedCommand :
    (offerFirst State.reset { cmd := 0x10006100, wdata := 0 }).cmdq = { cmd := 0x10006100, wdata := 0 } :: [] ∧
    decode { cmd := 0x10006100, wdata := 0 } = .ok (.acc 0x61) := by decide +kernel

theorem witness_NoCommandKeepsTheState : State.reset.cmdq = [] := rfl

theorem witness_IllegalWordRaisesIllegalCommand :
    ∃ s s' : State, s.cmdq = { cmd := 0x03000000, wdata := 7 } :: [] ∧ s.blk.phase ≠ .fault ∧
      s'.cmdq = { cmd := 0x03000000, wdata := 7 } :: [] ∧ s'.blk.phase = .fault ∧ ¬ LegalWord 0x03000000 :=
  ⟨offerFirst State.reset _, offerFirst faulted _, rfl, by decide, rfl, rfl, not_legal_03⟩

theorem witness_WdataIsIgnoredByOtherCommands :
    (0x10000500 : CmdWord).extractLsb' 24 8 ≠ 0x11#8 ∧ (0x10000500 : CmdWord).extractLsb' 24 8 ≠ 0x32#8 := by decide

theorem witness_EveryCommandGetsOneResponse :
    (offerFirst State.reset { cmd := 0x41000000, wdata := 0 }).Inv ∧
    (offerFirst State.reset { cmd := 0x41000000, wdata := 0 }).cmdq = { cmd := 0x41000000, wdata := 0 } :: [] :=
  ⟨reset_inv, rfl⟩

/-- A response for each status, at the greatest length. -/
theorem witness_ResponseWordFields :
    ([.ok, .emptyInput, .aborted, .fault .illegalCommand, .fault .sequenceError, .fault .countOverflow, .fault .missingCodeEntry,
      .fault .malformedTable, .fault .truncatedPayload, .fault .invalidCode, .fault .badFraming] : List Status).all
      (fun k => ({ status := k, flag := true, val := 511, rdata := 0, out := List.replicate 255 0 } : Response).out.length ≤ 255) = true := by
  decide +kernel

theorem witness_EmittedBytesAreBounded :
    State.reset.Inv ∧ ∃ t r, exec .flush State.reset = .next t ∧ t.rsps = State.reset.rsps ++ [r] ∧ t.blk.phase = .fault ∧
      (∃ t r, exec (.unpk 0) State.reset = .next t ∧ t.rsps = State.reset.rsps ++ [r]) ∧
      (∃ t r, exec (.ufin 0) State.reset = .next t ∧ t.rsps = State.reset.rsps ++ [r]) :=
  ⟨reset_inv, _, _, rfl, rfl, rfl, ⟨_, _, rfl, rfl⟩, ⟨_, _, rfl, rfl⟩⟩

theorem witness_PhaseFollowsTheTransitionTable :
    (Instr.acc 0xFF).wellFormed = true ∧ (State.reset.blk.phase ∈ legalPhases (.acc 0xFF) ∧ ∃ t, exec (.acc 0xFF) State.reset = .next t) ∧
    (State.reset.blk.phase ∉ legalPhases .gen ∧ State.reset.blk.phase ≠ .fault) ∧
    (faulted.blk.phase ∉ legalPhases .gen ∧ faulted.blk.phase = .fault) :=
  ⟨rfl, ⟨by decide, _, rfl⟩, by decide, by decide⟩

theorem witness_FaultEntryWritesErrAndPhaseOnly :
    ∃ t r, exec .gen State.reset = .next t ∧ t.rsps = State.reset.rsps ++ [r] ∧ r.status = .fault .sequenceError :=
  ⟨_, _, rfl, rfl, rfl⟩

theorem witness_FaultIsLeftOnlyByClr :
    ∃ s s' t t' : State, s.blk.phase = .fault ∧ s.cmdq = { cmd := 0x01000000, wdata := 0 } :: [] ∧ step s = .next t ∧
      s'.blk.phase = .fault ∧ s'.cmdq = { cmd := 0x00000000, wdata := 0 } :: [] ∧ step s' = .next t' :=
  ⟨offerFirst faulted _, offerFirst faulted _, _, _, rfl, rfl, rfl, rfl, rfl, rfl⟩

theorem witness_ReadsMayBeInterleaved :
    Instr.nop.wellFormed = true ∧ (Instr.csrr 9).wellFormed = true ∧ (Instr.frd 0xFF).wellFormed = true ∧
    (Instr.ndrd 510).wellFormed = true ∧ (Instr.ctrd 0xFF).wellFormed = true ∧
    ∃ u r, exec (.acc 0) State.reset = .next u ∧ u.rsps = State.reset.rsps ++ [r] :=
  ⟨rfl, rfl, rfl, rfl, rfl, _, _, rfl, rfl⟩

theorem witness_CountersChangeOnlyByExactAddition :
    (∃ t, exec (.fadd 0x61 5) State.reset = .next t) ∧ (∃ t, exec (.acc 0x61) State.reset = .next t) ∧
    ∃ t, exec .clr State.reset = .next t := ⟨⟨_, rfl⟩, ⟨_, rfl⟩, _, rfl⟩

theorem witness_CodeTableIsFrozenInUse :
    (coded .code t1).blk.phase = .code ∧ (coded .pack t1).blk.phase = .pack ∧ (coded .unpack t1).blk.phase = .unpack ∧
    (∃ t, exec (.ctld 0 1 0) (coded .code t1) = .next t) ∧ (∃ t, exec .flush (coded .pack t1) = .next t) ∧
    (∃ t, exec (.unpk 0) (coded .unpack t1) = .next t) ∧ Instr.flush ≠ .clr :=
  ⟨rfl, rfl, rfl,
   have ⟨_, t, h, _⟩ := exec_outOfSequence (i := .ctld 0 1 0) (s := coded .code t1) rfl rfl (by decide); ⟨t, h.1⟩,
   ⟨_, exec_body (i := .flush) (s := coded .pack t1) rfl rfl⟩, ⟨_, exec_body (i := .unpk 0) (s := coded .unpack t1) rfl rfl⟩,
   by decide⟩

theorem witness_NopDoesNothing : ((0x00000001 : CmdWord).extractLsb' 24 8 = 0) ∧ (0x00000001 : CmdWord) ≠ 0 := by decide

theorem witness_CsrrReadsEachRegister :
    State.reset.blk.pend.length ≤ 7 ∧ State.reset.blk.path.length ≤ 254 ∧ (9#8).toNat ≤ 9 ∧ 9 < (10#8).toNat ∧
    State.reset.blk.phase ≠ .fault ∧ faulted.blk.phase = .fault ∧ faulted.blk.pend.length ≤ 7 ∧ faulted.blk.path.length ≤ 254 := by
  decide

/-- The last count that fits, the first that does not, a phase out of sequence. -/
theorem witness_AccCountsOneOccurrence :
    (counted [(0x41, 2 ^ 64 - 2)]).blk.phase = .count ∧ (counted [(0x41, 2 ^ 64 - 2)]).blk.freqAt 0x41 + 1 < 2 ^ 64 ∧
    2 ^ 64 ≤ (counted [(0x41, 2 ^ 64 - 1)]).blk.freqAt 0x41 + 1 ∧ treeV1.blk.phase ∉ [.idle, .count, .fault] := by
  decide +kernel

theorem witness_FaddAddsTheCount :
    (counted [(0x41, 1)]).blk.phase = .count ∧ (counted [(0x41, 1)]).blk.freqAt 0x41 + (2 ^ 64 - 2 : Data).toNat < 2 ^ 64 ∧
    2 ^ 64 ≤ (counted [(0x41, 1)]).blk.freqAt 0x41 + (2 ^ 64 - 1 : Data).toNat ∧ treeV1.blk.phase ∉ [.idle, .count, .fault] := by
  decide +kernel

/-- Two merges, one whose total fits and one whose total is just `2^64`. -/
theorem witness_MergeOrderDoesNotMatter :
    (State.reset.blk.phase = .idle ∧ ([(0x61, 1), (0x62, 2)] : List (Sym × Data)).Perm [(0x62, 2), (0x61, 1)]) ∧
    ([(0x61, 1), (0x61, 2 ^ 64 - 1)] : List (Sym × Data)).Perm [(0x61, 2 ^ 64 - 1), (0x61, 1)] ∧
    2 ^ State.reset.cfg.cntW ≤ State.reset.blk.freqAt 0x61 + ((1 : Data).toNat + (2 ^ 64 - 1 : Data).toNat) :=
  ⟨⟨rfl, List.Perm.swap _ _ _⟩, List.Perm.swap _ _ _, by decide +kernel⟩

theorem witness_BuildCompletesOnEveryTable :
    State.reset.blk.phase = .idle ∧ (counted []).blk.phase = .count ∧ treeV1.blk.phase ∉ [.idle, .count, .fault] := by decide

/-- `BUILD` from reset and from a counted block. -/
theorem witness_BuildPlantsOneLeafPerEntry :
    (State.reset.blk.phase = .idle ∧ ∃ t, exec .build State.reset = .next t) ∧
    ((counted [(0x61, 2)]).blk.phase = .count ∧ ∃ t, exec .build (counted [(0x61, 2)]) = .next t) :=
  ⟨⟨rfl, _, rfl⟩, rfl, _, rfl⟩

theorem counted_one (y : Sym) : (counted [(0x41, 3)]).blk.freqAt y = if y = 0x41 then 3 else 0 := by
  have e : symGet Block.reset.freq y = 0 := reset_freqAt y
  simp [counted, withBlk, Block.freqAt, symGet_symSet, e]

theorem witness_BuildOfOneEntryIsALeaf :
    (counted [(0x41, 3)]).blk.phase = .count ∧ ∀ y, (counted [(0x41, 3)]).blk.freqAt y ≠ 0 ↔ y = 0x41 := by
  refine ⟨rfl, fun y => ?_⟩
  rw [counted_one]; split <;> simp_all

theorem witness_EmptyInputGivesEmptyTableAndPayload :
    State.reset.blk.phase = .idle ∧ (∀ x, State.reset.blk.freqAt x = 0) ∧ State.reset.blk.pend = [] ∧ State.reset.blk.bpAny = false :=
  ⟨rfl, reset_freqAt, rfl, rfl⟩

theorem two_entries : 2 ≤ entries (counted [(0, 1), (0xFF, 1)]).blk := by decide +kernel

/-- The premises of the statements about a tree of two or more entries. -/
theorem witness_BuildNumbersInternalNodesFrom256 :
    (counted [(0, 1), (0xFF, 1)]).blk.phase = .count ∧ 2 ≤ entries (counted [(0, 1), (0xFF, 1)]).blk ∧
    ∃ t, exec .build (counted [(0, 1), (0xFF, 1)]) = .next t := ⟨rfl, two_entries, _, rfl⟩

theorem witness_FirstCombinationJoinsTheTwoLeastLeaves :
    (counted [(0, 1), (0xFF, 1)]).blk.phase = .count ∧ 2 ≤ entries (counted [(0, 1), (0xFF, 1)]).blk ∧
    ∃ t, exec .build (counted [(0, 1), (0xFF, 1)]) = .next t := ⟨rfl, two_entries, _, rfl⟩

theorem one_entry : 0 < entries (counted [(0x41, 3)]).blk := by decide +kernel

theorem witness_BuildSumsAllCounters :
    (counted [(0x41, 3)]).blk.phase = .count ∧ 0 < entries (counted [(0x41, 3)]).blk ∧
    (∃ t, exec .build (counted [(0x41, 3)]) = .next t) ∧ ∀ x, (counted [(0x41, 3)]).blk.freqAt x < 2 ^ (counted [(0x41, 3)]).cfg.cntW :=
  ⟨rfl, one_entry, ⟨_, rfl⟩, fun x => by rw [counted_one]; split <;> decide⟩

theorem witness_BuildFollowsTheCombinationRule :
    (counted [(0x41, 3)]).blk.phase = .count ∧ 0 < entries (counted [(0x41, 3)]).blk ∧
    ∃ t, exec .build (counted [(0x41, 3)]) = .next t := ⟨rfl, one_entry, _, rfl⟩

theorem witness_BuildLeavesAStrictTree :
    (counted [(0x41, 3)]).blk.phase = .count ∧ 0 < entries (counted [(0x41, 3)]).blk ∧
    ∃ t, exec .build (counted [(0x41, 3)]) = .next t := ⟨rfl, one_entry, _, rfl⟩

theorem witness_InsertionGoesBehindEquals :
    ([0x61, 257] : List Handle).Pairwise (fun x y => (nodeGet treeV1.blk.node x).freq ≤ (nodeGet treeV1.blk.node y).freq) := by
  decide +kernel

/-- Two blocks of equal `FREQ` in different phases: reset, and reset after `FADD 0x64, 0` (V13). -/
theorem witness_BuildDependsOnFreqAlone :
    State.reset.blk.phase = .idle ∧ (counted []).blk.phase = .count ∧ (∀ x, State.reset.blk.freqAt x = (counted []).blk.freqAt x) ∧
    (∃ t, exec .build State.reset = .next t) ∧ ∃ t, exec .build (counted []) = .next t :=
  ⟨rfl, rfl, fun _ => rfl, ⟨_, rfl⟩, _, rfl⟩

theorem witness_NdrdReadsTheNode :
    (510#9 ≠ 511#9) ∧ State.reset.blk.phase ≠ .fault ∧ faulted.blk.phase = .fault := by decide

/-- The smallest arena with an internal root: two leaves under node 256. -/
def treeTwo : State :=
  withBlk { Block.reset with
    phase := .tree, nsym := 2, root := { valid := true, h := 256 },
    node := nodeSet (nodeSet (nodeSet Block.reset.node 0x61 (leafNode 1)) 0x62 (leafNode 1)) 256
      { valid := true, freq := 2, left := 0x61, right := 0x62 } }

theorem treeTwo_at (h : Handle) : nodeGet treeTwo.blk.node h =
    if h = 256 then { valid := true, freq := 2, left := 0x61, right := 0x62 }
    else if h = 0x62 then leafNode 1 else if h = 0x61 then leafNode 1 else Node.none := by
  have e : nodeGet Block.reset.node h = Node.none := reset_nodeAt h
  simp [treeTwo, withBlk, nodeGet_nodeSet, e, nilHandle]

theorem treeTwo_arena : ArenaOk treeTwo.blk.node := by
  refine ⟨fun h hv => ?_, fun s hv => ?_, fun h hh hv => ?_⟩
  · rw [treeTwo_at] at hv ⊢
    split at hv
    · cases hv
    · split at hv
      · cases hv
      · split at hv
        · cases hv
        · simp_all [Node.none]
  · have hs : (s.setWidth 9 : Handle) ≠ 256 := by
      intro e
      have := leafHandle_lt s
      rw [leafHandle, e] at this; simp at this
    rw [treeTwo_at, if_neg hs] at hv ⊢
    split at hv
    · simp_all [leafNode]
    · split at hv
      · simp_all [leafNode]
      · cases hv
  · have : h = 256 := by
      rw [treeTwo_at] at hv
      by_contra hn
      rw [if_neg hn] at hv
      have a : h ≠ 0x62 := by rintro rfl; simp at hh
      have b : h ≠ 0x61 := by rintro rfl; simp at hh
      rw [if_neg a, if_neg b] at hv
      cases hv
    subst this
    have e256 := treeTwo_at 256
    have e61 := treeTwo_at 0x61
    have e62 := treeTwo_at 0x62
    simp only [if_pos] at e256
    rw [e256]
    simp only
    rw [e61, e62]
    decide

theorem witness_GenRecordsTheRootToLeafPaths :
    treeTwo.blk.phase = .tree ∧ ArenaOk treeTwo.blk.node ∧ treeTwo.blk.root.valid = true ∧
    (treeTwo.blk.nodeAt treeTwo.blk.root.h).valid = true ∧ 256 ≤ treeTwo.blk.root.h.toNat ∧
    State.reset.blk.phase ∉ [.tree, .fault] :=
  ⟨rfl, treeTwo_arena, rfl, by decide +kernel, by decide, by decide⟩

/-- The end of V2's and of V3's `BUILD`. -/
theorem witness_GenOfLeafOrEmptyTree :
    ∃ s s' : State, s.blk.phase = .tree ∧ s.blk.root = { valid := true, h := (0xFF : Sym).setWidth 9 } ∧
      s'.blk.phase = .tree ∧ s'.blk.root.valid = false :=
  ⟨withBlk { Block.reset with phase := .tree, root := { valid := true, h := 0xFF } },
   withBlk { Block.reset with phase := .tree }, rfl, rfl, rfl, rfl⟩

theorem witness_CodesArePrefixFreeAfterGenAndUbeg :
    (∃ t, exec .gen (withBlk { Block.reset with phase := .tree }) = .next t ∧ t.blk.phase = .code) ∧
    ∃ t, exec .ubeg (coded .load t1) = .next t ∧ t.blk.phase = .unpack := by
  refine ⟨⟨_, rfl, rfl⟩, ?_⟩
  have ho : offender (coded .load t1).blk.ct = none := (offender_none _).2 ((prefixFree_iff _).1 t1_prefixFree)
  have he := exec_body (i := .ubeg) (s := coded .load t1) rfl rfl
  simp only [bodyOf, ho] at he
  exact ⟨_, he, rfl⟩

theorem witness_EveryCountedSymbolHasACode :
    State.reset.blk.phase = .idle ∧ (counted [(0, 1), (0xFF, 1)]).blk.phase = .count ∧
    2 ≤ entries (counted [(0, 1), (0xFF, 1)]).blk ∧ 255 ≤ (List.replicate 255 true).length :=
  ⟨rfl, rfl, two_entries, by rw [List.length_replicate]⟩

/-- The one-symbol clause. -/
theorem witness_EveryCountedSymbolHasACode_one :
    (counted [(0x41, 3)]).blk.phase = .count ∧ entries (counted [(0x41, 3)]).blk = 1 := ⟨rfl, by decide +kernel⟩

theorem witness_CtrdReadsTheEntry :
    ((withBlk { Block.reset with ct := tableOf [(0x61, List.replicate 255 true)] }).blk.ctAt 0x61).bits.length ≤ 255 := by
  decide +kernel

/-- Each rejection of `CTLD` at a boundary (length 0; already loaded; bit 0 beyond 255 bits), a code of 255 bits, and a phase
out of sequence. -/
theorem witness_CtldLoadsOneCode :
    State.reset.blk.phase = .idle ∧ (coded .load t1).blk.phase = .load ∧ ((coded .load t1).blk.ctAt 0x41).valid = true ∧
    ((255#8).toNat ≤ 255 ∧ (1 : Data).getMsbD 255 = true) ∧
    ((255#8) ≠ 0 ∧ (State.reset.blk.ctAt 0x61).valid = false ∧ ∀ i, (255#8).toNat ≤ i → i < 256 → (2 : Data).getMsbD i = false) ∧
    treeV1.blk.phase ∉ [.idle, .load, .fault] := by
  refine ⟨rfl, rfl, by decide +kernel, by decide, ⟨by decide, by decide +kernel, ?_⟩, by decide⟩
  intro i h1 h2
  have : i = 255 := by simp at h1; omega
  subst this; decide

theorem witness_LoadingATableRestoresIt : TableOk t1 := t1_tableOk

theorem witness_PackAppendsTheCode :
    (coded .code t1).blk.phase = .code ∧ (coded .pack t1).blk.phase = .pack ∧ ((coded .pack t1).blk.ctAt 0x41).valid = true ∧
    ((coded .pack t1).blk.ctAt 0x40).valid = false ∧ State.reset.blk.phase ∉ [.code, .pack, .fault] := by decide +kernel

theorem witness_PackIsASequentialFold :
    (coded .code t1).blk.phase = .code ∧ (∀ x ∈ [(0x41 : Sym), 0x41], ((coded .code t1).blk.ctAt x).valid = true) ∧
    (coded .code t1).blk.pend.length < 8 := by decide +kernel

theorem witness_FlushEndsThePayload :
    ∃ a b c : State, (a.blk.phase = .pack ∧ a.blk.pend ≠ [] ∧ a.blk.pend.length ≤ 7) ∧
      (b.blk.phase = .pack ∧ b.blk.pend = [] ∧ b.blk.bpAny = true) ∧ (c.blk.phase = .code ∧ c.blk.pend = [] ∧ c.blk.bpAny = false) ∧
      State.reset.blk.phase ∉ [.code, .pack, .fault] :=
  ⟨withBlk { Block.reset with phase := .pack, pend := List.replicate 7 true }, withBlk { Block.reset with phase := .pack, bpAny := true },
   withBlk { Block.reset with phase := .code }, by decide, by decide, by decide, by decide⟩

/-- The table of V38: two equal codes. -/
theorem witness_UbegAcceptsPrefixFreeTables :
    (coded .load t1).blk.phase = .load ∧ (∀ x, ¬ Offends t1 x) ∧
    (let ct := tableOf [(0, [true]), (0xFF, [true])]; Offends ct 0 ∧ ∀ y : Sym, y.toNat < (0 : Sym).toNat → ¬ Offends ct y) ∧
    treeV1.blk.phase ∉ [.idle, .load, .fault] := by
  refine ⟨rfl, (prefixFree_iff _).1 t1_prefixFree, ⟨⟨by decide +kernel, 0xFF, by decide, by decide +kernel, by decide +kernel⟩, ?_⟩, by decide⟩
  intro y hy
  simp at hy

/-- A bit "0" at the root of `t1` ends at the leaf `0x41`; a bit "1" leads nowhere. -/
theorem t1_decodes (q p : Bits) (o : List Byte) (h : Decodes t1 [] q p o) : Decodes t1 [] (false :: q) p (0x41 :: o) :=
  .leaf (by rw [t1_at]; rfl) (by rw [t1_at]; rfl) h

theorem t1_stuck (q p : Bits) (o : List Byte) : ¬ Decodes t1 [] (true :: q) p o := by
  have key : ∀ s : Sym, (symGet t1 s).valid = true → (symGet t1 s).bits = [false] := by
    intro s hs; rw [t1_at] at hs ⊢; split at hs
    · simp_all [codeEntry]
    · cases hs
  intro h
  cases h with
  | leaf h1 h2 _ => rw [key _ h1] at h2; simp at h2
  | inner _ h1 h2 _ => rw [key _ h1] at h2; simp at h2

theorem witness_UnpkDecodesTheHeldByte :
    PrefixFree t1 ∧ (coded .unpack t1).blk.phase = .unpack ∧ (coded .unpack t1).blk.holdValid = false ∧
    ((holding t1 0).blk.holdValid = true ∧ ∃ p o, Decodes t1 [] (bits8 (holding t1 0).blk.hold) p o) ∧
    ((holding t1 0x80).blk.holdValid = true ∧ ∀ p o, ¬ Decodes t1 [] (bits8 (holding t1 0x80).blk.hold) p o) ∧
    State.reset.blk.phase ∉ [.unpack, .fault] := by
  refine ⟨t1_prefixFree, rfl, rfl, ⟨rfl, [], List.replicate 8 0x41, ?_⟩, ⟨rfl, fun p o => ?_⟩, by decide⟩
  · have e : bits8 (holding t1 0).blk.hold = List.replicate 8 false := by decide
    rw [e]
    exact t1_decodes _ _ _ (t1_decodes _ _ _ (t1_decodes _ _ _ (t1_decodes _ _ _ (t1_decodes _ _ _
      (t1_decodes _ _ _ (t1_decodes _ _ _ (t1_decodes _ _ _ (.stop []))))))))
  · have e : bits8 (holding t1 0x80).blk.hold = true :: List.replicate 7 false := by decide
    rw [e]; exact t1_stuck _ _ _

/-- `u` at 0, 1, 8 and 9; a count that ends at the root, one that ends inside a code, one that meets no code. -/
theorem witness_UfinDecodesTheUsedBits :
    PrefixFree t1 ∧ (coded .unpack t1).blk.phase = .unpack ∧ (coded .unpack t1).blk.holdValid = false ∧ (1#8 ≠ 0#8) ∧ 8 < (9#8).toNat ∧
    (holding t1 0).blk.holdValid = true ∧ (8#8 ≠ 0#8 ∧ (8#8).toNat ≤ 8) ∧
    (∃ o, Decodes t1 [] ((bits8 (0 : Byte)).take 1) [] o) ∧
    (∀ p o, ¬ Decodes t1 [] ((bits8 (0x80 : Byte)).take 1) p o) ∧
    (PrefixFree (tableOf [(0x41, [true, true])]) ∧ Decodes (tableOf [(0x41, [true, true])]) [] ((bits8 (0x80 : Byte)).take 1) [true] []) ∧
    State.reset.blk.phase ∉ [.unpack, .fault] := by
  have e0 : (bits8 (0 : Byte)).take 1 = [false] := by decide
  have e1 : (bits8 (0x80 : Byte)).take 1 = [true] := by decide
  have at2 : ∀ s : Sym, symGet (tableOf [(0x41, [true, true])]) s = if s = 0x41 then codeEntry [true, true] else CodeEntry.none := by
    intro s; simp [tableOf, symGet_symSet]
  refine ⟨t1_prefixFree, rfl, rfl, by decide, by decide, rfl, by decide, ?_, ?_, ⟨?_, ?_⟩, by decide⟩
  · rw [e0]; exact ⟨_, t1_decodes _ _ _ (.stop [])⟩
  · rw [e1]; exact t1_stuck _
  · intro s t h hs ht
    rw [at2] at hs ht
    split at hs <;> split at ht <;> simp_all [CodeEntry.none]
  · rw [e1]
    refine .inner (s := 0x41) (fun t ht => ?_) (by rw [at2]; rfl) (by rw [at2]; exact ⟨[true], rfl⟩) (.stop _)
    rw [at2] at ht ⊢
    split at ht
    · simp_all [codeEntry]
    · cases ht

theorem witness_PaddingIsNotRead :
    (holding t1 0).blk.holdValid = true ∧ (bits8 (0x7F : Byte)).take (1#8).toNat = (bits8 (holding t1 0).blk.hold).take (1#8).toNat ∧
    ∃ t, exec (.ufin 1) (holding t1 0) = .next t ∧ t.blk.phase = .done := by
  refine ⟨rfl, by decide, ?_⟩
  have hd : decodeBits t1 [] ((bits8 (0 : Byte)).take (1#8).toNat) = some ([], [0x41]) := by
    rw [decodeBits_iff t1_prefixFree, show (bits8 (0 : Byte)).take (1#8).toNat = [false] by decide]
    exact t1_decodes _ _ _ (.stop [])
  have he := exec_body (i := .ufin 1) (s := holding t1 0) rfl rfl
  unfold bodyOf at he
  dsimp only at he
  rw [if_neg (by decide), if_neg (by decide), show decodeBits (holding t1 0).blk.ct (holding t1 0).blk.path ((bits8 (holding t1 0).blk.hold).take (BitVec.toNat (1 : Byte))) = _ from hd] at he
  exact ⟨_, he, rfl⟩

theorem witness_ResetMeetsTheInvariant : ({ cntW := 1 } : Config).wf ∧ ({ cntW := 128 } : Config).wf := by decide

/-- A live state and a faulted one that meet the invariant, each with a step. -/
theorem witness_StepKeepsTheInvariant :
    ((offerFirst State.reset { cmd := 0x10006100, wdata := 0 }).Inv ∧
      ∃ t, step (offerFirst State.reset { cmd := 0x10006100, wdata := 0 }) = .next t) ∧
    (offerFirst illegalOnce { cmd := 0x03000000, wdata := 0 }).Inv ∧
      ∃ t, step (offerFirst illegalOnce { cmd := 0x03000000, wdata := 0 }) = .next t :=
  ⟨⟨reset_inv, _, rfl⟩, illegalOnce_inv, _, rfl⟩

theorem witness_EveryStepHasANextState : State.reset.Inv ∧ illegalOnce.Inv := ⟨reset_inv, illegalOnce_inv⟩

/-- A source that fills two 1-bit counters, and the empty one. -/
theorem witness_DecodingAnEncodedSourceGivesItBack :
    ({ cntW := 1 } : Config).wf ∧ (∀ x : Byte, [(0xFF : Byte), 0].count x < 2 ^ ({ cntW := 1 } : Config).cntW) ∧
    (∀ x : Byte, ([] : List Byte).count x < 2 ^ ({ cntW := 1 } : Config).cntW) := by
  refine ⟨by decide, fun x => ?_, fun x => by simp⟩
  have : [(0xFF : Byte), 0].count x ≤ 1 := List.nodup_iff_count_le_one.1 (by decide) x
  exact Nat.lt_succ_of_le this

end Sys2Proof.Machine
end

