-- ==== Sys2Proof/Proofs/Step.lean ====
section
/-! SUPPORT. What a step does with the oldest command on the `cmd` port (00 R5, 30 R106). -/

namespace Sys2Proof.Machine

theorem nextCommand_of_cmdq_cons {s : State} {c : Command} {rest : List Command} (hq : s.cmdq = c :: rest) :
    nextCommand s = some (c, { s with cmdq := rest }) := by
  simp only [nextCommand, hq]

theorem step_of_decode_ok {s s' : State} {c : Command} {i : Instr} (hn : nextCommand s = some (c, s'))
    (hd : decode c = .ok i) : step s = exec i s' := by
  simp only [step, hn, hd]

/-- Settles O5: the port yields its oldest command and the machine without it, and a decoded command is executed there. -/
theorem stepRunsTheDecodedCommand : Obligations.StepRunsTheDecodedCommand := by
  intro s c rest i hq hd
  exact step_of_decode_ok (nextCommand_of_cmdq_cons hq) hd

end Sys2Proof.Machine
end

section
/-! SUPPORT. What each command leaves of the block where it completes, and the three ways a command can end. -/

namespace Sys2Proof.Machine

/-- The block after the fault entry (60 R253). -/
def faultBlock (op : BitVec 8) (k : FaultKind) (ctx : BitVec 9) (b : Block) : Block :=
  { b with err := { kind := k.num, op := op, ctx := ctx, phase := b.phase.num }, phase := .fault }

/-- `FREQ` and `PHASE` after `n` more occurrences of `sym`, where the exact sum fits the counter (40 R130, R131, R135). -/
def CountEffect (cfg : Config) (sym : Sym) (n : Nat) (b b' : Block) : Prop :=
  b.freqAt sym + n < 2 ^ cfg.cntW ∧
    b' = { b with freq := symSet b.freq sym (b.freqAt sym + n), phase := .count }

/-- The block after a command that did not fault (10 R53), with the checks that the invariant rests on. `BP_ANY`, of which it
asks nothing, is left open. -/
def Effect (cfg : Config) (b b' : Block) : Instr → Prop
  | .nop | .csrr _ | .frd _ | .ndrd _ | .ctrd _ => b' = b
  | .clr => b' = Block.reset
  | .acc sym => CountEffect cfg sym 1 b b'
  | .fadd sym c => CountEffect cfg sym c.toNat b b'
  | .build => b' = buildBlock b
  | .gen => ∃ ct, genTable b = some ct ∧ b' = { b with ct := ct, phase := .code }
  | .ctld sym len w => len ≠ 0 ∧
      b' = { b with ct := symSet b.ct sym { valid := true, len := len, bits := codeOperand len w }, phase := .load }
  | .pack sym => ∃ any,
      b' = { b with pend := (drain (b.pend ++ (b.ctAt sym).bits)).2, bpAny := any, phase := .pack }
  | .flush => ∃ any, b' = { b with pend := [], bpAny := any, finalUsed := finalUsedOf b, fuValid := true, phase := .done }
  | .ubeg => offender b.ct = none ∧ b' = { b with path := [], hold := 0, holdValid := false, phase := .unpack }
  | .unpk x => ∃ p, (p = b.path ∨ ∃ o, decodeBits b.ct b.path (bits8 b.hold) = some (p, o)) ∧
      b' = { b with path := p, hold := x, holdValid := true }
  | .ufin _ => b' = { b with path := [], hold := 0, holdValid := false, phase := .done }

/-- A command ends in one of three ways: the block is left alone in `FAULT`; it faults outside `FAULT`; or it is legal and
has its own effect (30 R106, 60 R250, R253). -/
inductive Ends (i : Instr) (s t : State) : Prop
  | aborted : s.blk.phase = .fault → t.blk = s.blk → Ends i s t
  | faulted (op : BitVec 8) (k : FaultKind) (ctx : BitVec 9) :
      s.blk.phase ≠ .fault → t.blk = faultBlock op k ctx s.blk → Ends i s t
  | completed : legalIn i s.blk.phase = true → Effect s.cfg s.blk t.blk i → Ends i s t

theorem blk_of_takeFault {op : BitVec 8} {k : FaultKind} {ctx : BitVec 9} {s t : State}
    (h : takeFault op k ctx s = .next t) : t.blk = faultBlock op k ctx s.blk := by
  cases h; rfl

theorem blk_of_complete {s t : State} {b : Block} {r : Response} (h : complete s b r = .next t) : t.blk = b := by
  cases h; rfl

theorem blk_of_abort {s t : State} (h : abort s = .next t) : t.blk = s.blk := blk_of_complete h

/-- `ACC` and `FADD` fault, or complete where the exact sum fits (40 R135). -/
theorem countUp_ends {i : Instr} {sym : Sym} {n : Nat} {s t : State} (h : countUp i sym n s = .next t) :
    (∃ op k ctx, t.blk = faultBlock op k ctx s.blk) ∨ CountEffect s.cfg sym n s.blk t.blk := by
  by_cases hfit : s.blk.freqAt sym + n < 2 ^ s.cfg.cntW
  · rw [countUp_fits _ _ _ _ hfit] at h
    exact .inr ⟨hfit, blk_of_complete h⟩
  · rw [countUp_overflows _ _ _ _ (Nat.not_lt.1 hfit)] at h
    exact .inl ⟨_, _, _, blk_of_takeFault h⟩

/-- Step 4 of 30 R106: a command other than `NOP`, `CLR` and the reads may fault; else it has its effect. -/
theorem body_ends {i : Instr} {s t : State} (h : bodyOf i s = .next t) :
    (runsInFault i = false ∧ ∃ op k ctx, t.blk = faultBlock op k ctx s.blk) ∨ Effect s.cfg s.blk t.blk i := by
  cases i with
  | nop | clr | csrr _ | frd _ | build | ndrd _ | ctrd _ => exact .inr (blk_of_complete h)
  | acc sym => exact (countUp_ends h).imp_left (⟨rfl, ·⟩)
  | fadd sym c => exact (countUp_ends h).imp_left (⟨rfl, ·⟩)
  | gen =>
    simp only [bodyOf] at h
    split at h
    · cases h
    · exact .inr ⟨_, ‹_›, blk_of_complete h⟩
  | ctld sym len w =>
    simp only [bodyOf] at h
    split at h
    · exact .inl ⟨rfl, _, _, _, blk_of_takeFault h⟩
    · rename_i hc
      exact .inr ⟨fun e => hc (.inl e), blk_of_complete h⟩
  | pack sym =>
    simp only [bodyOf] at h
    split at h
    · exact .inl ⟨rfl, _, _, _, blk_of_takeFault h⟩
    · exact .inr ⟨_, blk_of_complete h⟩
  | flush => exact .inr ⟨_, blk_of_complete h⟩
  | ubeg =>
    simp only [bodyOf] at h
    split at h
    · exact .inl ⟨rfl, _, _, _, blk_of_takeFault h⟩
    · exact .inr ⟨‹_›, blk_of_complete h⟩
  | unpk x =>
    simp only [bodyOf, holdByte] at h
    split at h
    · split at h
      · exact .inl ⟨rfl, _, _, _, blk_of_takeFault h⟩
      · exact .inr ⟨_, .inr ⟨_, ‹_›⟩, blk_of_complete h⟩
    · exact .inr ⟨_, .inl rfl, blk_of_complete h⟩
  | ufin u =>
    simp only [bodyOf, finishUnpack] at h
    split at h
    · split at h
      · exact .inl ⟨rfl, _, _, _, blk_of_takeFault h⟩
      · exact .inr (blk_of_complete h)
    · split at h
      · exact .inl ⟨rfl, _, _, _, blk_of_takeFault h⟩
      · split at h
        · exact .inl ⟨rfl, _, _, _, blk_of_takeFault h⟩
        · split at h
          · exact .inl ⟨rfl, _, _, _, blk_of_takeFault h⟩
          · exact .inr (blk_of_complete h)

theorem runsInFault_of_legal {i : Instr} (h : legalIn i .fault = true) : runsInFault i = true :=
  (runs_iff i).2 ((legal_iff i _).1 h)

theorem exec_ends {i : Instr} {s t : State} (h : exec i s = .next t) : Ends i s t := by
  rw [exec_eq_process] at h
  rcases process_cases i s (bodyOf i s) with ⟨hp, -, e⟩ | ⟨hp, -, e⟩ | ⟨hp, -, -, e⟩ | ⟨-, hl, -, e⟩ <;> rw [e] at h
  · exact .aborted hp (blk_of_abort h)
  · exact .faulted _ _ _ hp (blk_of_takeFault h)
  · exact .faulted _ _ _ hp (blk_of_takeFault h)
  · rcases body_ends h with ⟨hr, op, k, ctx, hb⟩ | he
    · refine .faulted op k ctx (fun hp => ?_) hb
      rw [hp] at hl
      rw [runsInFault_of_legal hl] at hr
      cases hr
    · exact .completed hl he

/-- A word that does not decode is answered in `FAULT` by leaving the block alone, elsewhere by the fault entry. -/
theorem takeIllegal_ends {op : BitVec 8} {idx : BitVec 9} {s t : State} (h : takeIllegal op idx s = .next t) :
    (s.blk.phase = .fault ∧ t.blk = s.blk) ∨
      (s.blk.phase ≠ .fault ∧ t.blk = faultBlock op .illegalCommand idx s.blk) := by
  unfold takeIllegal at h
  split at h
  · exact .inl ⟨‹_›, blk_of_abort h⟩
  · exact .inr ⟨‹_›, blk_of_takeFault h⟩

/-- A command carried out in `FAULT` keeps the whole block or clears it (60 R255). -/
theorem effect_in_fault {i : Instr} {cfg : Config} {b b' : Block} (hl : legalIn i .fault = true)
    (h : Effect cfg b b' i) : b' = b ∨ b' = Block.reset := by
  cases i with
  | nop | csrr _ | frd _ | ndrd _ | ctrd _ => exact .inl h
  | clr => exact .inr h
  | _ => cases hl

end Sys2Proof.Machine
end

section
/-! SUPPORT. What `BUILD` leaves of the arena, and what `GEN` writes, as the invariant reads them (10 R24 to R30, 41 R159). -/

namespace Sys2Proof.Machine

/-! ## The arena after `BUILD` -/

/-- Below a valid node every node is valid (10 R25). -/
theorem valid_of_leads {a : Vector Node 511} (ha : ArenaOk a) {r h : Handle} {p : Bits} (l : Leads a r p h)
    (hr : (nodeGet a r).valid = true) : (nodeGet a h).valid = true := by
  induction l with
  | here => exact hr
  | left h1 _ _ ih =>
    obtain ⟨-, -, hv, -⟩ := ha.internal _ h1 hr
    exact ih hv
  | right h1 _ _ ih =>
    obtain ⟨-, -, -, hv, -⟩ := ha.internal _ h1 hr
    exact ih hv

/-- Handles do not rise along a path, and neither do frequencies (10 R24, R25). -/
theorem le_of_leads {a : Vector Node 511} (ha : ArenaOk a) {r h : Handle} {p : Bits} (l : Leads a r p h)
    (hr : (nodeGet a r).valid = true) : h.toNat ≤ r.toNat ∧ (nodeGet a h).freq ≤ (nodeGet a r).freq := by
  induction l with
  | here => exact ⟨le_refl _, le_refl _⟩
  | left h1 _ _ ih =>
    obtain ⟨hlt, -, hv, -, hf⟩ := ha.internal _ h1 hr
    have := ih hv
    omega
  | right h1 _ _ ih =>
    obtain ⟨-, hlt, -, hv, hf⟩ := ha.internal _ h1 hr
    have := ih hv
    omega

/-- With an entry in the table `BUILD` leaves one tree, under `ROOT` (41 R155). -/
theorem buildBlock_tree {b : Block} (hn : entries b ≠ 0) :
    (buildBlock b).root.valid = true ∧
      ∃ next, Forest (entries b) (buildBlock b).node next [(buildBlock b).root.h] := by
  obtain ⟨next, F, hv, -⟩ := buildBlock_spec b
  rw [if_pos (hv.2 hn)] at F
  exact ⟨hv.2 hn, next, F⟩

/-- The empty table leaves no tree (41 R157). -/
theorem buildBlock_empty {b : Block} (hn : entries b = 0) :
    (buildBlock b).root = { valid := false, h := nilHandle } ∧ ∃ next, Forest 0 (buildBlock b).node next [] := by
  obtain ⟨next, F, hv, hnil, -⟩ := buildBlock_spec b
  have hf : (buildBlock b).root.valid = false := Bool.eq_false_iff.2 fun h => hv.1 h hn
  rw [if_neg (by simp [hf]), hn] at F
  refine ⟨?_, next, F⟩
  rw [← hnil hf, ← hf]

theorem buildBlock_arena (b : Block) : ArenaOk (buildBlock b).node :=
  let ⟨_, F, _⟩ := buildBlock_spec b
  F.arena

theorem buildBlock_rootOk (b : Block) : RootOk (buildBlock b) := by
  by_cases hn : entries b = 0
  · obtain ⟨hr, -⟩ := buildBlock_empty hn
    rw [RootOk, hr]
    exact ⟨fun _ => rfl, nofun⟩
  · obtain ⟨hv, next, F⟩ := buildBlock_tree hn
    exact ⟨fun h => (by rw [hv] at h; cases h), fun _ => F.valid _ (by simp)⟩

/-- `NSYM` is the number of entries (10 R27). -/
theorem buildBlock_nsym_toNat (b : Block) : (buildBlock b).nsym.toNat = entries b := by
  have := leafList_length b.freq
  rw [buildBlock_nsym, entries_eq, val9, BitVec.toNat_ofNat, Nat.mod_eq_of_lt (by omega)]

theorem entries_le (b : Block) : entries b ≤ 256 := by
  rw [entries_eq]; exact leafList_length _

/-- No node's frequency exceeds the sum of all counters (41 R159). -/
theorem buildBlock_freq_le (b : Block) (h : Handle) :
    ((buildBlock b).nodeAt h).freq ≤ ((leafList b.freq).map (symGet b.freq)).sum := by
  obtain ⟨next, F, -, -, hsum, -⟩ := buildBlock_spec b
  by_cases hv : ((buildBlock b).nodeAt h).valid = true
  · obtain ⟨r, hr, p, l⟩ := F.reach h hv
    refine (le_of_leads F.arena l (F.valid r hr)).2.trans ?_
    rw [← hsum]
    exact List.single_le_sum (by simp) _ (List.mem_map_of_mem hr)
  · have := F.arena.invalid h (Bool.eq_false_iff.2 hv)
    rw [Block.nodeAt, this]
    exact Nat.zero_le _

/-- Of at most 256 counters below `2^w` the sum is below `2^(w + 8)` (41 R159). -/
theorem leaf_sum_lt {freq : Vector Nat 256} {w : Nat} (h : ∀ s, symGet freq s < 2 ^ w) :
    ((leafList freq).map (symGet freq)).sum < 2 ^ (w + 8) := by
  have hle : ((leafList freq).map (symGet freq)).sum ≤ (leafList freq).length * (2 ^ w - 1) := by
    have := List.sum_le_card_nsmul ((leafList freq).map (symGet freq)) (2 ^ w - 1) (by
      intro x hx
      obtain ⟨s, -, rfl⟩ := List.mem_map.1 hx
      have := h s
      omega)
    simpa using this
  have hpos : 0 < 2 ^ w := Nat.two_pow_pos w
  calc _ ≤ (leafList freq).length * (2 ^ w - 1) := hle
    _ ≤ 256 * (2 ^ w - 1) := Nat.mul_le_mul_right _ (leafList_length freq)
    _ < 2 ^ (w + 8) := by rw [Nat.pow_add]; omega

/-! ## The table after `GEN` -/

/-- An empty entry and a code of 1 to 255 bits are legal (10 R28, R29). -/
theorem codeEntry_tableOk {e : CodeEntry}
    (h : e = CodeEntry.none ∨ ∃ p, 1 ≤ p.length ∧ p.length ≤ 255 ∧ e = codeEntry p) :
    (e.valid = false → e = { valid := false, len := 0, bits := [] }) ∧
      (e.valid = true → 1 ≤ e.len.toNat ∧ e.bits.length = e.len.toNat) := by
  rcases h with rfl | ⟨p, h1, h2, rfl⟩
  · exact ⟨fun _ => rfl, nofun⟩
  · refine ⟨nofun, fun _ => ?_⟩
    simp only [codeEntry, BitVec.toNat_ofNat]
    omega

/-- `GEN` writes legal entries (10 R28, R29, 42 R175). -/
theorem genTable_tableOk {b : Block} {ct : Vector CodeEntry 256} (e : genTable b = some ct) : TableOk ct := by
  intro s
  apply codeEntry_tableOk
  rcases genTable_some e s with ⟨-, hs⟩ | ⟨-, -, hs⟩ | ⟨-, -, ⟨q, -, h1, h2, hs⟩ | ⟨-, hs⟩⟩
  · exact .inl hs
  · split at hs
    · exact .inr ⟨[false], by simp, by simp, hs⟩
    · exact .inl hs
  · exact .inr ⟨q, h1, h2, hs⟩
  · exact .inl hs

/-- What a valid entry written by `GEN` says: its symbol is the leaf that is the root, or its code is the path to it from an
internal root (42 R171, R172). -/
theorem genTable_valid {b : Block} {ct : Vector CodeEntry 256} (e : genTable b = some ct) {x : Sym}
    (hv : (symGet ct x).valid = true) :
    leafHandle x = b.root.h ∨ 256 ≤ b.root.h.toNat ∧ Leads b.node b.root.h (symGet ct x).bits (leafHandle x) := by
  rcases genTable_some e x with ⟨-, hs⟩ | ⟨-, -, hs⟩ | ⟨-, hr, ⟨q, l, -, -, hs⟩ | ⟨-, hs⟩⟩
  · rw [hs] at hv; cases hv
  · split at hs
    · exact .inl ‹_›
    · rw [hs] at hv; cases hv
  · rw [hs]; exact .inr ⟨hr, l⟩
  · rw [hs] at hv; cases hv

/-- The codes `GEN` writes are paths to different leaves, so none begins another (10 R30, 42 R174). -/
theorem genTable_prefixFree {b : Block} {ct : Vector CodeEntry 256} (e : genTable b = some ct) : PrefixFree ct := by
  intro s t hst hs ht ⟨q, hq⟩
  have hls := leafHandle_lt s
  have hlt := leafHandle_lt t
  rcases genTable_valid e hs with h | ⟨hr, l⟩ <;> rcases genTable_valid e ht with h' | ⟨hr', l'⟩
  · exact hst (leafHandle_inj.1 (h.trans h'.symm))
  · rw [← h] at hr'; omega
  · rw [← h'] at hr; omega
  · rw [← hq] at l'
    exact hst (leafHandle_inj.1 (leads_prefix hls l l').2.symm)

/-- A table that `UBEG` accepts is one without offender (44 R211). -/
theorem prefixFree_of_offender {ct : Vector CodeEntry 256} (h : offender ct = none) : PrefixFree ct :=
  (prefixFree_iff ct).2 ((offender_none ct).1 h)

/-! ## The unpacker's position -/

/-- A decode from the root or a position inside a code ends at the root or inside a code (10 R34, 44 R213). -/
theorem decodeBits_position {ct : Vector CodeEntry 256} {q p p' : Bits} {o : List Byte}
    (hp : p = [] ∨ ∃ s, (symGet ct s).valid = true ∧ p <+: (symGet ct s).bits ∧ p ≠ (symGet ct s).bits)
    (h : decodeBits ct p q = some (p', o)) :
    p' = [] ∨ ∃ s, (symGet ct s).valid = true ∧ p' <+: (symGet ct s).bits ∧ p' ≠ (symGet ct s).bits := by
  induction q generalizing p o with
  | nil => cases h; exact hp
  | cons x q ih =>
    simp only [decodeBits] at h
    split at h
    · obtain ⟨⟨p1, o1⟩, hr, he⟩ := Option.map_eq_some_iff.1 h
      cases he
      exact ih (.inl rfl) hr
    · rename_i hleaf
      split at h
      · rename_i hon
        obtain ⟨s, hv, hpre⟩ := onPath_iff.1 hon
        exact ih (.inr ⟨s, hv, hpre, (leafAt_none.1 hleaf s hv).symm⟩) h
      · cases h

end Sys2Proof.Machine
end

section
/-! PROOF. The invariant of the machine holds at reset and every step keeps it. -/

namespace Sys2Proof.Machine

/-! ## What the invariant says of `ERR` and `PHASE` -/

theorem sessionShape_err {b : Block} (h : SessionShape b) : b.err = { kind := 0, op := 0, ctx := 0, phase := 0 } := by
  unfold SessionShape at h
  split at h
  case h_8 => rcases h with h | h <;> rw [h] <;> rfl
  case h_9 => exact h.elim
  all_goals rw [h]; rfl

theorem phase_of_live {c : Config} {b : Block} (h : LiveInv c b) : b.phase ≠ .fault := by
  intro hp
  have := h.shape
  rw [SessionShape, hp] at this
  exact this

theorem live_of_inv {c : Config} {b : Block} (h : b.Inv c) (hp : b.phase ≠ .fault) : LiveInv c b :=
  h.resolve_right fun hf => hp hf.1

/-- The fault entry keeps the invariant: undone, it leaves the block of before, whose `ERR` was clear (60 R253, R254). -/
theorem inv_faultBlock {c : Config} {b : Block} (op : BitVec 8) (k : FaultKind) (ctx : BitVec 9) (h : LiveInv c b) :
    (faultBlock op k ctx b).Inv c := by
  refine .inr ⟨rfl, b.phase, k, ?_, rfl, rfl⟩
  rw [← sessionShape_err h.shape]
  exact h

/-! ## Reset -/

theorem reset_liveInv {cfg : Config} : LiveInv cfg Block.reset where
  counters s := by rw [reset_freqAt]; positivity
  widths h := by rw [reset_nodeAt]; exact Nat.two_pow_pos _
  arena := by
    have hnone : ∀ h, nodeGet Block.reset.node h = Node.none := reset_nodeAt
    refine ⟨fun h _ => hnone h, fun s hv => ?_, fun h _ hv => ?_⟩ <;> rw [hnone] at hv <;> cases hv
  root := ⟨fun _ => rfl, nofun⟩
  nsym := by decide
  table s := by
    rw [show symGet Block.reset.ct s = CodeEntry.none from reset_ctAt s]
    exact ⟨fun _ => rfl, nofun⟩
  codes := by rintro (h | h | h | h) <;> cases h
  pend := by decide
  finalUsed := by decide
  path := .inl rfl
  hold := fun _ => ⟨rfl, rfl⟩
  shape := rfl

/-- Settles O51: every field of the reset block is at its reset value, whatever the width. -/
theorem resetMeetsTheInvariant : Obligations.ResetMeetsTheInvariant := fun _ hc => ⟨hc, .inl reset_liveInv⟩

/-! ## The effects, command by command -/

section
variable {cfg : Config} {b b' : Block}

/-! What each family of phases leaves at its reset value (10 R47). -/

theorem block_of_counting (hs : SessionShape b) (hp : b.phase = .idle ∨ b.phase = .count) :
    b = { Block.reset with phase := b.phase, freq := b.freq } := by
  rcases hp with hp | hp <;> rw [SessionShape, hp] at hs <;> rw [hs]

theorem block_of_tree (hs : SessionShape b) (hp : b.phase = .tree) : b =
    { Block.reset with phase := .tree, freq := b.freq, node := b.node, root := b.root, nsym := b.nsym } := by
  rwa [SessionShape, hp] at hs

theorem block_of_packing (hs : SessionShape b) (hp : b.phase = .code ∨ b.phase = .pack) : b =
    { Block.reset with phase := b.phase, freq := b.freq, node := b.node, root := b.root, nsym := b.nsym, ct := b.ct,
                       pend := b.pend, bpAny := b.bpAny } := by
  rcases hp with hp | hp <;> rw [SessionShape, hp] at hs <;> rw [hs]

theorem block_of_loading (hs : SessionShape b) (hp : b.phase = .idle ∨ b.phase = .load) :
    b = { Block.reset with phase := b.phase, ct := b.ct } := by
  rcases hp with hp | hp <;> rw [SessionShape, hp] at hs <;> rw [hs]

theorem block_of_unpacking (hs : SessionShape b) (hp : b.phase = .unpack) : b =
    { Block.reset with phase := .unpack, ct := b.ct, path := b.path, hold := b.hold, holdValid := b.holdValid } := by
  rwa [SessionShape, hp] at hs

/-- Only an unpacking session moves from the root (10 R34). -/
theorem path_of_live (h : LiveInv cfg b) (hp : b.phase ≠ .unpack) : b.path = [] := by
  have hs := h.shape
  unfold SessionShape at hs
  split at hs
  case h_7 => exact absurd ‹_› hp
  case h_8 => rcases hs with hs | hs <;> rw [hs] <;> rfl
  case h_9 => exact hs.elim
  all_goals rw [hs]; rfl

/-- `ACC`, `FADD` (40 R135). -/
theorem live_of_count {sym : Sym} {n : Nat} (h : LiveInv cfg b) (hp : b.phase = .idle ∨ b.phase = .count)
    (he : CountEffect cfg sym n b b') : LiveInv cfg b' := by
  obtain ⟨hfit, rfl⟩ := he
  exact { h with
    counters := fun s => by
      show symGet (symSet b.freq sym _) s < _
      rw [symGet_symSet]
      split
      · exact hfit
      · exact h.counters s
    codes := by rintro (h | h | h | h) <;> cases h
    shape := by rw [block_of_counting h.shape hp]; rfl }

theorem shape_of_tree (hs : SessionShape b) (hp : b.phase = .idle ∨ b.phase = .count) (a : Vector Node 511) (r : Root)
    (n : BitVec 9) : SessionShape { b with node := a, root := r, nsym := n, phase := .tree } := by
  rw [block_of_counting hs hp]; rfl

/-- `BUILD` (41 R158, R159). -/
theorem live_of_build (h : LiveInv cfg b) (hp : b.phase = .idle ∨ b.phase = .count) : LiveInv cfg (buildBlock b) :=
  { h with
    widths := fun k => (buildBlock_freq_le b k).trans_lt (leaf_sum_lt h.counters)
    arena := buildBlock_arena b
    root := buildBlock_rootOk b
    nsym := by rw [buildBlock_nsym_toNat]; exact entries_le b
    codes := by rintro (h | h | h | h) <;> cases h
    shape := shape_of_tree h.shape hp _ _ _ }

/-- `GEN` (42 R174, R175). -/
theorem live_of_gen {ct : Vector CodeEntry 256} (h : LiveInv cfg b) (hp : b.phase = .tree) (hg : genTable b = some ct) :
    LiveInv cfg { b with ct := ct, phase := .code } :=
  { h with
    table := genTable_tableOk hg
    codes := fun _ => genTable_prefixFree hg
    path := .inl (path_of_live (b := b) h (by simp [hp]))
    shape := by rw [block_of_tree h.shape hp]; rfl }

/-- `CTLD` (42 R177). -/
theorem live_of_ctld {sym : Sym} {len : Byte} {w : Data} (h : LiveInv cfg b) (hp : b.phase = .idle ∨ b.phase = .load)
    (hlen : len ≠ 0) : LiveInv cfg
      { b with ct := symSet b.ct sym { valid := true, len := len, bits := codeOperand len w }, phase := .load } :=
  { h with
    table := fun s => by
      have hpos : len.toNat ≠ 0 := fun e => hlen (BitVec.eq_of_toNat_eq e)
      rw [symGet_symSet]
      split
      · exact ⟨nofun, fun _ => ⟨Nat.pos_of_ne_zero hpos, codeOperand_length _ _⟩⟩
      · exact h.table s
    codes := by rintro (h | h | h | h) <;> cases h
    path := .inl (path_of_live (b := b) h (by rcases hp with hp | hp <;> simp [hp]))
    shape := by rw [block_of_loading h.shape hp]; rfl }

/-- `PACK` (43 R190, R197). -/
theorem live_of_pack {p : Bits} {any : Bool} (h : LiveInv cfg b) (hp : b.phase = .code ∨ b.phase = .pack) :
    LiveInv cfg { b with pend := (drain p).2, bpAny := any, phase := .pack } :=
  { h with
    codes := fun _ => h.codes (by tauto)
    pend := Nat.le_of_lt_succ (drain_spec p).2
    shape := by rw [block_of_packing h.shape hp]; rfl }

theorem finalUsedOf_le (h : b.pend.length ≤ 7) : (finalUsedOf b).toNat ≤ 8 := by
  unfold finalUsedOf
  split
  · rw [BitVec.toNat_ofNat]; omega
  · split <;> decide

/-- `FLUSH` (43 R193). -/
theorem live_of_flush {any : Bool} (h : LiveInv cfg b) (hp : b.phase = .code ∨ b.phase = .pack) : LiveInv cfg
    { b with pend := [], bpAny := any, finalUsed := finalUsedOf b, fuValid := true, phase := .done } :=
  { h with
    codes := fun _ => h.codes (by tauto)
    pend := Nat.zero_le _
    finalUsed := finalUsedOf_le h.pend
    shape := by rw [block_of_packing h.shape hp]; exact .inl rfl }

/-- `UBEG` (44 R210, R211). -/
theorem live_of_ubeg (h : LiveInv cfg b) (hp : b.phase = .idle ∨ b.phase = .load) (hn : offender b.ct = none) :
    LiveInv cfg { b with path := [], hold := 0, holdValid := false, phase := .unpack } :=
  { h with
    codes := fun _ => prefixFree_of_offender hn
    path := .inl rfl
    hold := fun _ => ⟨rfl, rfl⟩
    shape := by rw [block_of_loading h.shape hp]; rfl }

/-- `UNPK` (44 R212, R213). -/
theorem live_of_unpk {x : Byte} {p : Bits} (h : LiveInv cfg b) (hp : b.phase = .unpack)
    (he : p = b.path ∨ ∃ o, decodeBits b.ct b.path (bits8 b.hold) = some (p, o)) :
    LiveInv cfg { b with path := p, hold := x, holdValid := true } :=
  { h with
    path := by
      rcases he with rfl | ⟨o, ho⟩
      · exact h.path
      · exact decodeBits_position h.path ho
    hold := nofun
    shape := by rw [block_of_unpacking h.shape hp]; rfl }

/-- `UFIN` (44 R215). -/
theorem live_of_ufin (h : LiveInv cfg b) (hp : b.phase = .unpack) :
    LiveInv cfg { b with path := [], hold := 0, holdValid := false, phase := .done } :=
  { h with
    codes := fun _ => h.codes (by tauto)
    path := .inl rfl
    hold := fun _ => ⟨rfl, rfl⟩
    shape := by rw [block_of_unpacking h.shape hp]; exact .inr rfl }

/-- A command that completes outside `FAULT` keeps the invariant. -/
theorem live_of_effect {i : Instr} (h : LiveInv cfg b) (hl : legalIn i b.phase = true) (he : Effect cfg b b' i) :
    LiveInv cfg b' := by
  cases i with
  | nop | csrr _ | frd _ | ndrd _ | ctrd _ => rw [he]; exact h
  | clr => rw [he]; exact reset_liveInv
  | acc sym => exact live_of_count h (by simpa [legalIn] using hl) he
  | fadd sym c => exact live_of_count h (by simpa [legalIn] using hl) he
  | build => rw [he]; exact live_of_build h (by simpa [legalIn] using hl)
  | gen =>
    obtain ⟨ct, hg, rfl⟩ := he
    exact live_of_gen h (by simpa [legalIn] using hl) hg
  | ctld sym len w =>
    obtain ⟨hlen, rfl⟩ := he
    exact live_of_ctld h (by simpa [legalIn] using hl) hlen
  | pack sym =>
    obtain ⟨any, rfl⟩ := he
    exact live_of_pack h (by simpa [legalIn] using hl)
  | flush =>
    obtain ⟨any, rfl⟩ := he
    exact live_of_flush h (by simpa [legalIn] using hl)
  | ubeg =>
    obtain ⟨hn, rfl⟩ := he
    exact live_of_ubeg h (by simpa [legalIn] using hl) hn
  | unpk x =>
    obtain ⟨p, hd, rfl⟩ := he
    exact live_of_unpk h (by simpa [legalIn] using hl) hd
  | ufin u => rw [he]; exact live_of_ufin h (by simpa [legalIn] using hl)

end

/-! ## The step -/

theorem inv_of_effect {i : Instr} {cfg : Config} {b b' : Block} (h : b.Inv cfg) (hl : legalIn i b.phase = true)
    (he : Effect cfg b b' i) : b'.Inv cfg := by
  by_cases hp : b.phase = .fault
  · rw [hp] at hl
    rcases effect_in_fault hl he with rfl | rfl
    · exact h
    · exact .inl reset_liveInv
  · exact .inl (live_of_effect (live_of_inv h hp) hl he)

theorem takeIllegal_cfg {op : BitVec 8} {idx : BitVec 9} {s t : State} (h : takeIllegal op idx s = .next t) :
    t.cfg = s.cfg := by
  unfold takeIllegal at h
  split at h <;> cases h <;> rfl

/-- Taking a command from the port touches neither the block nor the parameter (20 R72). -/
theorem inv_of_nextCommand {s s' : State} {c : Command} (h : s.Inv) (hn : nextCommand s = some (c, s')) : s'.Inv := by
  unfold nextCommand at hn
  split at hn <;> cases hn
  exact h

/-- A command keeps the invariant of the block, however it ends. -/
theorem inv_of_ends {i : Instr} {s t : State} (h : s.blk.Inv s.cfg) (he : Ends i s t) : t.blk.Inv s.cfg := by
  cases he with
  | aborted _ hb => rw [hb]; exact h
  | faulted op k ctx hp hb => rw [hb]; exact inv_faultBlock op k ctx (live_of_inv h hp)
  | completed hl he => exact inv_of_effect h hl he

theorem exec_inv {i : Instr} {s t : State} (h : s.Inv) (he : exec i s = .next t) : t.Inv := by
  rw [State.Inv, (exec_next_ports he).1]
  exact ⟨h.1, inv_of_ends h.2 (exec_ends he)⟩

theorem takeIllegal_inv {op : BitVec 8} {idx : BitVec 9} {s t : State} (h : s.Inv)
    (he : takeIllegal op idx s = .next t) : t.Inv := by
  rw [State.Inv, takeIllegal_cfg he]
  refine ⟨h.1, ?_⟩
  rcases takeIllegal_ends he with ⟨-, hb⟩ | ⟨hp, hb⟩
  · rw [hb]; exact h.2
  · rw [hb]; exact inv_faultBlock _ _ _ (live_of_inv h.2 hp)

/-- Settles O52: taking a command from the port leaves the block alone, and an idle step, an illegal word and a command each
keep the invariant. -/
theorem stepKeepsTheInvariant : Obligations.StepKeepsTheInvariant := by
  intro s t h hs
  unfold step at hs
  split at hs
  · cases hs; exact h
  · rename_i c s' hn
    have h' : s'.Inv := inv_of_nextCommand h hn
    split at hs
    · exact exec_inv h' hs
    · exact takeIllegal_inv h' hs

end Sys2Proof.Machine
end

section
/-! PROOF. What commands keep: the transition table, the counters, the code table, and where the model stops. -/

namespace Sys2Proof.Machine

/-! ## The transition table -/

/-- A legal command moves to the phase of the table, or faults (10 R47). -/
theorem phase_of_legal {i : Instr} {s t : State} (hw : i.wellFormed = true) (hl : s.blk.phase ∈ legalPhases i)
    (h : exec i s = .next t) :
    t.blk.phase = phaseAfter i s.blk.phase ∨
      t.blk.phase = .fault ∧ ∃ (k : FaultKind) (r : Response), t.rsps = s.rsps ++ [r] ∧ r.status = .fault k := by
  rcases exec_cases i s t h with ⟨hp, hbad, -⟩ | ⟨-, k, ctx, e⟩ | ⟨-, -, -, b, r, e, -, hph⟩
  · have hr := (runs_iff i).2 (hp ▸ hl)
    rw [hw, hr] at hbad
    simp at hbad
  · rw [e, takeFault_next] at h
    cases h
    exact .inr ⟨rfl, k, _, rfl, rfl⟩
  · rw [e, complete_eq_next] at h
    subst h
    exact .inl hph

/-- Settles O12: a legal command by the phase it completes in, any other by the order of processing (30 R106). -/
theorem phaseFollowsTheTransitionTable : Obligations.PhaseFollowsTheTransitionTable := by
  intro i s hw
  refine ⟨fun hl t h => phase_of_legal hw hl h, fun hl hp => ?_, fun hl hp => ?_⟩
  · exact exec_outOfSequence hw (by rwa [← legal_iff, Bool.not_eq_true] at hl) hp
  · refine exec_aborts hp ?_
    rwa [hp, ← runs_iff, Bool.not_eq_true] at hl

/-! ## The counters -/

/-- The effect of any command on `FREQ` (10 R53). -/
theorem freq_of_effect {i : Instr} {cfg : Config} {b b' : Block} (he : Effect cfg b b' i) :
    b'.freq = b.freq ∨ i = .clr ∨
      ∃ sym n, (i = .acc sym ∧ n = 1 ∨ ∃ c, i = .fadd sym c ∧ n = c.toNat) ∧ CountEffect cfg sym n b b' := by
  cases i with
  | nop | csrr _ | frd _ | ndrd _ | ctrd _ => exact .inl (congrArg Block.freq he)
  | clr => exact .inr (.inl rfl)
  | acc sym => exact .inr (.inr ⟨sym, 1, .inl ⟨rfl, rfl⟩, he⟩)
  | fadd sym c => exact .inr (.inr ⟨sym, c.toNat, .inr ⟨c, rfl, rfl⟩, he⟩)
  | build | ufin _ => rw [he]; exact .inl rfl
  | gen => obtain ⟨_, -, rfl⟩ := he; exact .inl rfl
  | ctld _ _ _ | ubeg => obtain ⟨-, rfl⟩ := he; exact .inl rfl
  | pack _ | flush => obtain ⟨_, rfl⟩ := he; exact .inl rfl
  | unpk _ => obtain ⟨_, -, rfl⟩ := he; exact .inl rfl

/-- What an addition leaves in each counter (40 R135). -/
theorem freqAt_of_countEffect {cfg : Config} {sym : Sym} {n : Nat} {b b' : Block} (he : CountEffect cfg sym n b b')
    (x : Sym) : b'.freqAt x = if x = sym then b.freqAt sym + n else b.freqAt x := by
  rw [he.2]
  exact symGet_symSet _ _ _ _

theorem legalIn_of_adds {i : Instr} {sym : Sym} {n : Nat} {p : Phase}
    (hi : i = .acc sym ∧ n = 1 ∨ ∃ c, i = .fadd sym c ∧ n = c.toNat) (hl : legalIn i p = true) :
    p = .idle ∨ p = .count := by
  rcases hi with ⟨rfl, -⟩ | ⟨c, rfl, -⟩ <;> simpa [legalIn] using hl

/-- Settles O16: aborts and faults keep `FREQ`; of the effects only those of `CLR`, `ACC` and `FADD` touch it. -/
theorem countersChangeOnlyByExactAddition : Obligations.CountersChangeOnlyByExactAddition := by
  intro i s t h
  cases exec_ends h with
  | aborted _ hb => exact .inl (by rw [hb])
  | faulted op k ctx _ hb => exact .inl (by rw [hb]; rfl)
  | completed hl he =>
    rcases freq_of_effect he with hf | hc | ⟨sym, n, hi, ha⟩
    · exact .inl hf
    · exact .inr (.inl hc)
    · exact .inr (.inr ⟨sym, n, hi, legalIn_of_adds hi hl, ha.1, freqAt_of_countEffect ha⟩)

/-! ## The code table -/

/-- Of the commands only `CLR`, `GEN` and `CTLD` write `CT` (10 R53). -/
theorem ct_of_effect {i : Instr} {cfg : Config} {b b' : Block} (he : Effect cfg b b' i) :
    b'.ct = b.ct ∨ i = .clr ∨ i = .gen ∨ ∃ sym len w, i = .ctld sym len w := by
  cases i with
  | nop | csrr _ | frd _ | ndrd _ | ctrd _ => exact .inl (congrArg Block.ct he)
  | clr => exact .inr (.inl rfl)
  | gen => exact .inr (.inr (.inl rfl))
  | ctld sym len w => exact .inr (.inr (.inr ⟨sym, len, w, rfl⟩))
  | build | ufin _ => rw [he]; exact .inl rfl
  | acc _ | fadd _ _ | ubeg => obtain ⟨-, rfl⟩ := he; exact .inl rfl
  | pack _ | flush => obtain ⟨_, rfl⟩ := he; exact .inl rfl
  | unpk _ => obtain ⟨_, -, rfl⟩ := he; exact .inl rfl

/-- Settles O17: `GEN` and `CTLD`, which write `CT`, are not legal in the phases that use it. -/
theorem codeTableIsFrozenInUse : Obligations.CodeTableIsFrozenInUse := by
  intro i s t hp h hclr
  cases exec_ends h with
  | aborted _ hb => rw [hb]
  | faulted op k ctx _ hb => rw [hb]; rfl
  | completed hl he =>
    rcases ct_of_effect he with hct | hc | rfl | ⟨sym, len, w, rfl⟩
    · exact hct
    · exact absurd hc hclr
    · rcases hp with hp | hp | hp <;> rw [hp] at hl <;> cases hl
    · rcases hp with hp | hp | hp <;> rw [hp] at hl <;> cases hl

/-- A command that ends in a phase other than `FAULT` has completed by its own effect. -/
theorem effect_of_phase {i : Instr} {s t : State} (h : exec i s = .next t) (hp : t.blk.phase ≠ .fault) :
    Effect s.cfg s.blk t.blk i := by
  cases exec_ends h with
  | aborted hf hb => rw [hb] at hp; exact absurd hf hp
  | faulted op k ctx _ hb => rw [hb] at hp; exact absurd rfl hp
  | completed _ he => exact he

/-- Settles O39: `GEN` writes paths to different leaves; `UBEG` accepts only a table without offender, and keeps it. -/
theorem codesArePrefixFreeAfterGenAndUbeg : Obligations.CodesArePrefixFreeAfterGenAndUbeg := by
  intro s t
  refine ⟨fun h hp => ?_, fun h hp => ?_⟩
  · obtain ⟨ct, hg, hb⟩ := effect_of_phase h (by simp [hp])
    rw [hb]
    exact genTable_prefixFree hg
  · obtain ⟨hn, hb⟩ := effect_of_phase h (by simp [hp])
    rw [hb]
    exact prefixFree_of_offender hn

/-! ## Where the model stops -/

theorem countUp_next (i : Instr) (sym : Sym) (n : Nat) (s : State) : ∃ t, countUp i sym n s = .next t := by
  unfold countUp
  split <;> exact ⟨_, rfl⟩

/-- Every rule but `GEN`'s gives a next state in every state. -/
theorem body_next {i : Instr} (s : State) (hi : i ≠ .gen) : ∃ t, bodyOf i s = .next t := by
  cases i with
  | gen => exact absurd rfl hi
  | nop | clr | csrr _ | frd _ | build | ndrd _ | ctrd _ | flush => exact ⟨_, rfl⟩
  | acc sym => exact countUp_next _ sym 1 s
  | fadd sym c => exact countUp_next _ sym c.toNat s
  | ctld _ _ _ | pack _ | ubeg | unpk _ | ufin _ =>
    simp only [bodyOf]
    repeat' split
    all_goals exact ⟨_, rfl⟩

/-- `GEN` has no table to write only where there is a root and no tree under it (log entry 7). -/
theorem root_of_genTable_none {b : Block} (h : genTable b = none) :
    b.root.valid = true ∧ ¬ (ArenaOk b.node ∧ (b.nodeAt b.root.h).valid = true) := by
  refine ⟨?_, fun ⟨ha, hv⟩ => ?_⟩
  · by_contra hf
    rw [genTable, if_pos (Bool.eq_false_iff.2 hf)] at h
    cases h
  · obtain ⟨ct, e⟩ := genTable_returns ha fun _ => hv
    rw [h] at e
    cases e

/-- A legal command stops the model only as `GEN` without a tree. -/
theorem body_next_or_stops (i : Instr) (s : State) : (∃ t, bodyOf i s = .next t) ∨
    i = .gen ∧ genTable s.blk = none ∧ bodyOf i s = .fault .arenaNotATree := by
  by_cases hi : i = .gen
  · subst hi
    cases hg : genTable s.blk with
    | none => exact .inr ⟨rfl, rfl, by rw [bodyOf, hg]⟩
    | some ct => exact .inl ⟨_, by rw [bodyOf, hg]; rfl⟩
  · exact .inl (body_next s hi)

/-- Settles O54: every other way to end a command gives a next state, and a stop is `GEN`'s in `TREE`, without a tree. -/
theorem onlyGenOnABrokenArenaStops : Obligations.OnlyGenOnABrokenArenaStops := by
  intro i s
  rw [exec_eq_process]
  rcases process_cases i s (bodyOf i s) with ⟨-, -, e⟩ | ⟨-, -, e⟩ | ⟨-, -, -, e⟩ | ⟨-, hl, -, e⟩ <;> rw [e]
  · exact .inl ⟨_, rfl⟩
  · exact .inl ⟨_, rfl⟩
  · exact .inl ⟨_, rfl⟩
  · refine (body_next_or_stops i s).imp_right fun ⟨hi, hg, hb⟩ => ?_
    subst hi
    exact ⟨hb, rfl, by simpa [legalIn] using hl, root_of_genTable_none hg⟩

end Sys2Proof.Machine
end

section
/-! PROOF. What `BUILD` answers, and the tree it leaves (10 R24 to R27, 41 R155 to R158). -/

namespace Sys2Proof.Machine

theorem legalIn_build {p : Phase} (hp : p = .idle ∨ p = .count) : legalIn .build p = true := by
  rcases hp with rfl | rfl <;> rfl

theorem exec_build {s : State} (hp : s.blk.phase = .idle ∨ s.blk.phase = .count) :
    exec .build s = complete s (buildBlock s.blk) (buildResponse (buildBlock s.blk)) :=
  exec_body rfl (legalIn_build hp)

theorem blk_of_build {s t : State} (hp : s.blk.phase = .idle ∨ s.blk.phase = .count) (h : exec .build s = .next t) :
    t.blk = buildBlock s.blk := blk_of_complete ((exec_build hp).symm.trans h)

/-- The response of `BUILD` by the number of entries (41 R157). -/
theorem buildResponse_cases (b : Block) :
    (buildResponse (buildBlock b) =
        { status := .ok, flag := (buildBlock b).root.valid, val := (buildBlock b).nsym, rdata := 0, out := [] } ∧
      (buildBlock b).root.valid = true ∧ 0 < entries b) ∨
    (buildResponse (buildBlock b) =
        { status := .emptyInput, flag := (buildBlock b).root.valid, val := (buildBlock b).nsym, rdata := 0, out := [] } ∧
      (buildBlock b).root = { valid := false, h := nilHandle } ∧ entries b = 0) := by
  by_cases hn : entries b = 0
  · obtain ⟨hr, -⟩ := buildBlock_empty hn
    have hz : (buildBlock b).nsym = 0 := BitVec.eq_of_toNat_eq ((buildBlock_nsym_toNat b).trans hn)
    exact .inr ⟨by rw [buildResponse, hr, hz]; rfl, hr, hn⟩
  · obtain ⟨hv, -⟩ := buildBlock_tree hn
    exact .inl ⟨by rw [buildResponse, hv]; rfl, hv, Nat.pos_of_ne_zero hn⟩

/-- Settles O25: the answer is that of the table's tree, or of its absence. -/
theorem buildCompletesOnEveryTable : Obligations.BuildCompletesOnEveryTable := by
  intro s
  refine ⟨by decide, fun hp => ?_, fun hp => ?_⟩
  · have ha := answers_of_complete (exec_build hp)
    rcases buildResponse_cases s.blk with ⟨hr, hv, hn⟩ | ⟨hr, hroot, hn⟩
    · rw [hr] at ha
      exact ⟨_, _, ha, rfl, buildBlock_nsym_toNat _, .inl ⟨rfl, hv, hn⟩⟩
    · rw [hr] at ha
      exact ⟨_, _, ha, rfl, buildBlock_nsym_toNat _, .inr ⟨rfl, hroot, hn⟩⟩
  · simp only [List.mem_cons, List.not_mem_nil, or_false, not_or] at hp
    obtain ⟨h1, h2, h3⟩ := hp
    exact exec_outOfSequence rfl (by simp [legalIn, h1, h2]) h3

/-! ## The tree -/

/-- The single root of a forest with internal nodes is the last one made (41 R158). -/
theorem root_of_forest {n : Nat} {a : Vector Node 511} {next r : Handle} (F : Forest n a next [r])
    (hn : 257 ≤ next.toNat) : r.toNat = next.toNat - 1 := by
  have hlt : r.toNat < next.toNat := valid_lt_next F (F.valid r (by simp))
  have hbound := next.isLt
  have hlast : (BitVec.ofNat 9 (next.toNat - 1)).toNat = next.toNat - 1 := by
    rw [BitVec.toNat_ofNat, Nat.mod_eq_of_lt (by omega)]
  have hv : (nodeGet a (BitVec.ofNat 9 (next.toNat - 1))).valid = true := (F.used _ (by omega)).2 (by omega)
  obtain ⟨r', hr', p, l⟩ := F.reach _ hv
  obtain rfl := List.mem_singleton.1 hr'
  have := (le_of_leads F.arena l (F.valid _ hr')).1
  omega

/-- Settles O29: each turn made the next handle from 256 on, so the last one made is the root. -/
theorem buildNumbersInternalNodesFrom256 : Obligations.BuildNumbersInternalNodesFrom256 := by
  intro s t hp hn h
  rw [blk_of_build hp h]
  obtain ⟨hv, next, F⟩ := buildBlock_tree (b := s.blk) (by omega)
  have hnext : next.toNat + 1 = 256 + entries s.blk := F.count
  have hroot := root_of_forest F (by omega)
  refine ⟨hv, by omega, fun k hk => ⟨?_, F.arena.internal k hk⟩⟩
  rw [Block.nodeAt, F.used k hk]
  omega

/-- Settles O31: the forest that `BUILD` keeps has one root left, which reaches every node along one path. -/
theorem buildLeavesAStrictTree : Obligations.BuildLeavesAStrictTree := by
  intro s t hp hn h k
  rw [blk_of_build hp h]
  obtain ⟨-, next, F⟩ := buildBlock_tree (b := s.blk) (by omega)
  have hroot := List.mem_singleton_self (buildBlock s.blk).root.h
  refine ⟨⟨fun hk => ?_, fun ⟨p, l⟩ => valid_of_leads F.arena l (F.valid _ hroot)⟩,
    fun p q l l' => (F.unique _ hroot _ hroot p q k l l').2⟩
  obtain ⟨r, hr, p, l⟩ := F.reach k hk
  exact ⟨p, List.mem_singleton.1 hr ▸ l⟩

end Sys2Proof.Machine
end

section
/-! PROOF. `CSRR`: each control and status register, bit by bit (10 R37 to R46, 45 R233). -/

namespace Sys2Proof.Machine

/-! ## Fields of a data word -/

/-- A field is read back from where it was placed. -/
theorem extract_fieldAt_self {w : Nat} (v : BitVec w) (lo : Nat) (h : lo + w ≤ 256) :
    (fieldAt v lo).extractLsb' lo w = v := by
  apply BitVec.eq_of_getLsbD_eq
  intro i hi
  rw [BitVec.getLsbD_extractLsb', getLsbD_fieldAt]
  simp [hi, show lo + i < 256 by omega]

/-- Beside a field every bit is 0. -/
theorem extract_fieldAt_disjoint {w : Nat} (v : BitVec w) (lo lo' n : Nat) (h : lo + w ≤ lo' ∨ lo' + n ≤ lo) :
    (fieldAt v lo).extractLsb' lo' n = 0 := by
  apply BitVec.eq_of_getLsbD_eq
  intro i hi
  rw [BitVec.getLsbD_extractLsb', getLsbD_fieldAt]
  have : ¬ (lo ≤ lo' + i ∧ lo' + i - lo < w) := by omega
  by_cases hlo : lo ≤ lo' + i
  · simp [show ¬ lo' + i - lo < w by omega]
  · simp [hlo]

theorem getElem_fieldAt {w : Nat} (v : BitVec w) (lo i : Nat) (h : i < 256) :
    (fieldAt v lo)[i] = (decide (lo ≤ i) && decide (i - lo < w) && v.getLsbD (i - lo)) := by
  rw [← BitVec.getLsbD_eq_getElem, getLsbD_fieldAt]
  simp [h]

@[simp] theorem fieldAt_zero (w lo : Nat) : fieldAt (0#w) lo = 0 := by
  simp [fieldAt]

/-! ## The registers -/

section
variable (s : State)

theorem csrConfig_shows : CsrShows s 0 (csrConfig s.cfg) := by
  simp [CsrShows, csrConfig, BitVec.extractLsb'_or, extract_fieldAt_self, extract_fieldAt_disjoint]

theorem csrStatus_shows : CsrShows s 1 (csrStatus s.blk) := by
  simp [CsrShows, csrStatus, BitVec.extractLsb'_or, extract_fieldAt_self, extract_fieldAt_disjoint, getElem_fieldAt,
    Block.faultFlag]

theorem csrErr_shows : CsrShows s 2 (csrErr s.blk) := by
  simp [CsrShows, csrErr, BitVec.extractLsb'_or, extract_fieldAt_self, extract_fieldAt_disjoint]

theorem csrNsym_shows : CsrShows s 3 (csrNsym s.blk) := by
  simp [CsrShows, csrNsym, extract_fieldAt_self, extract_fieldAt_disjoint]

theorem csrRoot_shows : CsrShows s 4 (csrRoot s.blk) := by
  simp [CsrShows, csrRoot, BitVec.extractLsb'_or, extract_fieldAt_self, extract_fieldAt_disjoint, getElem_fieldAt]

/-- `NCODE` needs 9 bits at most: there are 256 symbols. -/
theorem csrNcode_shows : CsrShows s 5 (csrNcode s.blk) := by
  have hle : codeCount s.blk.ct ≤ 256 := by
    exact List.countP_le_length.trans_eq s.blk.ct.length_toList
  show (fieldAt (val9 (codeCount s.blk.ct)) 0).toNat = _
  rw [fieldAt, val9, BitVec.shiftLeft_zero, BitVec.toNat_setWidth, BitVec.toNat_ofNat, Nat.mod_eq_of_lt (by omega),
    Nat.mod_eq_of_lt (by omega)]
  exact codeCount_range _

theorem csrFinal_shows : CsrShows s 6 (csrFinal s.blk) := by
  simp [CsrShows, csrFinal, BitVec.extractLsb'_or, extract_fieldAt_self, extract_fieldAt_disjoint, getElem_fieldAt]

theorem csrPend_shows (hp : s.blk.pend.length ≤ 7) : CsrShows s 7 (csrPend s.blk) := by
  have hpad : bits8 (byteOf (padTo8 s.blk.pend)) = s.blk.pend ++ List.replicate (8 - s.blk.pend.length) false :=
    bits8_byteOf _ (by simp [padTo8]; omega)
  simp [CsrShows, csrPend, BitVec.extractLsb'_or, extract_fieldAt_self, extract_fieldAt_disjoint, hpad]

theorem csrHold_shows : CsrShows s 8 (csrHold s.blk) := by
  simp [CsrShows, csrHold, BitVec.extractLsb'_or, extract_fieldAt_self, extract_fieldAt_disjoint, getElem_fieldAt]

theorem csrPath_shows (hp : s.blk.path.length ≤ 254) : CsrShows s 9 (csrPath s.blk) :=
  fun i hi => getMsbD_left256 _ (by omega) i hi

theorem csrValue_shows {n : Byte} (hn : n.toNat ≤ 9) (hpend : s.blk.pend.length ≤ 7) (hpath : s.blk.path.length ≤ 254) :
    CsrShows s n.toNat (csrValue s n) := by
  unfold csrValue
  generalize n.toNat = k at hn ⊢
  match k, hn with
  | 0, _ => exact csrConfig_shows s
  | 1, _ => exact csrStatus_shows s
  | 2, _ => exact csrErr_shows s
  | 3, _ => exact csrNsym_shows s
  | 4, _ => exact csrRoot_shows s
  | 5, _ => exact csrNcode_shows s
  | 6, _ => exact csrFinal_shows s
  | 7, _ => exact csrPend_shows s hpend
  | 8, _ => exact csrHold_shows s
  | 9, _ => exact csrPath_shows s hpath

end

/-! ## Right after reset -/

/-- Below 256 the width and the version bit do not meet. -/
theorem csrConfig_eq {cfg : Config} (hc : cfg.wf) : csrConfig cfg = BitVec.ofNat 256 (256 + cfg.cntW) := by
  have hlt : cfg.cntW < 256 := by have := hc.2; omega
  have hor : cfg.cntW ||| 256 = 256 + cfg.cntW := by
    rw [Nat.or_comm]
    exact (Nat.two_pow_add_eq_or_of_lt (i := 8) hlt 1).symm
  apply BitVec.eq_of_toNat_eq
  simp only [csrConfig, fieldAt, BitVec.shiftLeft_zero, BitVec.toNat_or, BitVec.toNat_setWidth, BitVec.toNat_ofNat]
  rw [Nat.mod_eq_of_lt (a := cfg.cntW) hlt, Nat.mod_eq_of_lt (by omega), Nat.mod_eq_of_lt (by omega), ← hor]
  rfl

theorem csrStatus_reset : csrStatus Block.reset = 0 := by
  have hlive : (Phase.idle == Phase.fault) = false := rfl
  simp [csrStatus, Block.faultFlag, Phase.num, hlive]

theorem csrErr_reset : csrErr Block.reset = 0 := by simp [csrErr]

theorem csrNsym_reset : csrNsym Block.reset = 0 := by simp [csrNsym]

theorem csrRoot_reset : csrRoot Block.reset = 0x1FF := by simp [csrRoot, fieldAt]

theorem csrNcode_reset : csrNcode Block.reset = 0 := by
  have hnone : codeCount Block.reset.ct = 0 := by
    rw [codeCount_eq, List.countP_eq_zero]
    exact fun s _ => by rw [show symGet Block.reset.ct s = CodeEntry.none from reset_ctAt s]; decide
  simp [csrNcode, hnone, val9]

theorem csrFinal_reset : csrFinal Block.reset = 0 := by simp [csrFinal]

theorem csrPend_reset : csrPend Block.reset = 0 := by
  have hbyte : byteOf (padTo8 []) = 0 := by decide
  simp [csrPend, hbyte]

theorem csrHold_reset : csrHold Block.reset = 0 := by simp [csrHold]

theorem csrPath_reset : csrPath Block.reset = 0 := by simp [csrPath, left256]

theorem csrValue_reset {cfg : Config} (hc : cfg.wf) {n : Byte} (hn : n.toNat ≤ 9) :
    csrValue (State.resetWith cfg) n =
      if n = 0 then BitVec.ofNat 256 (256 + cfg.cntW) else if n = 4 then 0x1FF else 0 := by
  obtain ⟨k, hk⟩ : ∃ k, n.toNat = k := ⟨_, rfl⟩
  obtain rfl : n = BitVec.ofNat 8 k := by rw [← hk]; simp
  rw [hk] at hn
  match k, hn with
  | 0, _ => exact csrConfig_eq hc
  | 1, _ => simpa [csrValue] using csrStatus_reset
  | 2, _ => simpa [csrValue] using csrErr_reset
  | 3, _ => simpa [csrValue] using csrNsym_reset
  | 4, _ => simpa [csrValue] using csrRoot_reset
  | 5, _ => simpa [csrValue] using csrNcode_reset
  | 6, _ => simpa [csrValue] using csrFinal_reset
  | 7, _ => simpa [csrValue] using csrPend_reset
  | 8, _ => simpa [csrValue] using csrHold_reset
  | 9, _ => simpa [csrValue] using csrPath_reset

/-! ## The command -/

/-- A term that no word decodes to is answered as its word is (log entry 8). -/
theorem exec_illFormed {i : Instr} (s : State) (hw : i.wellFormed = false) :
    exec i s = takeIllegal i.op i.idxField s := by
  rw [exec_eq_process, process, if_pos hw]

theorem exec_csrr {n : Byte} (s : State) (hn : n.toNat ≤ 9) :
    exec (.csrr n) s = complete s s.blk { Response.ok with rdata := csrValue s n } :=
  exec_body (by simpa [Instr.wellFormed] using hn) rfl

/-- Settles O20: a number up to 9 reads its register, any other is an illegal word with `idx` = 0. -/
theorem csrrReadsEachRegister : Obligations.CsrrReadsEachRegister := by
  intro s n hpend hpath
  have hill : 9 < n.toNat → exec (.csrr n) s = takeIllegal 0x02 0 s := fun hn =>
    exec_illFormed s (by simpa [Instr.wellFormed] using hn)
  refine ⟨?_, fun hn => ?_, fun hn hp => ?_, fun hn hp => ?_, fun hn cfg hc => ?_⟩
  · simp [encode, commandWord, Instr.op, Instr.row, Op.code, Instr.idxField, Instr.argField]
  · exact ⟨_, _, answers_of_complete (exec_csrr s hn), rfl, csrValue_shows s hn hpend hpath⟩
  · exact faults_of_takeFault rfl (by rw [hill hn, takeIllegal, if_neg hp])
  · exact aborts_of_abort (by rw [hill hn, takeIllegal, if_pos hp])
  · rw [← csrValue_reset hc hn]
    exact ⟨_, answers_of_complete (exec_csrr _ hn)⟩

end Sys2Proof.Machine
end

section
/-! PROOF. The decoder and the encoder undo each other, and decoding follows the table of 30 R95 (30 R91, R97, R105). -/

namespace Sys2Proof

open Machine (tableRows LegalWord)

/-! ## The encoder -/

/-- The word of every instruction has the form of its own row and of no other (30 R95). -/
theorem opcodeField_statement (i : Instr) : Laws.OpcodeField.Statement i := by
  cases i with
  | nop => exact Laws.OpcodeField.nop
  | clr => exact Laws.OpcodeField.clr
  | csrr n => exact Laws.OpcodeField.csrr n
  | acc sym => exact Laws.OpcodeField.acc sym
  | fadd sym c => exact Laws.OpcodeField.fadd sym c
  | frd sym => exact Laws.OpcodeField.frd sym
  | build => exact Laws.OpcodeField.build
  | ndrd h => exact Laws.OpcodeField.ndrd h
  | gen => exact Laws.OpcodeField.gen
  | ctrd sym => exact Laws.OpcodeField.ctrd sym
  | ctld sym len wdata => exact Laws.OpcodeField.ctld sym len wdata
  | pack sym => exact Laws.OpcodeField.pack sym
  | flush => exact Laws.OpcodeField.flush
  | ubeg => exact Laws.OpcodeField.ubeg
  | unpk b => exact Laws.OpcodeField.unpk b
  | ufin u => exact Laws.OpcodeField.ufin u

theorem encode_mask (i : Instr) : (encode i).cmd &&& i.row.mask = i.row.pattern :=
  ((opcodeField_statement i).1 i.row).2 rfl

@[simp] theorem idx_encode (i : Instr) : (encode i).idx = i.idxField :=
  let ⟨_, _, hidx, _⟩ := fields_encode i
  hidx

@[simp] theorem arg_encode (i : Instr) : (encode i).arg = i.argField :=
  let ⟨_, _, _, harg⟩ := fields_encode i
  harg

@[simp] theorem wdata_encode (i : Instr) : (encode i).wdata = i.wdataField := rfl

@[simp] theorem sym_encode (i : Instr) : (encode i).sym = i.idxField.setWidth 8 := by
  rw [sym_eq_idx, idx_encode]

/-- The operands are read back from the fields they were put in (30 R97). -/
theorem operands_encode (i : Instr) : i.row.operands (encode i) = i := by
  have hsym : ∀ sym : Sym, (sym.setWidth 9).setWidth 8 = sym := fun sym => (symbol_field sym).2
  cases i <;> simp only [Instr.row, Op.operands, idx_encode, arg_encode, wdata_encode, sym_encode, Instr.idxField,
    Instr.argField, Instr.wdataField, hsym]

/-- Well-formedness, as the decoder tests it on the fields (30 R95, R99). -/
theorem wellFormed_iff (i : Instr) : i.wellFormed = true ↔
    ¬ (i.row = .ndrd ∧ i.idxField = 511#9) ∧ ¬ (i.row = .csrr ∧ 9 < i.argField.toNat) := by
  cases i with
  | csrr n => simp [Instr.wellFormed, Instr.row, Instr.argField]
  | ndrd h =>
    have hlt := h.isLt
    have hnil : h = 511#9 ↔ h.toNat = 511 := BitVec.toNat_inj.symm
    simp [Instr.wellFormed, Instr.row, Instr.idxField, hnil]
    omega
  | _ => simp [Instr.wellFormed, Instr.row]

/-- Settles O1: the word has the form of its row, whose extra constraint is well-formedness, and gives the operands back. -/
theorem decodeInvertsEncode : Obligations.DecodeInvertsEncode := by
  intro i hw
  obtain ⟨hnode, hcsr⟩ := (wellFormed_iff i).1 hw
  rw [decode_of_mask i.row _ (encode_mask i), idx_encode, arg_encode, if_neg hnode, if_neg hcsr, operands_encode]

/-! ## The decoder -/

/-- The words that decode: of the form of a row, keeping its extra constraint (30 R105). -/
theorem decode_ok_iff {c : Command} {i : Instr} : decode c = .ok i ↔ ∃ o : Op, c.cmd &&& o.mask = o.pattern ∧
    ¬ (o = .ndrd ∧ c.idx = 511#9) ∧ ¬ (o = .csrr ∧ 9 < c.arg.toNat) ∧ o.operands c = i := by
  constructor
  · intro h
    unfold decode at h
    split at h
    · cases h
    · rename_i o _
      split_ifs at h with hform hnode hcsr
      exact ⟨o, not_not.1 hform, hnode, hcsr, Except.ok.inj h⟩
  · rintro ⟨o, hform, hnode, hcsr, rfl⟩
    rw [decode_of_mask o c hform, if_neg hnode, if_neg hcsr]

@[simp] theorem row_operands (o : Op) (c : Command) : (o.operands c).row = o := by
  cases o <;> rfl

/-- Where the fields a row does not use are 0, its operands hold all of `idx` and `arg` (30 R97). -/
theorem fields_operands {o : Op} {c : Command} (h : o.unusedZero c) :
    c.rsv = 0 ∧ (o.operands c).idxField = c.idx ∧ (o.operands c).argField = c.arg := by
  have hsym : c.idx &&& 0x100 = 0 → c.sym.setWidth 9 = c.idx := fun h9 => by
    rw [sym_eq_idx, symbol_of_field _ h9]
  cases o with
  | nop | clr | build | gen | flush | ubeg =>
    obtain ⟨hr, hi, ha⟩ := h
    exact ⟨hr, hi.symm, ha.symm⟩
  | csrr | unpk | ufin =>
    obtain ⟨hr, hi⟩ := h
    exact ⟨hr, hi.symm, rfl⟩
  | acc | fadd | frd | ctrd | pack =>
    obtain ⟨hr, hi, ha⟩ := h
    exact ⟨hr, hsym hi, ha.symm⟩
  | ndrd =>
    obtain ⟨hr, ha⟩ := h
    exact ⟨hr, rfl, ha.symm⟩
  | ctld =>
    obtain ⟨hr, hi⟩ := h
    exact ⟨hr, hsym hi, rfl⟩

theorem wdata_of_operands_fadd {o : Op} {c : Command} {sym : Sym} {w : Data} (h : o.operands c = .fadd sym w) :
    w = c.wdata := by
  cases o <;> cases h
  rfl

theorem wdata_of_operands_ctld {o : Op} {c : Command} {sym : Sym} {len : Byte} {w : Data}
    (h : o.operands c = .ctld sym len w) : w = c.wdata := by
  cases o <;> cases h
  rfl

/-- Settles O2: a word of the form of a row is made of the row's opcode, a zero `rsv`, and the fields of its operands. -/
theorem encodeInvertsDecode : Obligations.EncodeInvertsDecode := by
  intro c i h
  obtain ⟨o, hform, hnode, hcsr, rfl⟩ := decode_ok_iff.1 h
  obtain ⟨hop, hzero⟩ := (mask_iff o c).1 hform
  obtain ⟨hrsv, hidx, harg⟩ := fields_operands hzero
  refine ⟨?_, ?_, fun sym w => wdata_of_operands_fadd, fun sym len w => wdata_of_operands_ctld⟩
  · rw [wellFormed_iff, row_operands, hidx, harg]
    exact ⟨hnode, hcsr⟩
  · show commandWord (o.operands c).row.code _ _ = c.cmd
    rw [commandWord_eq, row_operands, hidx, harg, cmd_eq_fields c, hop, hrsv]
    rfl

/-! ## The table -/

theorem tableRows_eq : tableRows = Op.all.map fun o => (o.pattern, o.mask) := rfl

theorem op_mem_all (o : Op) : o ∈ Op.all := by
  cases o <;> decide

theorem pattern_op (o : Op) : o.pattern.extractLsb' 24 8 = o.code := by
  cases o <;> rfl

theorem pattern_inj {o o' : Op} (h : o.pattern = o'.pattern) : o = o' :=
  code_inj (by rw [← pattern_op, h, pattern_op])

theorem legalWord_of_decode {c : Command} {i : Instr} (h : decode c = .ok i) : LegalWord c.cmd := by
  obtain ⟨o, hform, hnode, hcsr, -⟩ := decode_ok_iff.1 h
  refine ⟨(o.pattern, o.mask), ?_, hform, fun hp hidx => ?_, fun hp => ?_⟩
  · rw [tableRows_eq]
    exact List.mem_map_of_mem (op_mem_all o)
  · exact hnode ⟨pattern_inj (o' := .ndrd) hp, hidx⟩
  · exact Nat.not_lt.1 fun harg => hcsr ⟨pattern_inj (o' := .csrr) hp, harg⟩

theorem decode_of_not_legalWord {c : Command} (h : ¬ LegalWord c.cmd) : ∃ e, decode c = .error e := by
  cases hd : decode c with
  | error e => exact ⟨e, rfl⟩
  | ok i => exact absurd (legalWord_of_decode hd) h

/-- A row without an extra constraint: every word of its form decodes (30 R95). -/
theorem decode_row (o : Op) {c : Command} (hn : o ≠ .ndrd) (hc : o ≠ .csrr) (h : c.cmd &&& o.mask = o.pattern) :
    decode c = .ok (o.operands c) :=
  decode_ok_iff.2 ⟨o, h, fun e => hn e.1, fun e => hc e.1, rfl⟩

/-- A row without operands: its one word decodes (30 R95). -/
theorem decode_word (o : Op) {c : Command} (hn : o ≠ .ndrd) (hc : o ≠ .csrr) (hm : o.mask = BitVec.allOnes 32)
    (h : c.cmd = o.pattern) : decode c = .ok (o.operands c) :=
  decode_row o hn hc (by rw [hm, BitVec.and_allOnes, h])

/-- Settles O3: row by row, with the two extra constraints where they are; what decodes is a legal word. -/
theorem decodeFollowsTheTable : Obligations.DecodeFollowsTheTable := by
  intro c
  refine ⟨?nop, ?clr, ?csrr, ?acc, ?fadd, ?frd, ?build, ?ndrd, ?gen, ?ctrd, ?ctld, ?pack, ?flush, ?ubeg, ?unpk, ?ufin,
    decode_of_not_legalWord⟩
  case nop => exact decode_word .nop nofun nofun rfl
  case clr => exact decode_word .clr nofun nofun rfl
  case csrr => exact fun h hn => decode_ok_iff.2 ⟨.csrr, h, nofun, fun e => Nat.not_lt.2 hn e.2, rfl⟩
  case acc => exact decode_row .acc nofun nofun
  case fadd => exact decode_row .fadd nofun nofun
  case frd => exact decode_row .frd nofun nofun
  case build => exact decode_word .build nofun nofun rfl
  case ndrd => exact fun h hidx => decode_ok_iff.2 ⟨.ndrd, h, fun e => hidx e.2, nofun, rfl⟩
  case gen => exact decode_word .gen nofun nofun rfl
  case ctrd => exact decode_row .ctrd nofun nofun
  case ctld => exact decode_row .ctld nofun nofun
  case pack => exact decode_row .pack nofun nofun
  case flush => exact decode_word .flush nofun nofun rfl
  case ubeg => exact decode_word .ubeg nofun nofun rfl
  case unpk => exact decode_row .unpk nofun nofun
  case ufin => exact decode_row .ufin nofun nofun

/-- Settles O4: eight closed words. -/
theorem vectorWordsDecode : Obligations.VectorWordsDecode := by
  unfold Obligations.VectorWordsDecode
  decide +kernel

/-! ## The data word -/

/-- Only the rows of `FADD` and `CTLD` take an operand from `wdata` (30 R100). -/
theorem decode_ignores_wdata {w : CmdWord} (hf : w.extractLsb' 24 8 ≠ 0x11#8) (hc : w.extractLsb' 24 8 ≠ 0x32#8)
    (d d' : Data) : decode { cmd := w, wdata := d } = decode { cmd := w, wdata := d' } := by
  simp only [decode, Command.op, Command.idx, Command.arg]
  cases ho : Op.ofCode (w.extractLsb' 24 8) with
  | none => rfl
  | some o =>
    cases o with
    | fadd => exact absurd (ofCode_some ho).symm hf
    | ctld => exact absurd (ofCode_some ho).symm hc
    | _ => rfl

end Sys2Proof
end

section
/-! PROOF. What one step does with the oldest command: an illegal word, the data word, the one response (30 R92, R98 to
R100). -/

namespace Sys2Proof.Machine

theorem step_of_decode_error {s s' : State} {c : Command} {e : Illegal} (hn : nextCommand s = some (c, s'))
    (hd : decode c = .error e) : step s = takeIllegal c.op c.idx s' := by
  simp only [step, hn, hd]

/-- Settles O7: a word that does not decode takes the fault entry, and in `FAULT` the abort. -/
theorem illegalWordRaisesIllegalCommand : Obligations.IllegalWordRaisesIllegalCommand := by
  intro s c rest hq hill
  obtain ⟨e, hd⟩ := decode_of_not_legalWord hill
  have hstep := step_of_decode_error (nextCommand_of_cmdq_cons hq) hd
  refine ⟨fun hp => ?_, fun hp => ?_⟩
  · rw [takeIllegal, if_neg hp, takeFault_next] at hstep
    exact ⟨_, hstep, rfl, rfl, rfl, rfl⟩
  · rw [takeIllegal, if_pos hp, abort_next] at hstep
    exact ⟨_, hstep, rfl, rfl, rfl, rfl⟩

/-- Settles O8: such a word decodes to the same whatever `wdata` is, and an illegal one is answered from its `cmd` alone. -/
theorem wdataIsIgnoredByOtherCommands : Obligations.WdataIsIgnoredByOtherCommands := by
  intro s w d d' rest hf hc
  have hdec := decode_ignores_wdata hf hc d d'
  have hnext : ∀ x : Data, nextCommand { s with cmdq := { cmd := w, wdata := x } :: rest } =
      some ({ cmd := w, wdata := x }, { s with cmdq := rest }) := fun _ => rfl
  cases hd : decode { cmd := w, wdata := d' } with
  | ok i => rw [step_of_decode_ok (hnext d) (hdec.trans hd), step_of_decode_ok (hnext d') hd]
  | error e =>
    rw [step_of_decode_error (hnext d) (hdec.trans hd), step_of_decode_error (hnext d') hd]
    rfl

/-! ## One response -/

/-- Under the invariant `GEN` finds a tree, so every command answers a next state. -/
theorem exec_next_of_inv {s : State} (i : Instr) (h : s.Inv) : ∃ t, exec i s = .next t := by
  rcases onlyGenOnABrokenArenaStops i s with hnext | ⟨-, -, hp, hroot, htree⟩
  · exact hnext
  · have live := live_of_inv h.2 (by simp [hp])
    exact absurd ⟨live.arena, live.root.2 hroot⟩ htree

theorem takeIllegal_next (op : BitVec 8) (idx : BitVec 9) (s : State) : ∃ t r, takeIllegal op idx s = .next t ∧
    t.cfg = s.cfg ∧ t.cmdq = s.cmdq ∧ t.rsps = s.rsps ++ [r] := by
  unfold takeIllegal
  split <;> exact ⟨_, _, rfl, rfl, rfl, rfl⟩

/-- Settles O9: the command leaves the port, and its outcome, a command's or an illegal word's, adds one response. -/
theorem everyCommandGetsOneResponse : Obligations.EveryCommandGetsOneResponse := by
  intro s c rest h hq
  have hn := nextCommand_of_cmdq_cons hq
  cases hd : decode c with
  | ok i =>
    obtain ⟨t, ht⟩ := exec_next_of_inv i (inv_of_nextCommand h hn)
    obtain ⟨hcfg, hport, r, hr⟩ := exec_next_ports ht
    exact ⟨t, r, (step_of_decode_ok hn hd).trans ht, hcfg, hport, hr⟩
  | error e =>
    rw [step_of_decode_error hn hd]
    exact takeIllegal_next _ _ _

end Sys2Proof.Machine
end

section
/-! PROOF. The response word (30 R93, R94), and how many bytes a command emits (43 R197, 44 R222). -/

namespace Sys2Proof.Machine

/-! ## The response word -/

/-- The response word is its fields, each placed at its lowest bit (30 R93). -/
theorem responseWord_eq_fields (r : Response) : r.word =
    (fieldAt r.status.num 24 ||| fieldAt r.nout 16 ||| fieldAt (BitVec.ofBool r.flag) 15 ||| fieldAt r.val 0).setWidth 32 := by
  simp [Response.word, fieldAt]

/-- Reading a field of the word reads it from each of the four placed fields. -/
theorem extract_responseWord (r : Response) {lo n : Nat} (h : lo + n ≤ 32) : r.word.extractLsb' lo n =
    (fieldAt r.status.num 24).extractLsb' lo n ||| (fieldAt r.nout 16).extractLsb' lo n |||
      (fieldAt (BitVec.ofBool r.flag) 15).extractLsb' lo n ||| (fieldAt r.val 0).extractLsb' lo n := by
  rw [responseWord_eq_fields, BitVec.extractLsb'_setWidth_of_le h]
  simp only [BitVec.extractLsb'_or]

theorem nout_toNat {r : Response} (h : r.out.length ≤ 255) : r.nout.toNat = r.out.length := by
  rw [Response.nout, BitVec.toNat_ofNat, Nat.mod_eq_of_lt (by omega)]

/-- Settles O10: each field is read back from the word, and the codes are those of the table. -/
theorem responseWordFields : Obligations.ResponseWordFields := by
  intro r hout
  refine ⟨⟨?_, ?_, ?_, ?_, ?_⟩, ?_⟩
  · simp [extract_responseWord, extract_fieldAt_self, extract_fieldAt_disjoint]
  · have hnout : r.word.extractLsb' 16 8 = r.nout := by
      simp [extract_responseWord, extract_fieldAt_self, extract_fieldAt_disjoint]
    rw [hnout, nout_toNat hout]
  · simp [responseWord_eq_fields, getElem_fieldAt]
  · simp [extract_responseWord, extract_fieldAt_disjoint]
  · simp [extract_responseWord, extract_fieldAt_self, extract_fieldAt_disjoint]
  · refine ⟨?_, ?_, ?_, ?_, ?_, ?_, ?_, ?_, ?_, ?_, ?_⟩ <;> intro h <;> rw [h] <;> rfl

/-! ## The emitted bytes -/

/-- Each symbol decoded takes one bit at least (44 R213). -/
theorem decodeBits_length {ct : Vector CodeEntry 256} {q p p' : Bits} {o : List Byte}
    (h : decodeBits ct p q = some (p', o)) : o.length ≤ q.length := by
  induction q generalizing p o with
  | nil => cases h; exact Nat.le_refl _
  | cons x q ih =>
    simp only [decodeBits] at h
    split at h
    · obtain ⟨⟨p1, o1⟩, hr, he⟩ := Option.map_eq_some_iff.1 h
      cases he
      exact Nat.succ_le_succ (ih hr)
    · split at h
      · exact Nat.le_succ_of_le (ih h)
      · cases h

/-- The most bytes a command emits (43 R193, R197, 44 R222). -/
def emitBound : Instr → Nat
  | .pack _ => 32
  | .unpk _ | .ufin _ => 8
  | .flush => 1
  | _ => 0

theorem emitBound_le (i : Instr) : emitBound i ≤ 32 := by
  unfold emitBound
  split <;> decide

/-- Of the commands that complete in `FAULT` none emits. -/
theorem emitBound_of_phaseAfter_fault {i : Instr} {p : Phase} (h : phaseAfter i p = .fault) : emitBound i = 0 := by
  cases i with
  | pack _ | flush | unpk _ | ufin _ => cases h
  | _ => rfl

/-- The outcome `o` of a command processed in `s` emits at most `n` bytes, where it answers. -/
def EmitsAtMost (n : Nat) (s : State) (o : Host.Outcome State Fault Refusal) : Prop :=
  ∀ t r, o = .next t → t.rsps = s.rsps ++ [r] → r.out.length ≤ n

theorem emitsAtMost_complete {n : Nat} {s : State} {b : Block} {r : Response} (h : r.out.length ≤ n) :
    EmitsAtMost n s (complete s b r) := by
  intro t r' ht hr
  cases ht
  rw [List.append_cancel_left_eq, List.cons.injEq] at hr
  rwa [← hr.1]

theorem out_eq_nil_of_emitsAtMost {s t : State} {r : Response} {o : Host.Outcome State Fault Refusal}
    (h : EmitsAtMost 0 s o) (ht : o = .next t) (hr : t.rsps = s.rsps ++ [r]) : r.out = [] :=
  List.length_eq_zero_iff.1 (Nat.le_zero.1 (h t r ht hr))

theorem emitsAtMost_takeFault {n : Nat} {s : State} {op : BitVec 8} {k : FaultKind} {ctx : BitVec 9} :
    EmitsAtMost n s (takeFault op k ctx s) := emitsAtMost_complete (Nat.zero_le n)

theorem emitsAtMost_abort {n : Nat} {s : State} : EmitsAtMost n s (abort s) := emitsAtMost_complete (Nat.zero_le n)

theorem emitsAtMost_countUp {n k : Nat} {i : Instr} {sym : Sym} {s : State} : EmitsAtMost n s (countUp i sym k s) := by
  unfold countUp
  split
  · exact emitsAtMost_takeFault
  · exact emitsAtMost_complete (Nat.zero_le n)

/-- `FLUSH` emits the pending bits as one byte, if there are any (43 R193). -/
theorem flushBytes_length (b : Block) : (flushBytes b).length ≤ 1 := by
  unfold flushBytes
  split <;> simp

/-- Pending bits and codes are as short in `FAULT` as they were before (10 R29, R31). -/
theorem bits_of_inv {cfg : Config} {b : Block} (h : b.Inv cfg) : b.pend.length ≤ 7 ∧ TableOk b.ct := by
  rcases h with live | ⟨-, p, k, live, -⟩ <;> exact ⟨live.pend, live.table⟩

theorem code_length_le {ct : Vector CodeEntry 256} (h : TableOk ct) (sym : Sym) : (symGet ct sym).bits.length ≤ 255 := by
  obtain ⟨hempty, hcode⟩ := h sym
  cases hv : (symGet ct sym).valid with
  | false => rw [hempty hv]; decide
  | true =>
    rw [(hcode hv).2]
    exact Nat.le_of_lt_succ (symGet ct sym).len.isLt

/-- Step 4 of 30 R106 emits no more than the command's bound. -/
theorem emitsAtMost_body {s : State} (i : Instr) (h : s.blk.Inv s.cfg) : EmitsAtMost (emitBound i) s (bodyOf i s) := by
  cases i with
  | nop | clr | csrr _ | frd _ | ndrd _ | ctrd _ => exact emitsAtMost_complete (Nat.le_refl 0)
  | acc sym | fadd sym c => exact emitsAtMost_countUp
  | build =>
    refine emitsAtMost_complete ?_
    unfold buildResponse
    split <;> exact Nat.le_refl 0
  | gen =>
    simp only [bodyOf]
    split
    · intro t r ht
      cases ht
    · exact emitsAtMost_complete (Nat.le_refl 0)
  | ctld sym len w =>
    simp only [bodyOf]
    split
    · exact emitsAtMost_takeFault
    · exact emitsAtMost_complete (Nat.le_refl 0)
  | pack sym =>
    simp only [bodyOf]
    split
    · exact emitsAtMost_takeFault
    · obtain ⟨hpend, htable⟩ := bits_of_inv h
      have hcode : (s.blk.ctAt sym).bits.length ≤ 255 := code_length_le htable sym
      refine emitsAtMost_complete ?_
      show (drain _).1.length ≤ 32
      rw [(drain_length _).1, List.length_append]
      omega
  | flush => exact emitsAtMost_complete (flushBytes_length _)
  | ubeg =>
    simp only [bodyOf]
    split
    · exact emitsAtMost_takeFault
    · exact emitsAtMost_complete (Nat.le_refl 0)
  | unpk x =>
    simp only [bodyOf]
    split
    · split
      · exact emitsAtMost_takeFault
      · rename_i hd
        exact emitsAtMost_complete ((decodeBits_length hd).trans_eq (bits8_length _))
    · exact emitsAtMost_complete (Nat.zero_le 8)
  | ufin u =>
    simp only [bodyOf]
    split
    · split
      · exact emitsAtMost_takeFault
      · exact emitsAtMost_complete (Nat.zero_le 8)
    · split
      · exact emitsAtMost_takeFault
      · split
        · exact emitsAtMost_takeFault
        · rename_i hd
          split
          · exact emitsAtMost_takeFault
          · have htake := List.length_take_le' u.toNat (bits8 s.blk.hold)
            exact emitsAtMost_complete ((decodeBits_length hd).trans (htake.trans_eq (bits8_length _)))

/-- A command emits nothing, or it has completed in the phase of the transition table, within its bound. -/
theorem out_of_exec {i : Instr} {s t : State} {r : Response} (h : s.Inv) (ht : exec i s = .next t)
    (hr : t.rsps = s.rsps ++ [r]) :
    r.out = [] ∨ EmitsAtMost (emitBound i) s (exec i s) ∧ t.blk.phase = phaseAfter i s.blk.phase := by
  rcases exec_cases i s t ht with ⟨-, -, e⟩ | ⟨-, k, ctx, e⟩ | ⟨-, -, hbody, b, r', e, -, hp⟩
  · exact .inl (out_eq_nil_of_emitsAtMost emitsAtMost_abort (e.symm.trans ht) hr)
  · exact .inl (out_eq_nil_of_emitsAtMost emitsAtMost_takeFault (e.symm.trans ht) hr)
  · refine .inr ⟨hbody ▸ emitsAtMost_body i h.2, ?_⟩
    rw [blk_of_complete (e.symm.trans ht), hp]

/-- Settles O11: the bound of each command, and nothing where the command ends in `FAULT`. -/
theorem emittedBytesAreBounded : Obligations.EmittedBytesAreBounded := by
  intro i s t r h ht hr
  have hout := out_of_exec h ht hr
  have hbound : r.out.length ≤ emitBound i := by
    rcases hout with hnil | ⟨hemit, -⟩
    · rw [hnil]; exact Nat.zero_le _
    · exact hemit t r ht hr
  refine ⟨hbound.trans (emitBound_le i), ?_, ?_, ?_, fun hp => ?_⟩
  · rintro b rfl; exact hbound
  · rintro u rfl; exact hbound
  · rintro rfl; exact hbound
  · rcases hout with hnil | ⟨hemit, hphase⟩
    · exact hnil
    · rw [emitBound_of_phaseAfter_fault (hphase.symm.trans hp)] at hemit
      exact out_eq_nil_of_emitsAtMost hemit ht hr

end Sys2Proof.Machine
end

section
/-! PROOF. The frequency accumulator: `ACC` and `FADD` are one addition, `FRD` reads a counter, and merging partial counts by
`FADD` does not depend on the order (40 R130 to R135). -/

namespace Sys2Proof.Machine

/-- The word of a command whose one field is a symbol (30 R91, R97). -/
theorem commandWord_symbol (op : BitVec 8) (sym : Sym) :
    commandWord op (sym.setWidth 9) 0 = op.setWidth 32 <<< 24 ||| sym.setWidth 32 <<< 8 := by
  simp [commandWord]

/-! ## One addition -/

/-- `i` is the command that adds `n` to the counter of `sym` (40 R130, R131). -/
def Adds (i : Instr) (sym : Sym) (n : Nat) : Prop := i = .acc sym ∧ n = 1 ∨ ∃ c, i = .fadd sym c ∧ n = c.toNat

theorem adds_acc (sym : Sym) : Adds (.acc sym) sym 1 := .inl ⟨rfl, rfl⟩

theorem adds_fadd (sym : Sym) (c : Data) : Adds (.fadd sym c) sym c.toNat := .inr ⟨c, rfl, rfl⟩

section
variable {i : Instr} {sym : Sym} {n : Nat} {s : State}

theorem legalIn_adds (hi : Adds i sym n) (p : Phase) : legalIn i p = (p == .idle || p == .count) := by
  rcases hi with ⟨rfl, -⟩ | ⟨c, rfl, -⟩ <;> rfl

theorem wellFormed_adds (hi : Adds i sym n) : i.wellFormed = true := by
  rcases hi with ⟨rfl, -⟩ | ⟨c, rfl, -⟩ <;> rfl

theorem bodyOf_adds (hi : Adds i sym n) : bodyOf i s = countUp i sym n s := by
  rcases hi with ⟨rfl, rfl⟩ | ⟨c, rfl, rfl⟩ <;> rfl

theorem exec_adds (hi : Adds i sym n) (hp : s.blk.phase = .idle ∨ s.blk.phase = .count) :
    exec i s = countUp i sym n s := by
  rw [exec_body (wellFormed_adds hi) (by simpa [legalIn_adds hi] using hp), bodyOf_adds hi]

/-- An addition whose exact sum fits the counter completes with it (40 R135). -/
theorem adds_completes (hi : Adds i sym n) (hp : s.blk.phase = .idle ∨ s.blk.phase = .count)
    (hfit : s.blk.freqAt sym + n < 2 ^ s.cfg.cntW) : ∃ t, AnswersOk i s t ∧ CountEffect s.cfg sym n s.blk t.blk :=
  ⟨_, answers_of_complete ((exec_adds hi hp).trans (countUp_fits _ _ _ _ hfit)), hfit, rfl⟩

/-- An addition whose exact sum does not fit overflows (40 R135, 60 R244). -/
theorem adds_overflows (hi : Adds i sym n) (hp : s.blk.phase = .idle ∨ s.blk.phase = .count)
    (hover : 2 ^ s.cfg.cntW ≤ s.blk.freqAt sym + n) : Faults i i.op .countOverflow 0x12 (sym.setWidth 9) s :=
  faults_of_takeFault rfl ((exec_adds hi hp).trans (countUp_overflows _ _ _ _ hover))

theorem adds_outOfSequence (hi : Adds i sym n) (hp : s.blk.phase ∉ [.idle, .count, .fault]) : OutOfSequence i i.op s := by
  simp only [List.mem_cons, List.not_mem_nil, or_false, not_or] at hp
  obtain ⟨hidle, hcount, hfault⟩ := hp
  exact exec_outOfSequence (wellFormed_adds hi) (by simp [legalIn_adds hi, hidle, hcount]) hfault

end

theorem frame_of_countEffect {cfg : Config} {sym : Sym} {n : Nat} {b b' : Block} (he : CountEffect cfg sym n b b') :
    b' = { b with freq := b'.freq, phase := .count } := by
  rw [he.2]

/-- The three ends of an addition outside `FAULT` (40 R130, R131). -/
theorem adds_spec {i : Instr} {sym : Sym} {n : Nat} (hi : Adds i sym n) (s : State) :
    (s.blk.phase = .idle ∨ s.blk.phase = .count → s.blk.freqAt sym + n < 2 ^ s.cfg.cntW →
      ∃ t, AnswersOk i s t ∧ t.blk = { s.blk with freq := t.blk.freq, phase := .count } ∧
        ∀ x, t.blk.freqAt x = if x = sym then s.blk.freqAt sym + n else s.blk.freqAt x) ∧
    (s.blk.phase = .idle ∨ s.blk.phase = .count → 2 ^ s.cfg.cntW ≤ s.blk.freqAt sym + n →
      Faults i i.op .countOverflow 0x12 (sym.setWidth 9) s) ∧
    (s.blk.phase ∉ [.idle, .count, .fault] → OutOfSequence i i.op s) := by
  refine ⟨fun hp hfit => ?_, adds_overflows hi, adds_outOfSequence hi⟩
  obtain ⟨t, ht, he⟩ := adds_completes hi hp hfit
  exact ⟨t, ht, frame_of_countEffect he, freqAt_of_countEffect he⟩

/-- Settles O21: `ACC` is the addition of 1. -/
theorem accCountsOneOccurrence : Obligations.AccCountsOneOccurrence :=
  fun s sym => ⟨commandWord_symbol 0x10 sym, adds_spec (adds_acc sym) s⟩

/-- Settles O22: `FADD` is the addition of its count. -/
theorem faddAddsTheCount : Obligations.FaddAddsTheCount :=
  fun s sym c => ⟨commandWord_symbol 0x11 sym, rfl, adds_spec (adds_fadd sym c) s⟩

/-- Settles O23: `FRD` is legal in every phase, and completes on the block as it stands. -/
theorem frdReadsTheCounter : Obligations.FrdReadsTheCounter := by
  intro s sym
  have hread := answers_of_complete (i := .frd sym) (s := s) (exec_body rfl rfl)
  exact ⟨commandWord_symbol 0x12 sym, _, _, hread, rfl, bne_iff_ne⟩

/-! ## Merging partial counts -/

/-- The sum of the counts that the partial counts `l` hold for symbol `x` (40 R134). -/
def mergeTotal (l : List (Sym × Data)) (x : Sym) : Nat := ((l.filter (fun q => q.1 == x)).map (fun q => q.2.toNat)).sum

/-- Merging `l` lets every counter it names fit (40 R134). -/
def MergeFits (cfg : Config) (b : Block) (l : List (Sym × Data)) : Prop :=
  ∀ p ∈ l, b.freqAt p.1 + mergeTotal l p.1 < 2 ^ cfg.cntW

/-- `b'` is `b` after `l` has been merged into it without a fault (40 R134). -/
structure Merged (b : Block) (l : List (Sym × Data)) (b' : Block) : Prop where
  frame : b' = { b with freq := b'.freq, phase := if l = [] then b.phase else .count }
  counts : ∀ x, b'.freqAt x = b.freqAt x + mergeTotal l x

theorem mergeTotal_cons (p : Sym × Data) (l : List (Sym × Data)) (x : Sym) :
    mergeTotal (p :: l) x = (if x = p.1 then p.2.toNat else 0) + mergeTotal l x := by
  by_cases hx : p.1 = x
  · simp [mergeTotal, hx]
  · simp [mergeTotal, hx, Ne.symm hx]

theorem mergeTotal_of_not_mem {l : List (Sym × Data)} {x : Sym} (h : ∀ p ∈ l, p.1 ≠ x) : mergeTotal l x = 0 := by
  rw [mergeTotal, List.filter_eq_nil_iff.2 (by simpa using h)]
  rfl

/-! The sums, and with them what can happen, do not depend on the order. -/

section
variable {l l' : List (Sym × Data)} (hl : l.Perm l')
include hl

theorem mergeTotal_perm : mergeTotal l = mergeTotal l' :=
  funext fun _ => ((hl.filter _).map _).sum_eq

theorem mergeFits_perm {cfg : Config} {b : Block} : MergeFits cfg b l ↔ MergeFits cfg b l' := by
  simp only [MergeFits, mergeTotal_perm hl, hl.mem_iff]

theorem merged_unique {b b₁ b₂ : Block} (h₁ : Merged b l b₁) (h₂ : Merged b l' b₂) : b₁ = b₂ := by
  have hfreq : b₁.freq = b₂.freq := symGet_ext fun x => by
    show b₁.freqAt x = b₂.freqAt x
    rw [h₁.counts, h₂.counts, mergeTotal_perm hl]
  have hnil : l = [] ↔ l' = [] := by
    rw [← List.length_eq_zero_iff, hl.length_eq, List.length_eq_zero_iff]
  rw [h₁.frame, h₂.frame, hfreq]
  simp only [hnil]

end

/-! One count first, then the rest. -/

section
variable {cfg : Config} {p : Sym × Data} {b b₁ : Block} (he : CountEffect cfg p.1 p.2.toNat b b₁)
include he

theorem freqAt_add_mergeTotal_of_countEffect (l : List (Sym × Data)) (x : Sym) :
    b₁.freqAt x + mergeTotal l x = b.freqAt x + mergeTotal (p :: l) x := by
  rw [freqAt_of_countEffect he, mergeTotal_cons]
  by_cases hx : x = p.1
  · simp [hx, Nat.add_assoc]
  · simp [hx]

theorem mergeFits_cons_of_countEffect (l : List (Sym × Data)) : MergeFits cfg b (p :: l) ↔ MergeFits cfg b₁ l := by
  simp only [MergeFits, freqAt_add_mergeTotal_of_countEffect he, List.forall_mem_cons]
  refine and_iff_right_of_imp fun hrest => ?_
  by_cases hmem : ∃ q ∈ l, q.1 = p.1
  · obtain ⟨q, hq, hqp⟩ := hmem
    exact hqp ▸ hrest q hq
  · rw [mergeTotal_cons, mergeTotal_of_not_mem fun q hq hqp => hmem ⟨q, hq, hqp⟩]
    simpa using he.1

theorem merged_cons {l : List (Sym × Data)} {b' : Block} (h : Merged b₁ l b') : Merged b (p :: l) b' where
  frame := by
    rw [h.frame, he.2]
    simp
  counts x := by rw [h.counts, freqAt_add_mergeTotal_of_countEffect he]

end

theorem not_mergeFits_cons_of_overflow {cfg : Config} {b : Block} {p : Sym × Data} (l : List (Sym × Data))
    (hover : 2 ^ cfg.cntW ≤ b.freqAt p.1 + p.2.toNat) : ¬ MergeFits cfg b (p :: l) := by
  intro h
  have hp := h p List.mem_cons_self
  rw [mergeTotal_cons, if_pos rfl] at hp
  omega

/-! ## Running the merge -/

theorem execAll_cons {i : Instr} {s t : State} (h : exec i s = .next t) (is : List Instr) :
    execAll (i :: is) s = execAll is t := by
  simp only [execAll, h]

/-- In `FAULT` a sequence of commands that are aborted there leaves the block alone (60 R250). -/
theorem execAll_aborts {is : List Instr} {s : State} (hp : s.blk.phase = .fault) (hr : ∀ i ∈ is, runsInFault i = false) :
    ∃ u, execAll is s = some u ∧ u.blk = s.blk := by
  induction is generalizing s with
  | nil => exact ⟨s, rfl, rfl⟩
  | cons i is ih =>
    obtain ⟨hi, his⟩ := List.forall_mem_cons.1 hr
    obtain ⟨t, ⟨ht, -⟩, hb⟩ := exec_aborts hp hi
    rw [execAll_cons ht, ← hb]
    exact ih (hb ▸ hp) his

/-- A merge runs to its end: it faults where some counter does not fit, else the block is the merged one (40 R134). -/
theorem execAll_fadds {l : List (Sym × Data)} {s : State} (hp : s.blk.phase = .idle ∨ s.blk.phase = .count) :
    ∃ u, execAll (l.map fun p => .fadd p.1 p.2) s = some u ∧
      (u.blk.phase = .fault ∧ ¬ MergeFits s.cfg s.blk l ∨
       u.blk.phase ≠ .fault ∧ MergeFits s.cfg s.blk l ∧ Merged s.blk l u.blk) := by
  induction l generalizing s with
  | nil =>
    have hlive : s.blk.phase ≠ .fault := by rcases hp with h | h <;> simp [h]
    exact ⟨s, rfl, .inr ⟨hlive, nofun, rfl, fun _ => rfl⟩⟩
  | cons p l ih =>
    have hi := adds_fadd p.1 p.2
    rw [List.map_cons]
    rcases Nat.lt_or_ge (s.blk.freqAt p.1 + p.2.toNat) (2 ^ s.cfg.cntW) with hfit | hover
    · obtain ⟨t, ⟨ht, hcfg, -⟩, he⟩ := adds_completes hi hp hfit
      have hcount : t.blk.phase = .count := by rw [he.2]
      rw [execAll_cons ht, mergeFits_cons_of_countEffect he, ← hcfg]
      obtain ⟨u, hu, hend⟩ := ih (.inr hcount)
      exact ⟨u, hu, hend.imp_right fun ⟨hlive, hfits, hm⟩ => ⟨hlive, hfits, merged_cons he hm⟩⟩
    · obtain ⟨-, t, ⟨ht, -⟩, hb⟩ := adds_overflows hi hp hover
      have hfault : t.blk.phase = .fault := by rw [hb]
      obtain ⟨u, hu, hub⟩ := execAll_aborts (is := l.map fun p => .fadd p.1 p.2) hfault
        (List.forall_mem_map.2 fun _ _ => rfl)
      exact ⟨u, (execAll_cons ht _).trans hu, .inl ⟨hub ▸ hfault, not_mergeFits_cons_of_overflow l hover⟩⟩

/-- Settles O24: whether the merge fits, and the block it leaves where it does, depend on the totals alone. -/
theorem mergeOrderDoesNotMatter : Obligations.MergeOrderDoesNotMatter := by
  intro s l l' hp hl
  obtain ⟨u, hu, hend⟩ := execAll_fadds (l := l) hp
  obtain ⟨u', hu', hend'⟩ := execAll_fadds (l := l') hp
  rw [← mergeFits_perm hl] at hend'
  have hover : ¬ MergeFits s.cfg s.blk l ↔ ∃ p ∈ l, 2 ^ s.cfg.cntW ≤ s.blk.freqAt p.1 + mergeTotal l p.1 := by
    simp [MergeFits]
  refine ⟨u, u', hu, hu', ?_⟩
  rcases hend with ⟨hf, hnot⟩ | ⟨hlive, hfits, hm⟩
  · obtain ⟨hf', -⟩ := hend'.resolve_right fun h => hnot h.2.1
    exact ⟨iff_of_true hf hf', iff_of_true hf (hover.1 hnot), fun h => absurd hf h⟩
  · obtain ⟨hlive', -, hm'⟩ := hend'.resolve_left fun h => h.2 hfits
    exact ⟨iff_of_false hlive hlive', iff_of_false hlive fun h => hover.2 h hfits,
      fun _ => ⟨merged_unique hl hm hm', hm.counts⟩⟩

end Sys2Proof.Machine
end

section
/-! PROOF. `BUILD` sorts the leaves and combines them by the rule, and what that leaves in the arena; `NDRD` reads one node of it
(41 R150 to R164). -/

namespace Sys2Proof.Machine

/-! ## Insertion -/

/-- Where the elements with a property come first, as many as have it are those that have it. -/
theorem take_drop_countP {α : Type} {p : α → Bool} {q : List α} (h : q.Pairwise (fun x y => p y = true → p x = true)) :
    q.take (q.countP p) = q.filter p ∧ q.drop (q.countP p) = q.filter (fun x => !p x) := by
  induction q with
  | nil => exact ⟨rfl, rfl⟩
  | cons x q ih =>
    obtain ⟨hx, hq⟩ := List.pairwise_cons.1 h
    by_cases hp : p x = true
    · simp [hp, ih hq]
    · have hnone : ∀ y ∈ q, p y = false := fun y hy => Bool.eq_false_iff.2 fun hy' => hp (hx y hy hy')
      have hcount : q.countP p = 0 := List.countP_eq_zero.2 fun y hy => by simp [hnone y hy]
      have hfilter : q.filter p = [] := List.filter_eq_nil_iff.2 fun y hy => by simp [hnone y hy]
      have hrest : q.filter (fun x => !p x) = q := List.filter_eq_self.2 fun y hy => by simp [hnone y hy]
      simp [hp, hcount, hfilter, hrest]

/-- `Q` ascends by frequency (41 R160). -/
abbrev Ascends (a : Vector Node 511) (q : List Handle) : Prop :=
  q.Pairwise (fun x y => (nodeGet a x).freq ≤ (nodeGet a y).freq)

section
variable {a : Vector Node 511} {q : List Handle} (hs : Ascends a q)
include hs

/-- The two parts of an ascending sequence on either side of a frequency (41 R154). -/
theorem split_of_ascends (f : Nat) :
    q.take (q.countP fun x => decide ((nodeGet a x).freq ≤ f)) = q.filter (fun x => decide ((nodeGet a x).freq ≤ f)) ∧
      q.drop (q.countP fun x => decide ((nodeGet a x).freq ≤ f)) = q.filter (fun x => decide (f < (nodeGet a x).freq)) := by
  have hsplit := take_drop_countP (p := fun x => decide ((nodeGet a x).freq ≤ f)) (q := q)
    (hs.imp fun hxy hy => by simp only [decide_eq_true_eq] at hy ⊢; omega)
  simpa [← decide_not] using hsplit

theorem insertNode_eq_of_ascends (h : Handle) :
    insertNode a q h = q.filter (fun x => decide ((nodeGet a x).freq ≤ (nodeGet a h).freq)) ++ [h] ++
      q.filter (fun x => decide ((nodeGet a h).freq < (nodeGet a x).freq)) := by
  obtain ⟨htake, hdrop⟩ := split_of_ascends hs (nodeGet a h).freq
  simp only [insertNode, htake, hdrop, List.append_assoc, List.singleton_append]

/-- Insertion keeps every order in which the new node stands behind what is not greater and before what is greater. -/
theorem insertNode_pairwise {R : Handle → Handle → Prop} {h : Handle} (hR : q.Pairwise R)
    (hbehind : ∀ x ∈ q, (nodeGet a x).freq ≤ (nodeGet a h).freq → R x h)
    (hbefore : ∀ x ∈ q, (nodeGet a h).freq < (nodeGet a x).freq → R h x) : (insertNode a q h).Pairwise R := by
  obtain ⟨htake, hdrop⟩ := split_of_ascends hs (nodeGet a h).freq
  rw [← List.take_append_drop (q.countP fun x => decide ((nodeGet a x).freq ≤ (nodeGet a h).freq)) q, htake, hdrop,
    List.pairwise_append] at hR
  obtain ⟨hlow, hhigh, hcross⟩ := hR
  rw [insertNode_eq_of_ascends hs, List.append_assoc, List.pairwise_append, List.singleton_append, List.pairwise_cons]
  refine ⟨hlow, ⟨fun y hy => ?_, hhigh⟩, fun x hx y hy => ?_⟩
  · obtain ⟨hyq, hlt⟩ := List.mem_filter.1 hy
    exact hbefore y hyq (of_decide_eq_true hlt)
  · rcases List.mem_cons.1 hy with rfl | hy
    · obtain ⟨hxq, hle⟩ := List.mem_filter.1 hx
      exact hbehind x hxq (of_decide_eq_true hle)
    · exact hcross x hx y hy

theorem insertNode_ascends (h : Handle) : Ascends a (insertNode a q h) :=
  insertNode_pairwise hs hs (fun _ _ hle => hle) (fun _ _ hlt => hlt.le)

end

/-- Settles O34: the count of the elements not greater is where an ascending sequence parts. -/
theorem insertionGoesBehindEquals : Obligations.InsertionGoesBehindEquals :=
  fun _ _ h hs => ⟨insertNode_eq_of_ascends hs h, insertNode_ascends hs h⟩

/-! ## The leaves in order -/

/-- The order of leaves, by their handles: by count, equal counts by symbol (41 R152). -/
def LeafOrder (a : Vector Node 511) (x y : Handle) : Prop :=
  (nodeGet a x).freq < (nodeGet a y).freq ∨ (nodeGet a x).freq = (nodeGet a y).freq ∧ x.toNat < y.toNat

theorem ascends_of_leafOrder {a : Vector Node 511} {q : List Handle} (h : q.Pairwise (LeafOrder a)) : Ascends a q :=
  h.imp fun hxy => by rcases hxy with hlt | ⟨heq, -⟩ <;> omega

/-- Taken in ascending order, each handle goes behind its equals, so that equals ascend too (41 R152). -/
theorem foldl_insertNode_leafOrder {a : Vector Node 511} {l q : List Handle}
    (hl : l.Pairwise (fun x y => x.toNat < y.toNat)) (hlq : ∀ x ∈ q, ∀ y ∈ l, x.toNat < y.toNat)
    (hq : q.Pairwise (LeafOrder a)) : (l.foldl (insertNode a) q).Pairwise (LeafOrder a) := by
  induction l generalizing q with
  | nil => exact hq
  | cons h l ih =>
    obtain ⟨hh, hl⟩ := List.pairwise_cons.1 hl
    refine ih hl (fun x hx y hy => ?_) (insertNode_pairwise (ascends_of_leafOrder hq) hq (fun x hx hle => ?_) fun _ _ => .inl)
    · rcases (mem_insertNode _ _ _ _).1 hx with rfl | hx
      · exact hh y hy
      · exact hlq x hx y (List.mem_cons_of_mem _ hy)
    · have := hlq x hx h List.mem_cons_self
      exact hle.lt_or_eq.imp_right (⟨·, this⟩)

theorem initialQueue_leafOrder (a : Vector Node 511) (freq : Vector Nat 256) :
    (initialQueue a (leafList freq)).Pairwise (LeafOrder a) := by
  refine foldl_insertNode_leafOrder ?_ nofun List.Pairwise.nil
  simpa only [List.pairwise_map, leafHandle_toNat] using leafList_sorted freq

/-- The arena before the first combination: the leaves alone (41 R151). -/
abbrev leafArena (b : Block) : Vector Node 511 := plantLeaves b.freq (leafList b.freq)

/-- `Q` before the first combination (41 R152). -/
abbrev leafQueue (b : Block) : List Handle := initialQueue (leafArena b) (leafList b.freq)

/-- What every turn keeps holds before the first. -/
theorem leafForest (b : Block) : Forest (entries b) (leafArena b) 256#9 (leafQueue b) := entries_eq b ▸ forest_init b.freq

theorem leafQueue_length (b : Block) : (leafQueue b).length = entries b :=
  Nat.add_left_cancel (leafForest b).count

theorem freq_leafArena {b : Block} {x : Sym} (hx : b.freqAt x ≠ 0) :
    (nodeGet (leafArena b) (leafHandle x)).freq = b.freqAt x := by
  rw [nodeGet_plantLeaves_leaf, if_pos (show symGet b.freq x ≠ 0 from hx)]
  rfl

/-- `Q` at the start: the symbols with an entry, in the order of leaves (41 R151, R152). -/
theorem leafQueue_symbols (b : Block) : ∃ q : List Sym, leafQueue b = q.map leafHandle ∧
    (∀ x, x ∈ q ↔ b.freqAt x ≠ 0) ∧ q.Pairwise (LeafBefore b) ∧ q.length = entries b := by
  have hperm : (leafQueue b).Perm ((leafList b.freq).map leafHandle) := initialQueue_perm _ _
  have horder : (leafQueue b).Pairwise (LeafOrder (leafArena b)) := initialQueue_leafOrder _ _
  obtain ⟨q, hq⟩ : leafQueue b ∈ Set.range (List.map leafHandle) := by
    rw [Set.range_list_map]
    intro h hh
    obtain ⟨x, -, hx⟩ := List.mem_map.1 (hperm.mem_iff.1 hh)
    exact ⟨x, hx⟩
  rw [← hq] at hperm horder
  have hperm := (List.map_perm_map_iff fun _ _ => leafHandle_inj.1).1 hperm
  have hmem : ∀ x, x ∈ q ↔ b.freqAt x ≠ 0 := fun x => hperm.mem_iff.trans (mem_leafList b.freq x)
  refine ⟨q, hq.symm, hmem, (List.pairwise_map.1 horder).imp_of_mem fun hx hy hxy => ?_,
    hperm.length_eq.trans (entries_eq b).symm⟩
  rw [LeafOrder, freq_leafArena ((hmem _).1 hx), freq_leafArena ((hmem _).1 hy), leafHandle_toNat, leafHandle_toNat] at hxy
  exact hxy

/-! ## The combination loop -/

section
variable {n k : Nat} {a : Vector Node 511} {next x y : Handle} {q : List Handle} (F : Forest n a next (x :: y :: q))
include F

theorem next_ne_nil : next ≠ nilHandle := by
  rintro rfl
  have hcount := F.count
  have hbound := F.bound
  simp at hcount
  omega

/-- The new node is none of those left in `Q`. -/
theorem nodeGet_join_of_mem {z : Handle} (hz : z ∈ q) : nodeGet (nodeSet a next (joinNode a x y)) z = nodeGet a z := by
  apply nodeGet_nodeSet_ne
  rintro rfl
  exact absurd (valid_lt_next F (F.valid z (by simp [hz]))) (lt_irrefl _)

theorem ascends_join (hs : Ascends a (x :: y :: q)) : Ascends (nodeSet a next (joinNode a x y)) q :=
  (hs.sublist (by simp)).imp_of_mem fun hz hw hle => by
    rwa [nodeGet_join_of_mem F hz, nodeGet_join_of_mem F hw]

/-- The new node's place, by the frequencies before it was made (41 R153, R154). -/
theorem insertNode_join (hs : Ascends a (x :: y :: q)) : insertNode (nodeSet a next (joinNode a x y)) q next =
    q.filter (fun z => decide ((nodeGet a z).freq ≤ (nodeGet a x).freq + (nodeGet a y).freq)) ++ [next] ++
      q.filter (fun z => decide ((nodeGet a x).freq + (nodeGet a y).freq < (nodeGet a z).freq)) := by
  rw [insertNode_eq_of_ascends (ascends_join F hs), nodeGet_nodeSet_self _ _ (next_ne_nil F)]
  have hfilter (p : Nat → Bool) : q.filter (fun z => p (nodeGet (nodeSet a next (joinNode a x y)) z).freq) =
      q.filter (fun z => p (nodeGet a z).freq) := List.filter_congr fun z hz => by rw [nodeGet_join_of_mem F hz]
  exact congrArg₂ (· ++ [next] ++ ·) (hfilter fun f => decide (f ≤ _)) (hfilter fun f => decide (_ < f))

/-- The first turn makes the node `next`, and no later turn changes it (41 R153, R158). -/
theorem nodeGet_combine_next (hk : q.length + 2 ≤ k) : nodeGet (combine k a next (x :: y :: q)).1 next = joinNode a x y := by
  obtain ⟨k, rfl⟩ := Nat.exists_eq_add_of_le' (Nat.one_le_of_lt hk)
  have hlt : next.toNat < (next + 1).toNat := valid_lt_next (forest_step F) ((forest_step F).valid next (by simp))
  obtain ⟨-, -, -, -, hkeep⟩ := combine_forest k (forest_step F) (by simp; omega)
  rw [combine, hkeep next hlt, nodeGet_nodeSet_self _ _ (next_ne_nil F)]

end

/-- Over an ascending sequence of the roots of a forest the loop makes the combination steps (41 R153 to R155). -/
theorem combine_combines {n k : Nat} {a : Vector Node 511} {next : Handle} {q : List Handle} (F : Forest n a next q)
    (hs : Ascends a q) (hq : q ≠ []) (hk : q.length ≤ k) :
    ∃ r, (combine k a next q).2 = [r] ∧ Combines a next q (combine k a next q).1 r := by
  induction k generalizing a next q with
  | zero => exact absurd (List.length_eq_zero_iff.1 (Nat.le_zero.1 hk)) hq
  | succ k ih =>
    match q, F, hs, hk with
    | [r], _, _, _ => exact ⟨r, rfl, .last a next r⟩
    | x :: y :: q, F, hs, hk =>
      have hne : insertNode (nodeSet a next (joinNode a x y)) q next ≠ [] := by simp [← List.length_pos_iff]
      obtain ⟨r, hr, hc⟩ := ih (forest_step F) (insertNode_ascends (ascends_join F hs) next) hne (by simpa using hk)
      rw [combine]
      refine ⟨r, hr, .join (b := nodeSet a next (joinNode a x y)) rfl (fun h => ?_) ?_⟩
      · simp [nodeGet_nodeSet, next_ne_nil F, joinNode]
      · rw [← insertNode_join F hs]
        exact hc

/-! ## The tree of `BUILD` -/

theorem buildBlock_node (b : Block) : (buildBlock b).node = (combine (entries b) (leafArena b) 256#9 (leafQueue b)).1 := by
  rw [entries_eq]; rfl

theorem buildBlock_root (b : Block) :
    (buildBlock b).root = rootOf (combine (entries b) (leafArena b) 256#9 (leafQueue b)).2 := by
  rw [entries_eq]; rfl

/-- Settles O33: the loop starts from the forest of the leaves, in their order. -/
theorem buildFollowsTheCombinationRule : Obligations.BuildFollowsTheCombinationRule := by
  intro s t hp hn h
  obtain ⟨q, hq, hmem, horder, hlen⟩ := leafQueue_symbols s.blk
  have hs : Ascends (leafArena s.blk) (leafQueue s.blk) := ascends_of_leafOrder (initialQueue_leafOrder _ _)
  have hlength := leafQueue_length s.blk
  obtain ⟨r, hr, hc⟩ := combine_combines (leafForest s.blk) hs (List.length_pos_iff.1 (hlength ▸ hn)) hlength.le
  rw [blk_of_build hp h]
  refine ⟨leafArena s.blk, q, nodeGet_plantLeaves s.blk.freq, hmem, horder, hlen, ?_⟩
  rw [buildBlock_node, buildBlock_root, hr]
  exact ⟨rfl, hq ▸ hc⟩

/-- Settles O32: the first two leaves in their order are the least two, and the first turn joins them. -/
theorem firstCombinationJoinsTheTwoLeastLeaves : Obligations.FirstCombinationJoinsTheTwoLeastLeaves := by
  intro s t hp hn h
  obtain ⟨q, hq, hmem, horder, hlen⟩ := leafQueue_symbols s.blk
  have F := leafForest s.blk
  rw [blk_of_build hp h, Block.nodeAt, buildBlock_node]
  match q with
  | [] | [_] => simp at hlen; omega
  | x :: y :: q =>
    simp only [← hmem, List.mem_cons]
    simp only [List.pairwise_cons, List.mem_cons] at horder
    obtain ⟨hx, hy, -⟩ := horder
    refine ⟨x, y, .inl rfl, .inr (.inl rfl), hx y (.inl rfl), fun z hz hzx hzy => ?_, ?_⟩
    · exact hy z ((hz.resolve_left hzx).resolve_left hzy)
    · rw [hq] at F ⊢
      refine (nodeGet_combine_next F (by simp [← hlen])).trans ?_
      rw [joinNode, freq_leafArena ((hmem x).1 (by simp)), freq_leafArena ((hmem y).1 (by simp))]
      rfl

/-- Settles O26: no turn changes a leaf. -/
theorem buildPlantsOneLeafPerEntry : Obligations.BuildPlantsOneLeafPerEntry := by
  intro s t x hp h
  obtain ⟨-, -, -, -, -, hleaf⟩ := buildBlock_spec s.blk
  rw [blk_of_build hp h]
  exact hleaf x

/-- A sum over the symbols with an entry is one over all symbols (10 R23). -/
theorem sum_leafList (freq : Vector Nat 256) : ((leafList freq).map (symGet freq)).sum = (allSyms.map (symGet freq)).sum := by
  rw [← List.sum_filter_bne_zero (allSyms.map (symGet freq)), List.filter_map]
  rfl

/-- Settles O30: the one root left has the sum of the leaves, which no node exceeds. -/
theorem buildSumsAllCounters : Obligations.BuildSumsAllCounters := by
  intro s t hp hn h
  rw [blk_of_build hp h]
  obtain ⟨-, -, hv, -, hsum, -⟩ := buildBlock_spec s.blk
  rw [if_pos (hv.2 hn.ne'), sum_leafList, allSyms, List.map_map] at hsum
  exact ⟨List.sum_singleton.symm.trans hsum, fun hlt k => (buildBlock_freq_le s.blk k).trans_lt (leaf_sum_lt hlt)⟩

/-- Settles O35: `BUILD` reads nothing of the block but `FREQ`. -/
theorem buildDependsOnFreqAlone : Obligations.BuildDependsOnFreqAlone := by
  intro s t s' t' hp hp' hfreq h h'
  have heq : s.blk.freq = s'.blk.freq := symGet_ext hfreq
  rw [blk_of_build hp h, blk_of_build hp' h']
  simp only [buildBlock, heq, and_self]

/-! ## Tables of one entry and of none -/

theorem leafList_eq_singleton {b : Block} {x : Sym} (h : ∀ y, b.freqAt y ≠ 0 ↔ y = x) : leafList b.freq = [x] :=
  List.perm_singleton.1 ((List.perm_ext_iff_of_nodup (leafList_nodup _) (List.nodup_singleton x)).2 fun y => by
    rw [mem_leafList, List.mem_singleton]
    exact h y)

/-- Settles O27: with one leaf in `Q` the loop makes no turn. -/
theorem buildOfOneEntryIsALeaf : Obligations.BuildOfOneEntryIsALeaf := by
  intro s x hp hx
  have hl := leafList_eq_singleton hx
  have hb : buildBlock s.blk = { s.blk with
      node := leafArena s.blk, root := { valid := true, h := leafHandle x }, nsym := 1, phase := .tree } := by
    rw [buildBlock, leafArena, hl]
    rfl
  have ha := answers_of_complete (exec_build hp)
  rw [hb] at ha
  refine ⟨_, ha, rfl, rfl, fun h hh => ?_⟩
  show (nodeGet (leafArena s.blk) h).valid = false
  rw [nodeGet_plantLeaves, if_neg (by omega)]
  rfl

theorem codeCount_emptyTable : codeCount emptyTable = 0 := by
  rw [codeCount_eq, List.countP_eq_zero]
  simp [CodeEntry.none]

theorem exec_gen_of_invalid_root {s : State} (hp : s.blk.phase = .tree) (hr : s.blk.root.valid = false) :
    exec .gen s = complete s { s.blk with ct := emptyTable, phase := .code } Response.ok := by
  rw [exec_body rfl (by rw [hp]; rfl), bodyOf, genTable, if_pos hr]
  simp only [codeCount_emptyTable]
  rfl

theorem exec_flush_of_nothing_packed {s : State} (hp : s.blk.phase = .code) (hpend : s.blk.pend = [])
    (hany : s.blk.bpAny = false) : exec .flush s = complete s
      { s.blk with pend := [], bpAny := false, finalUsed := 0, fuValid := true, phase := .done } Response.ok := by
  rw [exec_body rfl (by rw [hp]; rfl), bodyOf, finalUsedOf, flushBytes, hpend, hany]
  rfl

/-- Settles O28: `BUILD` leaves no root, `GEN` without a root the empty table, and `FLUSH` with nothing packed emits nothing. -/
theorem emptyInputGivesEmptyTableAndPayload : Obligations.EmptyInputGivesEmptyTableAndPayload := by
  intro s hp hzero hpend hany
  have hn : entries s.blk = 0 := by simp [entries, hzero]
  obtain ⟨hroot, next, F⟩ := buildBlock_empty hn
  have hresponse : buildResponse (buildBlock s.blk) = { Response.ok with status := .emptyInput } := by
    rw [buildResponse, hroot]
    rfl
  have hnone (h : Handle) : ((buildBlock s.blk).nodeAt h).valid = false := Bool.eq_false_iff.2 fun hv =>
    let ⟨_, hr, _⟩ := F.reach h hv
    List.not_mem_nil hr
  refine ⟨_, _, _, answers_of_complete ((exec_build hp).trans (congrArg _ hresponse)), hroot,
    BitVec.eq_of_toNat_eq ((buildBlock_nsym_toNat s.blk).trans hn), rfl, rfl, hnone,
    answers_of_complete (exec_gen_of_invalid_root rfl (congrArg Root.valid hroot)), rfl, symGet_emptyTable,
    answers_of_complete (exec_flush_of_nothing_packed rfl ?_ ?_), rfl, rfl, rfl⟩
  · exact hpend
  · exact hany

/-! ## `NDRD` -/

theorem nodeData_fields (n : Node) :
    (nodeData n).extractLsb' 0 136 = BitVec.ofNat 136 n.freq ∧ (nodeData n).extractLsb' 136 8 = 0 ∧
    (nodeData n).extractLsb' 144 9 = n.right ∧ (nodeData n).extractLsb' 153 7 = 0 ∧
    (nodeData n).extractLsb' 160 9 = n.left ∧ (nodeData n).extractLsb' 169 7 = 0 ∧
    (nodeData n).getLsbD 176 = n.valid ∧ (nodeData n).extractLsb' 177 79 = 0 := by
  simp [nodeData, BitVec.extractLsb'_or, extract_fieldAt_self, extract_fieldAt_disjoint, getElem_fieldAt]

theorem exec_ndrd {h : Handle} (s : State) (hh : h ≠ 511#9) : exec (.ndrd h) s = complete s s.blk
    { Response.ok with flag := (s.blk.nodeAt h).valid, rdata := nodeData (s.blk.nodeAt h) } :=
  exec_body (by simp [Instr.wellFormed]; bv_omega) rfl

section
variable {i : Instr} {s : State} (hw : i.wellFormed = false)
include hw

theorem faults_of_illFormed (hp : s.blk.phase ≠ .fault) : Faults i i.op .illegalCommand 0x10 i.idxField s :=
  faults_of_takeFault rfl ((exec_illFormed s hw).trans (if_neg hp))

theorem aborts_of_illFormed (hp : s.blk.phase = .fault) : Aborts i s :=
  aborts_of_abort ((exec_illFormed s hw).trans (if_pos hp))

end

/-- Settles O36: a handle up to 510 reads its node, 511 is an illegal word. -/
theorem ndrdReadsTheNode : Obligations.NdrdReadsTheNode := by
  intro s h
  refine ⟨?_, fun hh => ?_, ?_, ?_⟩
  · simp [encode, commandWord, Instr.op, Instr.row, Op.code, Instr.idxField, Instr.argField]
  · exact ⟨_, _, answers_of_complete (exec_ndrd s hh), rfl, nodeData_fields _⟩
  · rintro rfl hp
    exact faults_of_illFormed rfl hp
  · rintro rfl hp
    exact aborts_of_illFormed rfl hp

end Sys2Proof.Machine
end

section
/-! PROOF. The code table: what `GEN` writes into it, what `CTRD` reads from it, and what `CTLD` loads into it (42 R170 to
R180). -/

namespace Sys2Proof.Machine

/-! ## `CTRD` -/

/-- Settles O41: `CTRD` is legal in every phase, and a code of at most 255 bits fits left-aligned on the bus. -/
theorem ctrdReadsTheEntry : Obligations.CtrdReadsTheEntry := by
  intro s x hlen
  have hread := answers_of_complete (i := .ctrd x) (s := s) (exec_body rfl rfl)
  exact ⟨commandWord_symbol 0x31 x, _, _, hread, rfl, getMsbD_left256 _ (by omega)⟩

/-! ## `CTLD` -/

/-- The entry that `CTLD` writes (42 R177). -/
def loadedEntry (len : Byte) (w : Data) : CodeEntry := { valid := true, len := len, bits := codeOperand len w }

theorem getElem?_codeOperand {len : Byte} {i : Nat} (w : Data) (hi : i < len.toNat) :
    (codeOperand len w)[i]? = some (w.getMsbD i) := by
  simp [codeOperand, msbFirst, hi]

section
variable {s : State} {x : Sym} {len : Byte} {w : Data}

theorem exec_ctld_of_malformed (hp : s.blk.phase = .idle ∨ s.blk.phase = .load)
    (h : len = 0 ∨ (s.blk.ctAt x).valid = true ∨ strayBits len w = true) :
    exec (.ctld x len w) s = takeFault 0x32 .malformedTable (leafHandle x) s :=
  (exec_body rfl (by simpa [legalIn] using hp)).trans (if_pos h)

theorem exec_ctld_of_acceptable (hp : s.blk.phase = .idle ∨ s.blk.phase = .load) (hlen : len ≠ 0)
    (hfree : (s.blk.ctAt x).valid = false) (hstray : strayBits len w = false) : exec (.ctld x len w) s =
      complete s { s.blk with ct := symSet s.blk.ct x (loadedEntry len w), phase := .load } Response.ok :=
  (exec_body rfl (by simpa [legalIn] using hp)).trans (if_neg (by simpa [hfree, hstray] using hlen))

end

/-- Settles O42: the three checks are the ones of the rule, the stray bits being those at and below position `len`. -/
theorem ctldLoadsOneCode : Obligations.CtldLoadsOneCode := by
  intro s x len w
  refine ⟨?_, rfl, fun hp => ⟨fun h => ?_, fun hlen hfree hzero => ?_⟩, fun hp => ?_⟩
  · simp [encode, commandWord, Instr.op, Instr.row, Op.code, Instr.idxField, Instr.argField]
  · rw [← strayBits_iff] at h
    exact faults_of_takeFault rfl (exec_ctld_of_malformed hp h)
  · have hstray : strayBits len w = false := by
      rw [Bool.eq_false_iff, ne_eq, strayBits_iff]
      rintro ⟨i, hle, hlt, hone⟩
      simp [hzero i hle hlt] at hone
    have hself : symGet (symSet s.blk.ct x (loadedEntry len w)) x = loadedEntry len w := symGet_symSet_self _ _ _
    refine ⟨_, answers_of_complete (exec_ctld_of_acceptable hp hlen hfree hstray), rfl, ?_⟩
    simp only [Block.ctAt, hself]
    exact ⟨rfl, rfl, codeOperand_length _ _, fun i => getElem?_codeOperand w, fun y hy => symGet_symSet_ne _ _ hy⟩
  · simp only [List.mem_cons, List.not_mem_nil, or_false, not_or] at hp
    obtain ⟨hidle, hload, hfault⟩ := hp
    exact exec_outOfSequence rfl (by simp [legalIn, hidle, hload]) hfault

/-! ## Loading a table -/

/-- The command that loads the entry of one symbol (30 R104). -/
abbrev loadOf (ct : Vector CodeEntry 256) (x : Sym) : Instr := .ctld x (symGet ct x).len (left256 (symGet ct x).bits)

/-- A legal valid entry is loaded as it stands (42 R180). -/
theorem loadedEntry_of_tableOk {ct : Vector CodeEntry 256} (hct : TableOk ct) {x : Sym} (hv : (symGet ct x).valid = true) :
    loadedEntry (symGet ct x).len (left256 (symGet ct x).bits) = symGet ct x := by
  obtain ⟨-, hlen⟩ := (hct x).2 hv
  rw [loadedEntry, codeOperand_left256 _ _ hlen, ← hv]

/-- Loading the entry of a symbol that has none completes, and sets this entry (42 R177). -/
theorem exec_loadOf {ct : Vector CodeEntry 256} (hct : TableOk ct) {s : State} {x : Sym} (hv : (symGet ct x).valid = true)
    (hp : s.blk.phase = .idle ∨ s.blk.phase = .load) (hfree : (s.blk.ctAt x).valid = false) :
    ∃ t, exec (loadOf ct x) s = .next t ∧ t.blk.phase = .load ∧
      ∀ y, t.blk.ctAt y = if y = x then symGet ct x else s.blk.ctAt y := by
  obtain ⟨hpos, hlen⟩ := (hct x).2 hv
  have hne : (symGet ct x).len ≠ 0 := fun h => by simp [h] at hpos
  have hexec := exec_ctld_of_acceptable hp hne hfree (strayBits_left256 _ _ hlen)
  rw [loadedEntry_of_tableOk hct hv] at hexec
  exact ⟨_, hexec, rfl, fun _ => symGet_symSet _ _ _ _⟩

/-- Loading the entries of different symbols, none of them loaded before, sets these entries and keeps the others. -/
theorem execAll_loads {ct : Vector CodeEntry 256} (hct : TableOk ct) {l : List Sym} (hl : l.Nodup)
    (hv : ∀ x ∈ l, (symGet ct x).valid = true) {s : State} (hp : s.blk.phase = .idle ∨ s.blk.phase = .load)
    (hfree : ∀ x ∈ l, (s.blk.ctAt x).valid = false) :
    ∃ u, execAll (l.map (loadOf ct)) s = some u ∧ (u.blk.phase = .idle ∨ u.blk.phase = .load) ∧
      ∀ y, u.blk.ctAt y = if y ∈ l then symGet ct y else s.blk.ctAt y := by
  induction l generalizing s with
  | nil => exact ⟨s, rfl, hp, fun _ => rfl⟩
  | cons x l ih =>
    obtain ⟨hx, hl⟩ := List.nodup_cons.1 hl
    obtain ⟨hvx, hv⟩ := List.forall_mem_cons.1 hv
    obtain ⟨hfx, hfree⟩ := List.forall_mem_cons.1 hfree
    obtain ⟨t, ht, htp, htget⟩ := exec_loadOf hct hvx hp hfx
    have hkeep : ∀ y ∈ l, t.blk.ctAt y = s.blk.ctAt y := fun y hy => by
      rw [htget, if_neg (ne_of_mem_of_not_mem hy hx)]
    obtain ⟨u, hu, hup, huget⟩ := ih hl hv (.inr htp) fun y hy => (hkeep y hy).symm ▸ hfree y hy
    refine ⟨u, (execAll_cons ht _).trans hu, hup, fun y => ?_⟩
    rw [huget, htget]
    by_cases hy : y = x <;> simp [hy]

/-- Settles O43: every valid entry is loaded, and the others are empty, as they are after reset. -/
theorem loadingATableRestoresIt : Obligations.LoadingATableRestoresIt := by
  intro cfg ct hct
  obtain ⟨u, hu, hp, hget⟩ := execAll_loads hct (allSyms_nodup.filter fun x => (symGet ct x).valid)
    (fun x hx => (List.mem_filter.1 hx).2) (s := State.resetWith cfg) (.inl rfl) (fun x _ => by simp [CodeEntry.none])
  refine ⟨u, hu, by rcases hp with hp | hp <;> simp [hp], symGet_ext fun y => (hget y).trans ?_⟩
  cases hv : (symGet ct y).valid with
  | true => simp [hv]
  | false => simp [(hct y).1 hv, CodeEntry.none]

/-! ## `GEN` -/

theorem exec_gen {s : State} {ct : Vector CodeEntry 256} (hp : s.blk.phase = .tree) (hg : genTable s.blk = some ct) :
    exec .gen s = complete s { s.blk with ct := ct, phase := .code } { Response.ok with val := val9 (codeCount ct) } := by
  rw [exec_body rfl (by rw [hp]; rfl), bodyOf, hg]

/-- Under a root the symbols with a code are those whose leaf is reached (42 R171, R172). -/
theorem genTable_valid_iff {b : Block} {ct : Vector CodeEntry 256} (hg : genTable b = some ct) (hr : b.root.valid = true)
    (x : Sym) : (symGet ct x).valid = true ↔ ∃ p, Leads b.node b.root.h p (leafHandle x) := by
  rcases genTable_some hg x with ⟨hinv, -⟩ | ⟨-, hleaf, hs⟩ | ⟨-, -, ⟨p, l, -, -, hs⟩ | ⟨hno, hs⟩⟩
  · simp [hr] at hinv
  · rw [hs]
    constructor
    · split
      · rename_i hx
        exact fun _ => ⟨[], hx ▸ .here _⟩
      · nofun
    · rintro ⟨p, l⟩
      rw [if_pos (leads_of_leaf hleaf l).2]
      rfl
  · rw [hs]
    exact iff_of_true rfl ⟨p, l⟩
  · rw [hs]
    exact iff_of_false nofun fun ⟨p, l⟩ => hno p l

/-- Under an internal root a code leads from the root to its leaf (42 R171). -/
theorem leads_of_genTable {b : Block} {ct : Vector CodeEntry 256} (hg : genTable b = some ct) (hr : 256 ≤ b.root.h.toNat)
    {x : Sym} (hv : (symGet ct x).valid = true) : Leads b.node b.root.h (symGet ct x).bits (leafHandle x) := by
  rcases genTable_valid hg hv with hx | ⟨-, l⟩
  · have := leafHandle_lt x
    rw [hx] at this
    omega
  · exact l

/-- Settles O37: on a forest the walk returns, and what it records is a legal table of paths. -/
theorem genRecordsTheRootToLeafPaths : Obligations.GenRecordsTheRootToLeafPaths := by
  intro s
  refine ⟨by decide, fun hp ha hroot hnode hinternal => ?_, fun hp => ?_⟩
  · obtain ⟨ct, hg⟩ := genTable_returns ha fun _ => hnode
    have hans := answers_of_complete (exec_gen hp hg)
    rw [codeCount_range] at hans
    refine ⟨_, hans, rfl, fun x => ⟨genTable_valid_iff hg hroot x, fun hv => ?_, (genTable_tableOk hg x).1⟩⟩
    obtain ⟨hpos, hlen⟩ := (genTable_tableOk hg x).2 hv
    exact ⟨leads_of_genTable hg hinternal hv, hlen, hpos⟩
  · simp only [List.mem_cons, List.not_mem_nil, or_false, not_or] at hp
    obtain ⟨htree, hfault⟩ := hp
    exact exec_outOfSequence rfl (by simp [legalIn, htree]) hfault

theorem genTable_of_leaf {b : Block} {x : Sym} (hr : b.root = { valid := true, h := leafHandle x }) :
    genTable b = some (symSet emptyTable x (codeEntry [false])) := by
  have hx : ((leafHandle x).setWidth 8 : Sym) = x := leafHandle_inj.1 (leafHandle_setWidth (leafHandle_lt x))
  rw [genTable, hr, if_neg (by simp), if_pos (leafHandle_lt x), hx]

theorem codeCount_of_one (x : Sym) (p : Bits) : codeCount (symSet emptyTable x (codeEntry p)) = 1 := by
  have hvalid (y : Sym) : (symGet (symSet emptyTable x (codeEntry p)) y).valid = (y == x) := by
    rw [symGet_symSet]
    by_cases hy : y = x
    · simp [hy, codeEntry]
    · simp [hy, CodeEntry.none]
  rw [codeCount_eq, funext hvalid]
  exact List.count_eq_one_of_mem allSyms_nodup (mem_allSyms x)

/-- Settles O38: neither case has a walk to make. -/
theorem genOfLeafOrEmptyTree : Obligations.GenOfLeafOrEmptyTree := by
  refine fun s hp => ⟨fun x hr => ?_, fun hr => ?_⟩
  · have hans := answers_of_complete (exec_gen hp (genTable_of_leaf hr))
    rw [codeCount_of_one] at hans
    exact ⟨_, hans, rfl, fun y => (symGet_symSet _ _ _ _).trans (by simp [codeEntry, CodeEntry.none])⟩
  · exact ⟨_, answers_of_complete (exec_gen_of_invalid_root hp hr), rfl, symGet_emptyTable⟩

end Sys2Proof.Machine
end

section
/-! PROOF. The codes of a frequency table, after `BUILD` and `GEN`: every counted symbol has one, and with two or more symbols
they are complete (42 R174, R175). -/

namespace Sys2Proof.Machine

/-! ## Paths in a forest -/

theorem exists_leaf_along_of_leaf {a : Vector Node 511} {h : Handle} (hlt : h.toNat < 256) (q : Bits) :
    ∃ x p, p <+: q ∧ Leads a h p (leafHandle x) :=
  ⟨h.setWidth 8, [], List.nil_prefix, by rw [leafHandle_setWidth hlt]; exact .here h⟩

section
variable {a : Vector Node 511} (ha : ArenaOk a)
include ha

/-- Handles fall along a path, and every node on it but the last is internal, so the root's handle bounds its length
(42 R175). -/
theorem length_le_of_leads {r h : Handle} {p : Bits} (l : Leads a r p h) (hr : (nodeGet a r).valid = true) :
    p.length ≤ r.toNat - 255 := by
  induction l with
  | here => exact Nat.zero_le _
  | left hge _ _ ih =>
    obtain ⟨hlt, -, hv, -, -⟩ := ha.internal _ hge hr
    have := ih hv
    rw [List.length_cons]
    omega
  | right hge _ _ ih =>
    obtain ⟨-, hlt, -, hv, -⟩ := ha.internal _ hge hr
    have := ih hv
    rw [List.length_cons]
    omega

/-- Every internal node has both branches, so a bit sequence that is long enough leads to a leaf (42 R174). -/
theorem exists_leaf_along {h : Handle} (hv : (nodeGet a h).valid = true) {q : Bits} (hq : h.toNat ≤ 255 + q.length) :
    ∃ x p, p <+: q ∧ Leads a h p (leafHandle x) := by
  induction q generalizing h with
  | nil => exact exists_leaf_along_of_leaf (Nat.lt_succ_of_le hq) []
  | cons d q ih =>
    rw [List.length_cons] at hq
    rcases Nat.lt_or_ge h.toNat 256 with hlt | hge
    · exact exists_leaf_along_of_leaf hlt _
    · have hnil : h ≠ nilHandle := by
        rintro rfl
        simp [Node.none] at hv
      obtain ⟨hl, hr, hvl, hvr, -⟩ := ha.internal h hge hv
      cases d with
      | false =>
        obtain ⟨x, p, hp, l⟩ := ih hvl (by omega)
        exact ⟨x, false :: p, (List.prefix_cons_inj _).2 hp, .left hge hnil l⟩
      | true =>
        obtain ⟨x, p, hp, l⟩ := ih hvr (by omega)
        exact ⟨x, true :: p, (List.prefix_cons_inj _).2 hp, .right hge hnil l⟩

end

/-- Of two codes of a prefix-free table only one begins a given sequence (42 R174). -/
theorem eq_of_prefixFree {ct : Vector CodeEntry 256} (hct : PrefixFree ct) {x y : Sym} {q : Bits}
    (hx : (symGet ct x).valid = true) (hy : (symGet ct y).valid = true) (hxq : (symGet ct x).bits <+: q)
    (hyq : (symGet ct y).bits <+: q) : y = x := by
  by_contra hne
  rcases List.prefix_or_prefix_of_prefix hxq hyq with hxy | hyx
  · exact hct x y (Ne.symm hne) hx hy hxy
  · exact hct y x hne hy hx hyx

/-! ## The codes after `BUILD` -/

/-- With one entry the root is a leaf (41 R156). -/
theorem buildBlock_root_of_one {b : Block} (hn : entries b = 1) : (buildBlock b).root.h.toNat < 256 := by
  obtain ⟨-, next, F⟩ := buildBlock_tree (b := b) (by omega)
  have hcount : next.toNat + 1 = 256 + entries b := F.count
  have := valid_lt_next F (F.valid (buildBlock b).root.h (by simp))
  omega

/-- With two or more entries the root is the last internal node (41 R158). -/
theorem buildBlock_root_of_two {b : Block} (hn : 2 ≤ entries b) : (buildBlock b).root.h.toNat = 254 + entries b := by
  obtain ⟨-, next, F⟩ := buildBlock_tree (b := b) (by omega)
  have hcount : next.toNat + 1 = 256 + entries b := F.count
  rw [root_of_forest F (by omega)]
  omega

/-- A symbol is counted exactly when its leaf is a node (41 R151). -/
theorem buildBlock_leaf_valid (b : Block) (x : Sym) :
    ((buildBlock b).nodeAt (leafHandle x)).valid = true ↔ b.freqAt x ≠ 0 := by
  obtain ⟨-, -, -, -, -, hleaf⟩ := buildBlock_spec b
  rw [hleaf]
  split
  · exact iff_of_true rfl ‹_›
  · exact iff_of_false nofun ‹_›

section
variable {b : Block} {ct : Vector CodeEntry 256} (hg : genTable (buildBlock b) = some ct)
include hg

/-- The symbols with a code are those with an entry in the frequency table (42 R174). -/
theorem hasCode_iff_counted (x : Sym) : (symGet ct x).valid = true ↔ b.freqAt x ≠ 0 := by
  rw [← buildBlock_leaf_valid]
  by_cases hn : entries b = 0
  · obtain ⟨hroot, next, F⟩ := buildBlock_empty hn
    rw [genTable, hroot, if_pos rfl, Option.some.injEq] at hg
    refine iff_of_false (by simp [← hg, CodeEntry.none]) fun hv => ?_
    obtain ⟨r, hr, -⟩ := F.reach _ hv
    exact List.not_mem_nil hr
  · obtain ⟨hr, next, F⟩ := buildBlock_tree hn
    rw [genTable_valid_iff hg hr]
    refine ⟨fun ⟨p, l⟩ => valid_of_leads F.arena l (F.valid _ (by simp)), fun hv => ?_⟩
    obtain ⟨r, hmem, hreach⟩ := F.reach _ hv
    rwa [List.mem_singleton.1 hmem] at hreach

/-- The one code of a table of one entry (42 R172). -/
theorem code_of_one (hn : entries b = 1) {x : Sym} (hv : (symGet ct x).valid = true) : (symGet ct x).bits = [false] := by
  have hleaf := buildBlock_root_of_one hn
  rcases genTable_some hg x with ⟨-, hs⟩ | ⟨-, -, hs⟩ | ⟨-, hge, -⟩
  · rw [hs] at hv; cases hv
  · split at hs
    · rw [hs]; rfl
    · rw [hs] at hv; cases hv
  · omega

/-- With two or more entries a code has 1 to `NSYM - 1` bits (42 R175). -/
theorem code_length_bounds (hn : 2 ≤ entries b) {x : Sym} (hv : (symGet ct x).valid = true) :
    1 ≤ (symGet ct x).bits.length ∧ (symGet ct x).bits.length ≤ entries b - 1 := by
  obtain ⟨-, next, F⟩ := buildBlock_tree (b := b) (by omega)
  have hroot := buildBlock_root_of_two hn
  obtain ⟨hpos, hlen⟩ := (genTable_tableOk hg x).2 hv
  have := length_le_of_leads F.arena (leads_of_genTable hg (by omega) hv) (F.valid _ (by simp))
  omega

/-- With two or more entries every sequence of 255 or more bits begins with a code (42 R174). -/
theorem exists_code_prefix (hn : 2 ≤ entries b) {q : Bits} (hq : 255 ≤ q.length) :
    ∃ x, (symGet ct x).valid = true ∧ (symGet ct x).bits <+: q := by
  obtain ⟨hr, next, F⟩ := buildBlock_tree (b := b) (by omega)
  have hmem := List.mem_singleton_self (buildBlock b).root.h
  have hroot := buildBlock_root_of_two hn
  have hle := entries_le b
  obtain ⟨x, p, hp, l⟩ := exists_leaf_along F.arena (F.valid _ hmem) (q := q) (by omega)
  have hv := (genTable_valid_iff hg hr x).2 ⟨p, l⟩
  have hcode := leads_of_genTable hg (by omega) hv
  obtain ⟨-, heq⟩ := F.unique _ hmem _ hmem _ _ _ hcode l
  exact ⟨x, hv, heq ▸ hp⟩

end

/-- Settles O40: the codes are the paths to the leaves of the tree that `BUILD` leaves. -/
theorem everyCountedSymbolHasACode : Obligations.EveryCountedSymbolHasACode := by
  intro s hp
  obtain ⟨ct, hg⟩ := genTable_returns (buildBlock_arena s.blk) (buildBlock_rootOk s.blk).2
  have hpf : PrefixFree ct := genTable_prefixFree hg
  refine ⟨_, (execAll_cons (exec_build hp) _).trans (execAll_cons (exec_gen rfl hg) _), rfl, hasCode_iff_counted hg, hpf,
    fun x hv => ((genTable_tableOk hg x).2 hv).2.symm, fun hn x => code_of_one hg hn,
    fun hn => ⟨fun x => code_length_bounds hg hn, fun q hq => ?_⟩⟩
  obtain ⟨x, hv, hx⟩ := exists_code_prefix hg hn hq
  exact ⟨x, hv, hx, fun y hy hyq => eq_of_prefixFree hpf hv hy hx hyq⟩

end Sys2Proof.Machine
end

section
/-! PROOF. The packer: `PACK` appends a code and emits the full bytes, over a list of symbols it is a fold, and `FLUSH` ends the
payload (43 R190 to R196). -/

namespace Sys2Proof.Machine

section
variable {i : Instr} {s t : State}

/-- The commands of the packer are legal in `CODE` and `PACK` alone (10 R47). -/
theorem packer_outOfSequence (hw : i.wellFormed = true) (hl : ∀ p, legalIn i p = (p == .code || p == .pack))
    (hp : s.blk.phase ∉ [.code, .pack, .fault]) : OutOfSequence i i.op s := by
  simp only [List.mem_cons, List.not_mem_nil, or_false, not_or] at hp
  obtain ⟨hcode, hpack, hfault⟩ := hp
  exact exec_outOfSequence hw (by simp [hl, hcode, hpack]) hfault

/-- What a command emits goes behind what was emitted before it (20 R62). -/
theorem outStream_of_answers {status : Status} {flag : Bool} {val : BitVec 9} {rdata : Data} {out : List Byte}
    (h : Answers i s t status flag val rdata out) : t.outStream = s.outStream ++ out := by
  obtain ⟨-, -, -, hrsps⟩ := h
  simp [State.outStream, hrsps]

end

/-! ## `PACK` -/

section
variable {s : State} {x : Sym} (hp : s.blk.phase = .code ∨ s.blk.phase = .pack)
include hp

theorem exec_pack_of_uncoded (hv : (s.blk.ctAt x).valid = false) :
    exec (.pack x) s = takeFault 0x40 .missingCodeEntry (leafHandle x) s :=
  (exec_body rfl (by simpa [legalIn] using hp)).trans (if_pos hv)

theorem exec_pack_of_coded {out : List Byte} {rest : Bits} (hv : (s.blk.ctAt x).valid = true)
    (hd : drain (s.blk.pend ++ (s.blk.ctAt x).bits) = (out, rest)) : exec (.pack x) s = complete s
      { s.blk with pend := rest, bpAny := s.blk.bpAny || !out.isEmpty, phase := .pack }
      { Response.ok with val := val9 rest.length, out := out } := by
  rw [exec_body rfl (by simpa [legalIn] using hp), bodyOf, if_neg (by simp [hv]), hd]

/-- With a code the full bytes and the bits left over are the pending bits and the code (43 R190). -/
theorem pack_completes (hv : (s.blk.ctAt x).valid = true) :
    ∃ t out, Answers (.pack x) s t .ok false (BitVec.ofNat 9 t.blk.pend.length) 0 out ∧
      t.blk = { s.blk with pend := t.blk.pend, bpAny := t.blk.bpAny, phase := .pack } ∧
      bitsOf out ++ t.blk.pend = s.blk.pend ++ (s.blk.ctAt x).bits ∧ t.blk.pend.length < 8 ∧
      (t.blk.bpAny = true ↔ s.blk.bpAny = true ∨ out ≠ []) := by
  obtain ⟨hbits, hlt⟩ := drain_spec (s.blk.pend ++ (s.blk.ctAt x).bits)
  exact ⟨_, _, answers_of_complete (exec_pack_of_coded hp hv rfl), rfl, hbits, hlt, by simp⟩

end

/-- Settles O44: a code is drained into bytes; without one, or out of sequence, the fault of the rule is raised. -/
theorem packAppendsTheCode : Obligations.PackAppendsTheCode :=
  fun _ x => ⟨commandWord_symbol 0x40 x,
    fun hp => ⟨pack_completes hp, fun hv => faults_of_takeFault rfl (exec_pack_of_uncoded hp hv)⟩,
    packer_outOfSequence rfl fun _ => rfl⟩

/-- Settles O45, by induction on the symbols: a `PACK` leaves `CT` and the phase such that the next one completes too. -/
theorem packIsASequentialFold : Obligations.PackIsASequentialFold := by
  intro s src hp hv
  induction src generalizing s with
  | nil => exact ⟨s, [], rfl, by rcases hp with hp | hp <;> simp [hp], by simp, by simp [bitsOf], rfl, id⟩
  | cons x src ih =>
    obtain ⟨hvx, hv⟩ := List.forall_mem_cons.1 hv
    obtain ⟨t, out, hans, hframe, hbits, hlt, -⟩ := pack_completes hp hvx
    have hct : t.blk.ct = s.blk.ct := by rw [hframe]
    have hget : t.blk.ctAt = s.blk.ctAt := by simp only [funext_iff, Block.ctAt, hct, implies_true]
    obtain ⟨u, rest, hu, hlive, hstream, hrest, hkeep, hshort⟩ :=
      ih t (.inr (by rw [hframe])) (by rwa [hget])
    refine ⟨u, out ++ rest, (execAll_cons hans.1 _).trans hu, hlive, ?_, ?_, hkeep.trans hct, fun _ => hshort hlt⟩
    · rw [hstream, outStream_of_answers hans, List.append_assoc]
    · calc bitsOf (out ++ rest) ++ u.blk.pend
        _ = bitsOf out ++ (bitsOf rest ++ u.blk.pend) := by simp [bitsOf]
        _ = (bitsOf out ++ t.blk.pend) ++ src.flatMap fun y => (s.blk.ctAt y).bits := by
          rw [hrest, hget, List.append_assoc]
        _ = s.blk.pend ++ (x :: src).flatMap fun y => (s.blk.ctAt y).bits := by
          rw [hbits, List.flatMap_cons, List.append_assoc]

/-! ## `FLUSH` -/

section
variable {s : State} (hp : s.blk.phase = .code ∨ s.blk.phase = .pack)
include hp

theorem exec_flush : exec .flush s = complete s
    { s.blk with pend := [], bpAny := s.blk.bpAny || decide (0 < s.blk.pend.length), finalUsed := finalUsedOf s.blk,
                 fuValid := true, phase := .done }
    { Response.ok with val := (finalUsedOf s.blk).setWidth 9, out := flushBytes s.blk } :=
  exec_body rfl (by simpa [legalIn] using hp)

theorem exec_flush_of_pending (hne : s.blk.pend ≠ []) : exec .flush s = complete s
    { s.blk with pend := [], bpAny := true, finalUsed := BitVec.ofNat 4 s.blk.pend.length, fuValid := true, phase := .done }
    { Response.ok with val := (BitVec.ofNat 4 s.blk.pend.length).setWidth 9, out := [byteOf (padTo8 s.blk.pend)] } := by
  simp [exec_flush hp, finalUsedOf, flushBytes, List.length_pos_iff.2 hne]

theorem exec_flush_of_empty (hnil : s.blk.pend = []) : exec .flush s = complete s
    { s.blk with finalUsed := if s.blk.bpAny then 8 else 0, fuValid := true, phase := .done }
    { Response.ok with val := if s.blk.bpAny then 8 else 0 } := by
  cases hany : s.blk.bpAny <;> simp [exec_flush hp, finalUsedOf, flushBytes, hnil, hany, Response.ok]

/-- With nothing pending the last byte, if there was one, is full (43 R193). -/
theorem flush_completes_of_empty (hnil : s.blk.pend = []) :
    ∃ t, Answers .flush s t .ok false (if s.blk.bpAny then 8 else 0) 0 [] ∧
      t.blk = { s.blk with finalUsed := if s.blk.bpAny then 8 else 0, fuValid := true, phase := .done } :=
  ⟨_, answers_of_complete (exec_flush_of_empty hp hnil), rfl⟩

end

theorem padTo8_length {p : Bits} (h : p.length ≤ 8) : (padTo8 p).length = 8 := by
  rw [padTo8, List.length_append, List.length_replicate]
  omega

/-- A number of pending bits fits `FINAL_USED` as well as `val` (30 R93, 43 R193). -/
theorem setWidth_ofNat_4_9 {n : Nat} (h : n ≤ 7) : (BitVec.ofNat 4 n).setWidth 9 = BitVec.ofNat 9 n := by
  apply BitVec.eq_of_toNat_eq
  simp only [BitVec.toNat_setWidth, BitVec.toNat_ofNat]
  omega

/-- Settles O46: the byte emitted is the padded pending bits, and what is counted is what was pending. -/
theorem flushEndsThePayload : Obligations.FlushEndsThePayload := by
  refine fun s hlen => ⟨by decide, fun hp => ⟨fun hne => ?_, fun hnil hany => ?_, fun hnil hany => ?_⟩,
    packer_outOfSequence rfl fun _ => rfl⟩
  · have hexec := exec_flush_of_pending hp hne
    rw [setWidth_ofNat_4_9 hlen] at hexec
    exact ⟨_, _, answers_of_complete hexec, bits8_byteOf _ (padTo8_length (by omega)), rfl⟩
  · simpa [hany] using flush_completes_of_empty hp hnil
  · simpa [hany] using flush_completes_of_empty hp hnil

end Sys2Proof.Machine
end

section
/-! PROOF. The unpacker: `UBEG` checks the table, `UNPK` decodes the byte held back, and `UFIN` decodes the used bits of the
last byte and reads no others (44 R210 to R217). -/

namespace Sys2Proof.Machine

/-! ## `UBEG` -/

section
variable {s : State} (hp : s.blk.phase = .idle ∨ s.blk.phase = .load)
include hp

theorem exec_ubeg_of_accepted (h : offender s.blk.ct = none) : exec .ubeg s = complete s
    { s.blk with path := [], hold := 0, holdValid := false, phase := .unpack }
    { Response.ok with val := val9 (codeCount s.blk.ct) } := by
  rw [exec_body rfl (by simpa [legalIn] using hp), bodyOf, h]

theorem exec_ubeg_of_rejected {x : Sym} (h : offender s.blk.ct = some x) :
    exec .ubeg s = takeFault 0x50 .malformedTable (leafHandle x) s := by
  rw [exec_body rfl (by simpa [legalIn] using hp), bodyOf, h]

end

/-- Settles O47: the search of `UBEG` finds nothing exactly in a prefix-free table, else the smallest symbol that offends. -/
theorem ubegAcceptsPrefixFreeTables : Obligations.UbegAcceptsPrefixFreeTables := by
  refine fun s => ⟨by decide, fun hp => ⟨fun hnone => ?_, fun x hx hmin => ?_⟩, fun hp => ?_⟩
  · have hans := answers_of_complete (exec_ubeg_of_accepted hp ((offender_none _).2 hnone))
    rw [codeCount_range] at hans
    exact ⟨_, hans, rfl, (prefixFree_iff _).2 hnone⟩
  · exact faults_of_takeFault rfl (exec_ubeg_of_rejected hp (offender_some hx hmin))
  · simp only [List.mem_cons, List.not_mem_nil, or_false, not_or] at hp
    obtain ⟨hidle, hload, hfault⟩ := hp
    exact exec_outOfSequence rfl (by simp [legalIn, hidle, hload]) hfault

/-! ## `UNPK` -/

/-- The word of a command whose one field is a byte (30 R91, R97). -/
theorem commandWord_byte (op : BitVec 8) (b : Byte) : commandWord op 0 b = op.setWidth 32 <<< 24 ||| b.setWidth 32 := by
  simp [commandWord]

/-- `UNPK` and `UFIN` are legal in `UNPACK` alone (10 R47). -/
theorem unpacker_outOfSequence {i : Instr} {s : State} (hw : i.wellFormed = true) (hl : ∀ p, legalIn i p = (p == .unpack))
    (hp : s.blk.phase ∉ [.unpack, .fault]) : OutOfSequence i i.op s := by
  simp only [List.mem_cons, List.not_mem_nil, or_false, not_or] at hp
  obtain ⟨hunpack, hfault⟩ := hp
  exact exec_outOfSequence hw (by simp [hl, hunpack]) hfault

section
variable {s : State} (hp : s.blk.phase = .unpack)
include hp

theorem exec_unpk_of_unheld (b : Byte) (hv : s.blk.holdValid = false) :
    exec (.unpk b) s = holdByte b s.blk.path [] s := by
  rw [exec_body rfl (by rw [hp]; rfl), bodyOf, if_neg (by simp [hv])]

section
variable (hv : s.blk.holdValid = true)
include hv

theorem exec_unpk_of_decoded (b : Byte) {p : Bits} {o : List Byte}
    (hd : decodeBits s.blk.ct s.blk.path (bits8 s.blk.hold) = some (p, o)) : exec (.unpk b) s = holdByte b p o s := by
  rw [exec_body rfl (by rw [hp]; rfl), bodyOf, if_pos hv, hd]

theorem exec_unpk_of_undecoded (b : Byte) (hd : decodeBits s.blk.ct s.blk.path (bits8 s.blk.hold) = none) :
    exec (.unpk b) s = takeFault 0x51 .invalidCode (byteCtx s.blk.hold) s := by
  rw [exec_body rfl (by rw [hp]; rfl), bodyOf, if_pos hv, hd]

end

end

/-- Settles O48: over a prefix-free table the loop over the held byte is the relation of 44 R213. -/
theorem unpkDecodesTheHeldByte : Obligations.UnpkDecodesTheHeldByte := by
  refine fun s b hpf => ⟨commandWord_byte 0x51 b, fun hp => ⟨fun hv => ?_, fun hv p o hd => ?_, fun hv hd => ?_⟩,
    unpacker_outOfSequence rfl fun _ => rfl⟩
  · exact ⟨_, answers_of_complete (exec_unpk_of_unheld hp b hv), rfl⟩
  · exact ⟨_, answers_of_complete (exec_unpk_of_decoded hp hv b ((decodeBits_iff hpf _ _ _ _).2 hd)), rfl⟩
  · exact faults_of_takeFault rfl (exec_unpk_of_undecoded hp hv b ((decodeBits_none hpf _ _).2 hd))

/-! ## `UFIN` -/

section
variable {s : State} (hp : s.blk.phase = .unpack)
include hp

theorem exec_ufin_of_unheld (hv : s.blk.holdValid = false) : exec (.ufin 0) s = finishUnpack [] s := by
  rw [exec_body rfl (by rw [hp]; rfl), bodyOf, if_pos hv, if_neg (by simp)]

theorem exec_ufin_of_badCount {u : Byte}
    (h : s.blk.holdValid = false ∧ u ≠ 0 ∨ s.blk.holdValid = true ∧ (u = 0 ∨ 8 < u.toNat)) :
    exec (.ufin u) s = takeFault 0x52 .badFraming (byteCtx u) s := by
  rw [exec_body rfl (by rw [hp]; rfl), bodyOf]
  rcases h with ⟨hv, hu⟩ | ⟨hv, hu⟩
  · rw [if_pos hv, if_pos hu]
  · rw [if_neg (by simp [hv]), if_pos hu]

section
variable {u : Byte} (hv : s.blk.holdValid = true) (hu : ¬ (u = 0 ∨ 8 < u.toNat))
include hv hu

theorem exec_ufin_of_undecoded (hd : decodeBits s.blk.ct s.blk.path ((bits8 s.blk.hold).take u.toNat) = none) :
    exec (.ufin u) s = takeFault 0x52 .invalidCode (byteCtx s.blk.hold) s := by
  rw [exec_body rfl (by rw [hp]; rfl), bodyOf, if_neg (by simp [hv]), if_neg hu, hd]

theorem exec_ufin_of_unfinished {p : Bits} {o : List Byte} (hne : p ≠ [])
    (hd : decodeBits s.blk.ct s.blk.path ((bits8 s.blk.hold).take u.toNat) = some (p, o)) :
    exec (.ufin u) s = takeFault 0x52 .truncatedPayload (val9 p.length) s := by
  rw [exec_body rfl (by rw [hp]; rfl), bodyOf, if_neg (by simp [hv]), if_neg hu, hd]
  exact if_pos hne

theorem exec_ufin_of_decoded {o : List Byte}
    (hd : decodeBits s.blk.ct s.blk.path ((bits8 s.blk.hold).take u.toNat) = some ([], o)) :
    exec (.ufin u) s = finishUnpack o s := by
  rw [exec_body rfl (by rw [hp]; rfl), bodyOf, if_neg (by simp [hv]), if_neg hu, hd]
  exact if_neg (fun h => h rfl)

end

end

/-- Settles O49: after the checks of the count, what the loop over the used bits gives decides between the three ends. -/
theorem ufinDecodesTheUsedBits : Obligations.UfinDecodesTheUsedBits := by
  refine fun s u hpf => ⟨commandWord_byte 0x52 u, fun hp => ⟨fun hv hu => ?_, fun h => ?_, fun hv hpos hle => ?_⟩,
    unpacker_outOfSequence rfl fun _ => rfl⟩
  · subst hu
    exact ⟨_, answers_of_complete (exec_ufin_of_unheld hp hv), rfl⟩
  · exact faults_of_takeFault rfl (exec_ufin_of_badCount hp h)
  · have hu : ¬ (u = 0 ∨ 8 < u.toNat) := not_or.2 ⟨hpos, Nat.not_lt.2 hle⟩
    refine ⟨fun o hd => ?_, fun p o hd hne => ?_, fun hd => ?_⟩
    · exact ⟨_, answers_of_complete (exec_ufin_of_decoded hp hv hu ((decodeBits_iff hpf _ _ _ _).2 hd)), rfl⟩
    · exact faults_of_takeFault rfl (exec_ufin_of_unfinished hp hv hu hne ((decodeBits_iff hpf _ _ _ _).2 hd))
    · exact faults_of_takeFault rfl (exec_ufin_of_undecoded hp hv hu ((decodeBits_none hpf _ _).2 hd))

/-! ## The padding -/

theorem not_done_of_takeFault {op : BitVec 8} {k : FaultKind} {ctx : BitVec 9} {s t : State}
    (h : takeFault op k ctx s = .next t) : t.blk.phase ≠ .done := by
  rw [blk_of_takeFault h]
  exact nofun

/-- `UFIN` ends a session only in `UNPACK` (10 R47). -/
theorem unpack_of_ufin_done {u : Byte} {s t : State} (h : exec (.ufin u) s = .next t) (hd : t.blk.phase = .done) :
    s.blk.phase = .unpack := by
  cases exec_ends h with
  | aborted hf hb => rw [hb, hf] at hd; cases hd
  | faulted _ _ _ _ hb => rw [hb] at hd; cases hd
  | completed hl _ => simpa [legalIn] using hl

/-- Where `UFIN` ends a session with a byte held, the count is right and the used bits of that byte lead back to the root
(44 R216). -/
theorem decoded_of_ufin_done {u : Byte} {s t : State} (hv : s.blk.holdValid = true) (h : exec (.ufin u) s = .next t)
    (hd : t.blk.phase = .done) : ¬ (u = 0 ∨ 8 < u.toNat) ∧
      ∃ o, decodeBits s.blk.ct s.blk.path ((bits8 s.blk.hold).take u.toNat) = some ([], o) := by
  have hp := unpack_of_ufin_done h hd
  have hnofault {k : FaultKind} {ctx : BitVec 9} (e : exec (.ufin u) s = takeFault 0x52 k ctx s) : False :=
    not_done_of_takeFault (e.symm.trans h) hd
  by_cases hu : u = 0 ∨ 8 < u.toNat
  · exact (hnofault (exec_ufin_of_badCount hp (.inr ⟨hv, hu⟩))).elim
  · refine ⟨hu, ?_⟩
    cases hdec : decodeBits s.blk.ct s.blk.path ((bits8 s.blk.hold).take u.toNat) with
    | none => exact (hnofault (exec_ufin_of_undecoded hp hv hu hdec)).elim
    | some r =>
      obtain ⟨p, o⟩ := r
      by_cases hnil : p = []
      · exact ⟨o, by rw [hnil]⟩
      · exact (hnofault (exec_ufin_of_unfinished hp hv hu hnil hdec)).elim

/-- Settles O50: a session ends by the used bits alone, and the state it ends in holds no byte. -/
theorem paddingIsNotRead : Obligations.PaddingIsNotRead := by
  intro s t u b hv hbits h hd
  have hp := unpack_of_ufin_done h hd
  obtain ⟨hu, o, hdec⟩ := decoded_of_ufin_done hv h hd
  rw [exec_ufin_of_decoded hp hv hu hdec] at h
  rw [← hbits] at hdec
  rw [exec_ufin_of_decoded (s := { s with blk := { s.blk with hold := b } }) hp hv hu hdec]
  exact h

end Sys2Proof.Machine
end

section
/-! PROOF. The round trip: what a source's session leaves on the `out` port is read back, with its table and its used-bit
count, as the source (44 R221). -/

namespace Sys2Proof.Machine

/-! ## Sequences of commands -/

theorem execAll_append {is : List Instr} {s t : State} (h : execAll is s = some t) (js : List Instr) :
    execAll (is ++ js) s = execAll js t := by
  induction is generalizing s with
  | nil => cases h; rfl
  | cons i is ih =>
    simp only [List.cons_append, execAll] at h ⊢
    split at h
    · exact ih h
    · cases h
    · cases h

/-- What each command of a sequence keeps, the sequence keeps. -/
theorem execAll_keeps {P : State → Prop} {is : List Instr} {s u : State}
    (hstep : ∀ i ∈ is, ∀ s t, P s → exec i s = .next t → P t) (hs : P s) (h : execAll is s = some u) : P u := by
  induction is generalizing s with
  | nil => cases h; exact hs
  | cons i is ih =>
    obtain ⟨hi, his⟩ := List.forall_mem_cons.1 hstep
    simp only [execAll] at h
    split at h
    · exact ih his (hi _ _ hs ‹_›) h
    · cases h
    · cases h

theorem execAll_inv {is : List Instr} {s u : State} (hs : s.Inv) (h : execAll is s = some u) : u.Inv :=
  execAll_keeps (fun _ _ _ _ => exec_inv) hs h

theorem outStream_of_exec {i : Instr} {s t : State} (hs : s.Inv) (hi : emitBound i = 0) (h : exec i s = .next t) :
    t.outStream = s.outStream := by
  obtain ⟨-, -, r, hr⟩ := exec_next_ports h
  have hout : r.out = [] := by
    rcases out_of_exec hs h hr with hnil | ⟨hemit, -⟩
    · exact hnil
    · exact out_eq_nil_of_emitsAtMost (hi ▸ hemit) h hr
  simp [State.outStream, hr, hout]

/-- Commands that are none of `PACK`, `FLUSH`, `UNPK` and `UFIN` emit nothing. -/
theorem outStream_of_execAll {is : List Instr} {s u : State} (hs : s.Inv) (his : ∀ i ∈ is, emitBound i = 0)
    (h : execAll is s = some u) : u.outStream = s.outStream := by
  have hkeep := execAll_keeps (P := fun t => t.Inv ∧ t.outStream = s.outStream)
    (fun i hi t t' ht he => ⟨exec_inv ht.1 he, (outStream_of_exec ht.1 (his i hi) he).trans ht.2⟩) ⟨hs, rfl⟩ h
  exact hkeep.2

/-! ## Decoding a sequence of codes -/

theorem bitsOf_append (l l' : List Byte) : bitsOf (l ++ l') = bitsOf l ++ bitsOf l' := List.flatMap_append

theorem bitsOf_singleton (b : Byte) : bitsOf [b] = bits8 b := List.flatMap_singleton bits8 b

/-- Bits may be fed in pieces: the second piece from where the first one ends (44 R213, R218). -/
theorem decodeBits_append (ct : Vector CodeEntry 256) (p q q' : Bits) : decodeBits ct p (q ++ q') =
    (decodeBits ct p q).bind fun r => (decodeBits ct r.1 q').map fun r' => (r'.1, r.2 ++ r'.2) := by
  induction q generalizing p with
  | nil => simp [decodeBits]
  | cons b q ih =>
    simp only [List.cons_append, decodeBits]
    split
    · rw [ih]
      cases decodeBits ct [] q <;> simp [Function.comp_def]
    · split
      · exact ih _
      · rfl

/-- A decode of all bits decodes the first ones. -/
theorem decodeBits_prefix {ct : Vector CodeEntry 256} {p q q' : Bits} {r : Bits × List Byte}
    (h : decodeBits ct p (q ++ q') = some r) : ∃ r', decodeBits ct p q = some r' := by
  rw [decodeBits_append, Option.bind_eq_some_iff] at h
  obtain ⟨r', hr', -⟩ := h
  exact ⟨r', hr'⟩

section
variable {ct : Vector CodeEntry 256} (hpf : PrefixFree ct)
include hpf

/-- Inside a code the position is no leaf: the code would have another as a prefix (44 R213). -/
theorem leafAt_inside {x : Sym} {p q : Bits} (hv : (symGet ct x).valid = true) (hx : (symGet ct x).bits = p ++ q)
    (hq : q ≠ []) : leafAt ct p = none := by
  rw [leafAt_none]
  rintro t ht rfl
  have htx : t ≠ x := by
    rintro rfl
    exact hq (List.append_cancel_left (hx.symm.trans (List.append_nil _).symm))
  exact hpf t x htx ht hv ⟨q, hx.symm⟩

/-- What is left of a code leads to its symbol (44 R213). -/
theorem decodeBits_rest {x : Sym} {p q : Bits} (hv : (symGet ct x).valid = true) (hx : (symGet ct x).bits = p ++ q)
    (hq : q ≠ []) : decodeBits ct p q = some ([], [x]) := by
  induction q generalizing p with
  | nil => exact absurd rfl hq
  | cons b q ih =>
    have hx' : (symGet ct x).bits = (p ++ [b]) ++ q := by simp [hx]
    rw [decodeBits]
    by_cases hnil : q = []
    · subst hnil
      rw [leafAt_eq hpf hv hx]
      rfl
    · rw [leafAt_inside hpf hv hx' hnil, if_pos (onPath_iff.2 ⟨x, hv, q, hx'.symm⟩)]
      exact ih hx' hnil

/-- The concatenated codes of symbols decode to the symbols, by induction on their number (44 R221). -/
theorem decodeBits_codes {src : List Sym} (htable : TableOk ct) (hv : ∀ x ∈ src, (symGet ct x).valid = true) :
    decodeBits ct [] (src.flatMap fun x => (symGet ct x).bits) = some ([], src) := by
  induction src with
  | nil => rfl
  | cons x src ih =>
    obtain ⟨hx, hsrc⟩ := List.forall_mem_cons.1 hv
    obtain ⟨hpos, hlen⟩ := (htable x).2 hx
    have hne : (symGet ct x).bits ≠ [] := List.length_pos_iff.1 (by omega)
    rw [List.flatMap_cons, decodeBits_append, decodeBits_rest hpf hx rfl hne]
    simp [ih hsrc]

end

/-! ## The payload -/

/-- The bit sequence `w` is the payload `bytes` but for the padding: `used` bits of the last byte, and all bits of those
before it; for the empty sequence no byte and the count 0 (43 R194, R198). -/
def Frames (w : Bits) (bytes : List Byte) (used : Byte) : Prop :=
  w = [] ∧ bytes = [] ∧ used = 0 ∨
    ∃ l b, bytes = l ++ [b] ∧ ¬ (used = 0 ∨ 8 < used.toNat) ∧ w = bitsOf l ++ (bits8 b).take used.toNat

/-! ## The session that encodes -/

/-- Counting a source whose counts fit adds to each counter the number of its symbol (40 R130). -/
theorem execAll_accs {src : List Sym} {s : State} (hp : s.blk.phase = .idle ∨ s.blk.phase = .count)
    (hfit : ∀ x, s.blk.freqAt x + src.count x < 2 ^ s.cfg.cntW) :
    ∃ u, execAll (src.map .acc) s = some u ∧ (u.blk.phase = .idle ∨ u.blk.phase = .count) ∧
      ∀ x, u.blk.freqAt x = s.blk.freqAt x + src.count x := by
  induction src generalizing s with
  | nil => exact ⟨s, rfl, hp, fun _ => rfl⟩
  | cons x src ih =>
    have hx := hfit x
    rw [List.count_cons_self] at hx
    obtain ⟨t, ⟨ht, hcfg, -⟩, he⟩ := adds_completes (adds_acc x) hp (by omega)
    have hcount (y : Sym) : t.blk.freqAt y + src.count y = s.blk.freqAt y + (x :: src).count y := by
      rw [freqAt_of_countEffect he, List.count_cons]
      by_cases hy : y = x
      · simp [hy, Nat.add_assoc, Nat.add_comm 1]
      · simp [hy, Ne.symm hy]
    obtain ⟨u, hu, hup, hfreq⟩ := ih (s := t) (.inr (by rw [he.2])) fun y => by
      rw [hcount, hcfg]; exact hfit y
    exact ⟨u, (execAll_cons ht _).trans hu, hup, fun y => (hfreq y).trans (hcount y)⟩

/-- Packing stays in the packing phases, and `BP_ANY` says whether a byte has been emitted (10 R32, 43 R190). -/
theorem execAll_packs {src : List Sym} {s : State} (hp : s.blk.phase = .code ∨ s.blk.phase = .pack)
    (hv : ∀ x ∈ src, (s.blk.ctAt x).valid = true) (hany : s.blk.bpAny = true ↔ s.outStream ≠ []) :
    ∃ u, execAll (src.map .pack) s = some u ∧ (u.blk.phase = .code ∨ u.blk.phase = .pack) ∧
      (u.blk.bpAny = true ↔ u.outStream ≠ []) := by
  induction src generalizing s with
  | nil => exact ⟨s, rfl, hp, hany⟩
  | cons x src ih =>
    obtain ⟨hvx, hv⟩ := List.forall_mem_cons.1 hv
    obtain ⟨t, out, hans, hframe, -, -, hbp⟩ := pack_completes hp hvx
    have hct : t.blk.ct = s.blk.ct := by rw [hframe]
    have hanyt : t.blk.bpAny = true ↔ t.outStream ≠ [] := by
      rw [hbp, hany, outStream_of_answers hans, ne_eq, ne_eq, ne_eq, List.append_eq_nil_iff, not_and_or]
    obtain ⟨u, hu, hend⟩ := ih (.inr (by rw [hframe])) (by simpa only [Block.ctAt, hct] using hv) hanyt
    exact ⟨u, (execAll_cons hans.1 _).trans hu, hend⟩

/-- `FLUSH` makes of the bytes emitted and the bits pending a payload, and of `FINAL_USED` its used-bit count (43 R193,
R194). -/
theorem flush_frames {s : State} (hp : s.blk.phase = .code ∨ s.blk.phase = .pack) (hlen : s.blk.pend.length ≤ 7)
    (hany : s.blk.bpAny = true ↔ s.outStream ≠ []) :
    ∃ t, exec .flush s = .next t ∧ t.blk.phase = .done ∧ t.blk.ct = s.blk.ct ∧
      Frames (bitsOf s.outStream ++ s.blk.pend) t.outStream (t.blk.finalUsed.setWidth 8) := by
  obtain ⟨-, hflush, -⟩ := flushEndsThePayload s hlen
  obtain ⟨hpending, hfull, hempty⟩ := hflush hp
  by_cases hnil : s.blk.pend = []
  · cases hb : s.blk.bpAny with
    | false =>
      obtain ⟨t, hans, hblk⟩ := hempty hnil hb
      have hout : s.outStream = [] := by
        by_contra hne
        rw [hany.2 hne] at hb
        cases hb
      refine ⟨t, hans.1, by rw [hblk], by rw [hblk], .inl ?_⟩
      rw [outStream_of_answers hans, hblk, hout, hnil]
      exact ⟨rfl, rfl, rfl⟩
    | true =>
      obtain ⟨t, hans, hblk⟩ := hfull hnil hb
      refine ⟨t, hans.1, by rw [hblk], by rw [hblk], .inr ?_⟩
      obtain ⟨l, b, hl⟩ := (List.eq_nil_or_concat' s.outStream).resolve_left (hany.1 hb)
      refine ⟨l, b, by rw [outStream_of_answers hans, hl, List.append_nil], by simp [hblk], ?_⟩
      have htake : (bits8 b).take 8 = bits8 b := List.take_of_length_le (bits8_length b).le
      rw [hblk, hl, hnil, List.append_nil, bitsOf_append, bitsOf_singleton]
      exact congrArg _ htake.symm
  · obtain ⟨t, b, hans, hbits, hblk⟩ := hpending hnil
    have hpos := List.length_pos_iff.2 hnil
    have hused : (t.blk.finalUsed.setWidth 8).toNat = s.blk.pend.length := by
      rw [hblk, BitVec.toNat_setWidth, BitVec.toNat_ofNat]
      omega
    refine ⟨t, hans.1, by rw [hblk], by rw [hblk], .inr ⟨_, b, outStream_of_answers hans, ?_, ?_⟩⟩
    · rintro (hz | hlt)
      · rw [hz] at hused
        exact hpos.ne hused
      · omega
    · rw [hused, hbits, List.take_left]

/-- A source whose counts fit is counted, and after `BUILD` and `GEN` the packer stands at its start and every symbol of the
source has a code (42 R174). -/
theorem codes_of_source {cfg : Config} {src : List Byte} (hc : cfg.wf) (hfit : ∀ x, src.count x < 2 ^ cfg.cntW) :
    ∃ s, execAll (src.map .acc ++ [.build, .gen]) (State.resetWith cfg) = some s ∧ s.blk.phase = .code ∧
      s.outStream = [] ∧ s.blk.pend = [] ∧ s.blk.bpAny = false ∧ ∀ x ∈ src, (s.blk.ctAt x).valid = true := by
  have hreset := resetMeetsTheInvariant cfg hc
  obtain ⟨t, hacc, hpt, hfreq⟩ := execAll_accs (src := src) (s := State.resetWith cfg) (.inl rfl) (by simpa using hfit)
  obtain ⟨s, hgen, hp, hcoded, -⟩ := everyCountedSymbolHasACode t hpt
  have hrun := (execAll_append hacc _).trans hgen
  have hlive := live_of_inv (execAll_inv hreset hrun).2 (by simp [hp])
  have hshape := hlive.shape
  rw [SessionShape, hp] at hshape
  refine ⟨s, hrun, hp, outStream_of_execAll hreset (by simp [emitBound, or_imp, forall_and]) hrun, by rw [hshape]; rfl,
    by rw [hshape]; rfl, fun x hx => ?_⟩
  rw [hcoded, hfreq]
  exact Nat.ne_of_gt (Nat.add_pos_right _ (List.count_pos_iff.2 hx))

/-- The session over a source ends, and its payload frames the concatenated codes of the source (43 R198). -/
theorem encodeSession_frames {cfg : Config} {src : List Byte} (hc : cfg.wf) (hfit : ∀ x, src.count x < 2 ^ cfg.cntW) :
    ∃ u, execAll (encodeSession src) (State.resetWith cfg) = some u ∧ u.blk.phase = .done ∧
      (∀ x ∈ src, (u.blk.ctAt x).valid = true) ∧
      Frames (src.flatMap fun x => (u.blk.ctAt x).bits) u.outStream (u.blk.finalUsed.setWidth 8) := by
  obtain ⟨s, hcode, hp, hout, hpend, hbp, hv⟩ := codes_of_source hc hfit
  obtain ⟨t, hpack, hpt, hany⟩ := execAll_packs (.inl hp) hv (by simp [hbp, hout])
  obtain ⟨t', out, hpack', -, hstream, hbits, hct, hshort⟩ := packIsASequentialFold s src (.inl hp) hv
  cases hpack.symm.trans hpack'
  have hlt : t.blk.pend.length < 8 := hshort (by simp [hpend])
  obtain ⟨u, hflush, hdone, hctu, hframes⟩ := flush_frames hpt (Nat.le_of_lt_succ hlt) hany
  have hget : u.blk.ctAt = s.blk.ctAt := by simp only [funext_iff, Block.ctAt, hctu, hct, implies_true]
  refine ⟨u, ?_, hdone, by rwa [hget], ?_⟩
  · exact (execAll_append ((execAll_append hcode _).trans hpack) _).trans (execAll_cons hflush [])
  · rw [hstream, hout, List.nil_append, hbits, hpend, List.nil_append] at hframes
    rwa [hget]

/-! ## The session that decodes -/

/-- `s` is the unpacking session over the table `ct` after the bytes `l`: the last of them is held, the others are decoded
(44 R214). -/
structure Unpacked (ct : Vector CodeEntry 256) (l : List Byte) (s : State) : Prop where
  phase : s.blk.phase = .unpack
  table : s.blk.ct = ct
  held : l.getLast? = if s.blk.holdValid then some s.blk.hold else none
  decoded : decodeBits ct [] (bitsOf l.dropLast) = some (s.blk.path, s.outStream)

/-- Loading a legal prefix-free table and `UBEG` open the session (42 R180, 44 R210). -/
theorem unpacked_nil_of_load {cfg : Config} {ct : Vector CodeEntry 256} (hc : cfg.wf) (htable : TableOk ct)
    (hpf : PrefixFree ct) : ∃ t, execAll (loadTable ct ++ [.ubeg]) (State.resetWith cfg) = some t ∧ Unpacked ct [] t := by
  obtain ⟨s, hload, -, hct⟩ := loadingATableRestoresIt cfg ct htable
  obtain ⟨s', hload', hp, -⟩ := execAll_loads htable (allSyms_nodup.filter fun x => (symGet ct x).valid)
    (fun x hx => (List.mem_filter.1 hx).2) (s := State.resetWith cfg) (.inl rfl) (fun x _ => by simp [CodeEntry.none])
  cases hload.symm.trans hload'
  obtain ⟨-, hubeg, -⟩ := ubegAcceptsPrefixFreeTables s
  obtain ⟨hok, -⟩ := hubeg hp
  obtain ⟨t, hans, hblk, -⟩ := hok ((prefixFree_iff _).1 (hct.symm ▸ hpf))
  have hout : s.outStream = [] :=
    outStream_of_execAll (resetMeetsTheInvariant cfg hc) (by simp [loadTable, emitBound]) hload
  have houtt : t.outStream = [] := (outStream_of_answers hans).trans (by rw [hout]; rfl)
  refine ⟨t, (execAll_append hload _).trans (execAll_cons hans.1 _), ?_⟩
  exact { phase := by rw [hblk]
          table := by rw [hblk, ← hct]
          held := by rw [hblk]; rfl
          decoded := by rw [hblk, houtt]; rfl }

section
variable {ct : Vector CodeEntry 256} {l : List Byte} {s : State} (hs : Unpacked ct l s)
include hs

/-- No byte has been given, or the last one is held. -/
theorem unheld_or_held : l = [] ∧ s.blk.holdValid = false ∨ l = l.dropLast ++ [s.blk.hold] ∧ s.blk.holdValid = true := by
  have hheld := hs.held
  cases hv : s.blk.holdValid with
  | false => exact .inl ⟨by simpa [hv] using hheld, rfl⟩
  | true =>
    rw [hv, if_pos rfl] at hheld
    exact .inr ⟨(List.dropLast_append_getLast? _ hheld).symm, rfl⟩

/-- One byte more, where the bits of the bytes so far lead somewhere (44 R212). -/
theorem unpacked_concat (b : Byte) {r : Bits × List Byte} (hd : decodeBits ct [] (bitsOf l) = some r) :
    ∃ t, exec (.unpk b) s = .next t ∧ Unpacked ct (l ++ [b]) t := by
  have hlast : (l ++ [b]).getLast? = some b := List.getLast?_concat
  rcases unheld_or_held hs with ⟨rfl, hv⟩ | ⟨hl, hv⟩
  · refine ⟨_, exec_unpk_of_unheld hs.phase b hv, hs.phase, hs.table, hlast, ?_⟩
    simpa [State.outStream] using hs.decoded
  · have hsplit := hd
    rw [hl, bitsOf_append, bitsOf_singleton, decodeBits_append, hs.decoded, Option.bind_some,
      Option.map_eq_some_iff] at hsplit
    obtain ⟨⟨p, o⟩, hdec, rfl⟩ := hsplit
    refine ⟨_, exec_unpk_of_decoded hs.phase hv b (hs.table.symm ▸ hdec), hs.phase, hs.table, hlast, ?_⟩
    rw [List.dropLast_concat, hd]
    simp [State.outStream]

/-- The end of the payload, where its used bits lead back to the root (44 R215). -/
theorem finish_of_frames {w : Bits} {used : Byte} {o : List Byte} (hw : Frames w l used)
    (hd : decodeBits ct [] w = some ([], o)) :
    ∃ t, exec (.ufin used) s = .next t ∧ t.blk.phase = .done ∧ t.outStream = o := by
  rcases hw with ⟨rfl, rfl, rfl⟩ | ⟨l, b, rfl, hu, rfl⟩
  · obtain ⟨-, hv⟩ := (unheld_or_held hs).resolve_right (by simp)
    have hans := answers_of_complete (exec_ufin_of_unheld hs.phase hv)
    refine ⟨_, hans.1, rfl, (outStream_of_answers hans).trans ?_⟩
    have hsame := hs.decoded.symm.trans hd
    simp only [Option.some.injEq, Prod.mk.injEq] at hsame
    exact (List.append_nil _).trans hsame.2
  · obtain ⟨hl, hv⟩ := (unheld_or_held hs).resolve_left (by simp)
    have hb : b = s.blk.hold := by simpa using hl
    have hdec := hs.decoded
    rw [List.dropLast_concat] at hdec
    rw [decodeBits_append, hdec, Option.bind_some, Option.map_eq_some_iff, hb] at hd
    obtain ⟨⟨p, o'⟩, hrest, he⟩ := hd
    simp only [Prod.mk.injEq] at he
    obtain ⟨rfl, rfl⟩ := he
    have hans := answers_of_complete (exec_ufin_of_decoded hs.phase hv hu (hs.table.symm ▸ hrest))
    exact ⟨_, hans.1, rfl, outStream_of_answers hans⟩

end

/-- Unpacking bytes whose bits lead somewhere goes on to their end, by induction on the bytes (44 R218). -/
theorem execAll_unpks {ct : Vector CodeEntry 256} {l l' : List Byte} {s : State} (hs : Unpacked ct l s)
    {r : Bits × List Byte} (hd : decodeBits ct [] (bitsOf (l ++ l')) = some r) :
    ∃ t, execAll (l'.map .unpk) s = some t ∧ Unpacked ct (l ++ l') t := by
  induction l' generalizing l s with
  | nil => exact ⟨s, rfl, by rwa [List.append_nil]⟩
  | cons b l' ih =>
    obtain ⟨r', hr'⟩ := decodeBits_prefix (by rwa [bitsOf_append] at hd)
    obtain ⟨t, ht, hnext⟩ := unpacked_concat hs b hr'
    rw [List.append_cons] at hd ⊢
    obtain ⟨u, hu, hend⟩ := ih hnext hd
    exact ⟨u, (execAll_cons ht _).trans hu, hend⟩

/-- All bytes of a payload are taken: the bits of all but the last, which is held back, are among those it frames (44 R214). -/
theorem execAll_unpks_of_frames {ct : Vector CodeEntry 256} {w : Bits} {bytes : List Byte} {used : Byte} {s : State}
    (hs : Unpacked ct [] s) (hw : Frames w bytes used) {r : Bits × List Byte} (hd : decodeBits ct [] w = some r) :
    ∃ t, execAll (bytes.map .unpk) s = some t ∧ Unpacked ct bytes t := by
  rcases hw with ⟨-, rfl, -⟩ | ⟨l, b, rfl, -, rfl⟩
  · exact ⟨s, rfl, hs⟩
  · obtain ⟨r', hr'⟩ := decodeBits_prefix hd
    obtain ⟨t, ht, hlast⟩ := execAll_unpks hs hr'
    obtain ⟨u, hu, hend⟩ := unpacked_concat hlast b hr'
    rw [List.map_append]
    exact ⟨u, (execAll_append ht _).trans (execAll_cons hu _), hend⟩

/-- The session over a table and a payload emits what the payload's bits decode to (44 R221). -/
theorem decodeSession_emits {cfg : Config} {ct : Vector CodeEntry 256} (hc : cfg.wf) (htable : TableOk ct)
    (hpf : PrefixFree ct) {w : Bits} {bytes src : List Byte} {used : Byte} (hw : Frames w bytes used)
    (hd : decodeBits ct [] w = some ([], src)) :
    ∃ v, execAll (decodeSession ct bytes used) (State.resetWith cfg) = some v ∧ v.blk.phase = .done ∧
      v.outStream = src := by
  obtain ⟨s, hs, hbegin⟩ := unpacked_nil_of_load hc htable hpf
  obtain ⟨t, ht, hall⟩ := execAll_unpks_of_frames hbegin hw hd
  obtain ⟨v, hv, hend⟩ := finish_of_frames hall hw hd
  exact ⟨v, (execAll_append ((execAll_append hs _).trans ht) _).trans (execAll_cons hv _), hend⟩

/-- Settles O55: the payload frames the concatenated codes of the source, and these decode to the source over the table, which
is prefix-free after the encoding session. -/
theorem decodingAnEncodedSourceGivesItBack : Obligations.DecodingAnEncodedSourceGivesItBack := by
  intro cfg src hc hfit
  obtain ⟨u, hu, hdone, hv, hw⟩ := encodeSession_frames hc hfit
  have hlive := live_of_inv (execAll_inv (resetMeetsTheInvariant cfg hc) hu).2 (by simp [hdone])
  have hpf := hlive.codes (.inr (.inr (.inr hdone)))
  obtain ⟨v, hrun, hvdone, hout⟩ := decodeSession_emits hc hlive.table hpf hw (decodeBits_codes hpf hlive.table hv)
  exact ⟨u, v, hu, hdone, hrun, hvdone, hout⟩

end Sys2Proof.Machine
end

section
/-! PROOF. The system commands `NOP` and `CLR`: both are legal in every phase, and each has one word (45 R231, R232). -/

namespace Sys2Proof

/-- The words of opcode 0 that decode: the word 0 alone (45 R231). -/
theorem cmd_eq_zero_of_decode {c : Command} {i : Instr} (h : decode c = .ok i) (hop : c.op = 0) : c.cmd = 0 := by
  obtain ⟨o, hform, -⟩ := decode_ok_iff.1 h
  obtain ⟨hcode, -⟩ := (mask_iff o c).1 hform
  obtain rfl : o = .nop := code_inj (hcode.symm.trans hop)
  exact BitVec.and_allOnes.symm.trans hform

end Sys2Proof

namespace Sys2Proof.Machine

/-- The reset values of 10 R54. -/
theorem cleared_reset : Cleared Block.reset where
  phase := reset_phase
  freq := reset_freqAt
  node := reset_nodeAt
  root := reset_root
  nsym := reset_nsym
  ct := reset_ctAt
  pend := reset_pend
  bpAny := reset_bpAny
  finalUsed := reset_finalUsed
  fuValid := reset_fuValid
  path := reset_path
  hold := reset_hold
  holdValid := reset_holdValid
  err := reset_err

theorem exec_clr (s : State) : exec .clr s = complete s Block.reset Response.ok :=
  exec_body rfl rfl

theorem exec_nop (s : State) : exec .nop s = complete s s.blk Response.ok :=
  exec_body rfl rfl

/-- Settles O18: `CLR` completes on the very block that reset starts from, and that block is cleared. -/
theorem resetAndClrClearEverything : Obligations.ResetAndClrClearEverything :=
  ⟨fun _ => cleared_reset, rfl, fun s => ⟨_, answers_of_complete (exec_clr s), cleared_reset, rfl⟩⟩

/-- Settles O19: `NOP` completes on the block as it stands, and no other word of its opcode decodes. -/
theorem nopDoesNothing : Obligations.NopDoesNothing := by
  refine ⟨rfl, fun s => ⟨_, answers_of_complete (exec_nop s), rfl⟩, fun c hop hne => ?_⟩
  cases hd : decode c with
  | ok i => exact absurd (cmd_eq_zero_of_decode hd hop) hne
  | error e => exact ⟨e, rfl⟩

end Sys2Proof.Machine
end

section
/-! PROOF. The port without a command, the fault entry, the one way out of `FAULT`, and the commands that only read (60 R250 to
R263). -/

namespace Sys2Proof.Machine

/-! ## No command -/

theorem nextCommand_of_cmdq_nil {s : State} (hq : s.cmdq = []) : nextCommand s = none := by
  simp only [nextCommand, hq]

/-- Settles O6: an empty port yields no command, and the step is the idle one. -/
theorem noCommandKeepsTheState : Obligations.NoCommandKeepsTheState := by
  intro s hq
  simp only [step, nextCommand_of_cmdq_nil hq, idleStep]

/-! ## The fault entry -/

theorem response_of_complete {s t : State} {b : Block} {r r' : Response} (h : complete s b r = .next t)
    (hr : t.rsps = s.rsps ++ [r']) : r = r' := by
  cases h
  simpa using hr

/-- A command answers with a fault status only where it takes the fault entry, outside `FAULT` (60 R250, R253). -/
theorem exec_of_faultStatus {i : Instr} {s t : State} {r : Response} {k : FaultKind} (h : exec i s = .next t)
    (hr : t.rsps = s.rsps ++ [r]) (hk : r.status = .fault k) :
    s.blk.phase ≠ .fault ∧ ∃ ctx, r = Response.ofFault k ctx ∧ exec i s = takeFault i.op k ctx s := by
  rcases exec_cases i s t h with ⟨-, -, e⟩ | ⟨hp, k', ctx, e⟩ | ⟨-, -, -, b, r', e, hok, -⟩ <;>
    obtain rfl := response_of_complete (e.symm.trans h) hr
  · cases hk
  · cases hk
    exact ⟨hp, ctx, rfl, e⟩
  · rcases hok with hok | hok <;> cases hok.symm.trans hk

/-- Settles O13: such a command takes the fault entry, which writes `ERR` and `PHASE`. -/
theorem faultEntryWritesErrAndPhaseOnly : Obligations.FaultEntryWritesErrAndPhaseOnly := by
  intro i s t r k h hr hk
  obtain ⟨hp, ctx, rfl, e⟩ := exec_of_faultStatus h hr hk
  obtain ⟨hcfg, hport, -⟩ := exec_next_ports h
  have hop : (encode i).cmd.extractLsb' 24 8 = i.op := (fields_encode i).1
  rw [hop]
  exact ⟨hp, rfl, rfl, rfl, hcfg, hport, blk_of_takeFault (e.symm.trans h)⟩

/-! ## The way out of `FAULT` -/

/-- In `FAULT` no command but `CLR` changes the block (60 R250, R255). -/
theorem blk_of_exec_in_fault {i : Instr} {s t : State} (hp : s.blk.phase = .fault) (hi : i ≠ .clr)
    (h : exec i s = .next t) : t.blk = s.blk := by
  cases exec_ends h with
  | aborted _ hb => exact hb
  | faulted _ _ _ hne _ => exact absurd hp hne
  | completed hl he =>
    rw [hp] at hl
    cases i with
    | nop | csrr _ | frd _ | ndrd _ | ctrd _ => exact he
    | clr => exact absurd rfl hi
    | _ => cases hl

/-- Settles O14: `CLR` is decoded from its own word alone; an illegal word and every other command leave the block of `FAULT`
as it stands. -/
theorem faultIsLeftOnlyByClr : Obligations.FaultIsLeftOnlyByClr := by
  intro s t c rest hp hq h
  have hn := nextCommand_of_cmdq_cons hq
  refine ⟨fun hc => ?_, fun hc => ?_⟩
  · rw [step_of_decode_ok hn (decode_word .clr nofun nofun rfl hc)] at h
    rw [blk_of_complete ((exec_clr _).symm.trans h)]
    exact cleared_reset
  · cases hd : decode c with
    | ok i =>
      rw [step_of_decode_ok hn hd] at h
      refine blk_of_exec_in_fault (s := { s with cmdq := rest }) hp ?_ h
      rintro rfl
      obtain ⟨-, hword, -⟩ := encodeInvertsDecode c .clr hd
      exact hc hword.symm
    | error e =>
      rw [step_of_decode_error hn hd] at h
      rcases takeIllegal_ends h with ⟨-, hb⟩ | ⟨hne, -⟩
      · exact hb
      · exact absurd hp hne

/-! ## What a command does is the same whatever has been answered before it -/

/-- The outcome of a machine that has answered nothing yet, as one that has given the responses `l` reaches it. -/
def afterResponses (l : List Response) : Host.Outcome State Fault Refusal → Host.Outcome State Fault Refusal
  | .next t => .next { t with rsps := l ++ t.rsps }
  | .fault f => .fault f
  | .refused f => .refused f

section
variable (i : Instr) (s : State) (l : List Response)

theorem process_afterResponses (body : Host.Outcome State Fault Refusal) :
    process i { s with rsps := l } (afterResponses l body) =
      afterResponses l (process i { s with rsps := [] } body) := by
  simp only [process, takeIllegal]
  split_ifs <;> rfl

theorem bodyOf_afterResponses : bodyOf i { s with rsps := l } = afterResponses l (bodyOf i { s with rsps := [] }) := by
  cases i with
  | nop | clr | csrr _ | frd _ | build | ndrd _ | ctrd _ | flush => rfl
  | acc _ | fadd _ _ | gen | ctld _ _ _ | pack _ | ubeg | unpk _ | ufin _ =>
    simp only [bodyOf, countUp]
    repeat' split
    all_goals rfl

/-- Neither the effect of a command nor its response depends on the responses given before (20 R70, 30 R92). -/
theorem exec_afterResponses : exec i { s with rsps := l } = afterResponses l (exec i { s with rsps := [] }) := by
  rw [exec_eq_process, exec_eq_process, bodyOf_afterResponses, process_afterResponses]

end

/-- A command that answers does the same to the block, and answers the same, with other responses before it. -/
theorem exec_with_rsps {j : Instr} {s u : State} {r : Response} (h : exec j s = .next u) (hr : u.rsps = s.rsps ++ [r])
    (l : List Response) : exec j { s with rsps := l } = .next { u with rsps := l ++ [r] } := by
  have hs : afterResponses s.rsps (exec j { s with rsps := [] }) = .next u :=
    (exec_afterResponses j s s.rsps).symm.trans h
  rw [exec_afterResponses]
  cases hv : exec j { s with rsps := [] } with
  | next v =>
    rw [hv] at hs
    cases hs
    rw [afterResponses, List.append_cancel_left hr]
  | fault _ | refused _ =>
    rw [hv] at hs
    cases hs

/-! ## The commands that only read -/

/-- `NOP` and the reads complete on the block as it stands, in every phase (20 R70, 60 R262). -/
theorem exec_of_reads {i : Instr} (s : State) (hw : i.wellFormed = true)
    (hi : i = .nop ∨ (∃ n, i = .csrr n) ∨ (∃ x, i = .frd x) ∨ (∃ h, i = .ndrd h) ∨ (∃ x, i = .ctrd x)) :
    ∃ r, exec i s = complete s s.blk r := by
  rcases hi with rfl | ⟨n, rfl⟩ | ⟨x, rfl⟩ | ⟨h, rfl⟩ | ⟨x, rfl⟩ <;> exact ⟨_, exec_body hw rfl⟩

/-- Settles O15: a read leaves the machine but for one response more, and what a command does is the same whatever has been
answered before it. -/
theorem readsMayBeInterleaved : Obligations.ReadsMayBeInterleaved := by
  intro i s hw hi
  obtain ⟨r₀, hread⟩ := exec_of_reads s hw hi
  exact ⟨_, hread, rfl, fun j u r h hr => ⟨_, exec_with_rsps h hr (s.rsps ++ [r₀]), rfl, rfl⟩⟩

end Sys2Proof.Machine
end

section
/-! PROOF. Every command terminates: under the invariant a step has a next state (70 R300). -/

namespace Sys2Proof.Machine

/-- Settles O53: an empty port keeps the state, and otherwise the oldest command is answered from a next state. -/
theorem everyStepHasANextState : Obligations.EveryStepHasANextState := by
  intro s h
  cases hq : s.cmdq with
  | nil => exact ⟨s, noCommandKeepsTheState s hq⟩
  | cons c rest =>
    obtain ⟨t, _, hstep, -⟩ := everyCommandGetsOneResponse s c rest h hq
    exact ⟨t, hstep⟩

end Sys2Proof.Machine
end
